-- ==== Sys2Proof/Word.lean ====
section
/-! DEFINITION. The word types of HTB (spec/00_scope.md R3, R5; spec/10_state.md R41, R45).
All values are unsigned (R4). -/

namespace Sys2Proof

/-- A register, an address, a length or a frequency: W = 32 bits (R3, R5). -/
abbrev Word := BitVec 32

/-- One byte of memory (spec/20_memory.md R60). -/
abbrev Byte := BitVec 8

/-- The sentinel-prefixed code field of FIELD_BITS = 128 bits (R3, R92). -/
abbrev CodeField := BitVec 128

/-- A node index, a 15-bit number (R40). -/
abbrev NodeIdx := BitVec 15

/-- The SYM field of a node record, 7 bits (R41). -/
abbrev Sym := BitVec 7

end Sys2Proof
end

