-- ==== Sys2Proof/Config.lean ====
section
/-! DEFINITION. The parameters of HTB (spec/00_scope.md R3: fixed, a model takes none as an argument) and the
free values (spec/93_implementation_defined.md U1, U2), which have no body: nothing can be proved of them. -/

namespace Sys2Proof.Config

/-- NSYM_MAX: the number of symbol values; symbols are 0 to 127 (R3, 90_conflicts.md C1). -/
def nsymMax : Nat := 128

/-- MAX_CODE_LEN: the longest code the 128-bit field can hold (R3, R92). -/
def maxCodeLen : Nat := 127

/-- ENTRY_BYTES: one symbol byte and one 16-byte code field (R3, R94). -/
def entryBytes : Nat := 17

/-- NODE_CAP: the number of records of the NODE table (R3, R40). -/
def nodeCap : Nat := 16384

/-- NIL: the node index that means "no node" (R3, R40). -/
def nil : NodeIdx := 0x7FFF#15

/-- REG_SPACE: the number of register numbers of the host port (R3, R20). -/
def regSpace : Nat := 0x400

/-- The number of addresses of the memory space (R60). -/
def memSpace : Nat := 2 ^ 32

/-- A byte of the destination window after a fault or a reset in SER or DCP: unspecified (R231, R251, U1).
The n-th free value handed out; log entry 2. -/
opaque unspecifiedByte : Nat → Byte

/-- A register read while BUSY = 1, other than STATUS and CTRL: unspecified (R23, U2).
The n-th free value handed out; log entry 3. -/
opaque unspecifiedWord : Nat → Word

end Sys2Proof.Config
end

