-- ==== Sys2Proof/Syntax.lean ====
section
/-! DEFINITION. The nine commands (spec/30_encoding.md R82), the seven stages they are made of (R83), and the
events that drive the machine: the host's operations (R20, R87, R78, R250) and the scheduler's turns
(spec/60_exceptions.md R243). -/

namespace Sys2Proof

/-- The commands, one constructor per row of spec/opcode_table.json. A command word has no operand field (R80). -/
inductive Instr where
  /-- CLR, clear session (R110). -/
  | clr
  /-- CNT, count frequencies (R120). -/
  | cnt
  /-- BLD, build tree (R130). -/
  | bld
  /-- ASG, assign codes (R150). -/
  | asg
  /-- SER, serialize (R160). -/
  | ser
  /-- RCN, reconstruct tree (R180). -/
  | rcn
  /-- DCP, decode payload (R200). -/
  | dcp
  /-- ENC, whole encode (R170). -/
  | enc
  /-- DEC, whole decode (R210). -/
  | dec
  deriving DecidableEq, Repr

/-- The values of STATUS.STAGE (spec/10_state.md R25); the values 8 to 15 never occur. -/
inductive Stage where
  | idle
  | clr
  | cnt
  | bld
  | asg
  | ser
  | rcn
  | dcp
  deriving DecidableEq, Repr

/-- What can come next at the machine's boundary: a host operation, a pseudo-operation of the host script (R87),
or a turn the scheduler gives to HTB (R243). -/
inductive Event where
  /-- `RegRead(n)` (R20). -/
  | regRead (n : Nat)
  /-- `RegWrite(n, v)` (R20). -/
  | regWrite (n : Nat) (v : Word)
  /-- The host reads one byte of memory (R78, R243). -/
  | memRead (a : Word)
  /-- The host writes one byte of memory (R78, R243). -/
  | memWrite (a : Word) (v : Byte)
  /-- The reset input is asserted (R250). -/
  | reset
  /-- `wait`: read STATUS until BUSY reads 0 (R87). -/
  | wait
  /-- The host waits for `irq` = 1 (R224; 95_test_vectors.md program P2). -/
  | waitIrq
  /-- The scheduler lets HTB take one stage step if BUSY = 1 (R243). -/
  | turn
  deriving DecidableEq, Repr

end Sys2Proof
end

