-- ==== Sys2Proof/WellFormed.lean ====
section
/-! DEFINITION. Which terms are well formed: every command is (spec/30_encoding.md R80: no operand field), and an
event is when the register number it names exists (spec/10_state.md R20). -/

namespace Sys2Proof

/-- A command word has no operand field and no immediate (R80), so every command is well formed. -/
def Instr.wf : Instr → Bool
  | .clr | .cnt | .bld | .asg | .ser | .rcn | .dcp | .enc | .dec => true

/-- Register numbers run from 0x000 to 0x3FF (R20); memory addresses are 32-bit words by their type (R60). -/
def Event.wf : Event → Bool
  | .regRead n => decide (n < Config.regSpace)
  | .regWrite n _ => decide (n < Config.regSpace)
  | .memRead _ | .memWrite _ _ | .reset | .wait | .waitIrq | .turn => true

end Sys2Proof
end

