-- ==== Sys2Proof/Decode.lean ====
section
/-! DEFINITION. The command words (spec/30_encoding.md R80 to R84): the decoder, total on every 32-bit word and
rejecting by name, then the encoder, and the stage lists of R83. -/

namespace Sys2Proof

/-- Why a word is no command (R84). -/
inductive DecodeError where
  /-- Bits 31:8, the field ZERO, are not 0 (R81). -/
  | zeroFieldNotZero
  /-- ZERO = 0 and OPCODE is none of the nine (R84). -/
  | noSuchOpcode
  deriving DecidableEq, Repr

/-- The opcode map (R82), from the OPCODE field. -/
def decodeOpcode (opcode : Byte) : Except DecodeError Instr :=
  match opcode.toNat with
  | 0x01 => .ok .clr
  | 0x02 => .ok .cnt
  | 0x03 => .ok .bld
  | 0x04 => .ok .asg
  | 0x05 => .ok .ser
  | 0x06 => .ok .rcn
  | 0x07 => .ok .dcp
  | 0x10 => .ok .enc
  | 0x11 => .ok .dec
  | _ => .error .noSuchOpcode

/-- Format CMD (R81): bits 31:8 ZERO, bits 7:0 OPCODE. -/
def decode (w : Word) : Except DecodeError Instr :=
  if w.extractLsb' 8 24 = 0 then decodeOpcode (w.extractLsb' 0 8) else .error .zeroFieldNotZero

/-- The OPCODE of a command (R82); also the value OP takes when the command is accepted (R26). -/
def Instr.opcode : Instr → Byte
  | .clr => 0x01
  | .cnt => 0x02
  | .bld => 0x03
  | .asg => 0x04
  | .ser => 0x05
  | .rcn => 0x06
  | .dcp => 0x07
  | .enc => 0x10
  | .dec => 0x11

/-- The command word: the field ZERO, then OPCODE (R81, R82). -/
def encode (i : Instr) : Word := 0#24 ++ i.opcode

/-- The first stage of a command's stage list (R83). -/
def Instr.firstStage : Instr → Stage
  | .clr => .clr
  | .cnt => .cnt
  | .bld => .bld
  | .asg => .asg
  | .ser => .ser
  | .rcn => .rcn
  | .dcp => .dcp
  | .enc => .clr
  | .dec => .clr

/-- The stage lists (R83). -/
def Instr.stages : Instr → List Stage
  | .clr => [.clr]
  | .cnt => [.cnt]
  | .bld => [.bld]
  | .asg => [.asg]
  | .ser => [.ser]
  | .rcn => [.rcn]
  | .dcp => [.dcp]
  | .enc => [.clr, .cnt, .bld, .asg, .ser]
  | .dec => [.clr, .rcn, .dcp]

/-- The stage numbers of STATUS.STAGE (R25, R83). -/
def Stage.number : Stage → BitVec 4
  | .idle => 0
  | .clr => 1
  | .cnt => 2
  | .bld => 3
  | .asg => 4
  | .ser => 5
  | .rcn => 6
  | .dcp => 7

/-- The host's view of the decoder: the command read from an instruction of `nbits` bits whose bits are `w`. The word
crosses the register port whole (R20), so no byte order enters. A word of more than 32 bits is no command word (R80). -/
def decodeTableWord (nbits w : Nat) : Option Instr :=
  let bits := w % 2 ^ nbits
  if bits < 2 ^ 32 then
    match decode (BitVec.ofNat 32 bits) with
    | .ok i => some i
    | .error _ => none
  else none

end Sys2Proof
end

