-- ==== Sys2Proof/Machine/State.lean ====
section
/-! DEFINITION. The state of HTB (spec/10_state.md), as plain data, and its reset value (R51). -/

namespace Sys2Proof.Machine

/-- STATUS.TREE_SRC (R25, R47); the value 3 never occurs. -/
inductive TreeSrc where
  | none
  | built
  | recon
  deriving DecidableEq, Repr

/-- The KIND field of a node record (R41); the value 3 never occurs. -/
inductive Kind where
  | free
  | leaf
  | internal
  deriving DecidableEq, Repr

/-- One record of the NODE table (R41). -/
structure Node where
  kind : Kind
  sym : Sym
  left : NodeIdx
  right : NodeIdx
  freq : Word
  deriving DecidableEq, Repr

/-- The free record (R41). -/
def Node.freeRecord : Node :=
  { kind := .free, sym := 0, left := Config.nil, right := Config.nil, freq := 0 }

/-- The four window registers as a command finds them (R30). -/
structure Windows where
  srcBase : Word
  srcLen : Word
  dstBase : Word
  dstCap : Word
  deriving DecidableEq, Repr

/-- Memory: the bytes that differ from what an unlisted address reads as, by rising address. -/
abbrev Memory := List Host.Cell

/-- What a byte of memory reads as when it is not listed. Reset writes no memory and the spec gives it no value
(R51, U4). DESIGN CHOICE, unsafe: log entry 1. -/
def unwrittenByte : Byte := 0

/-- The canonical form of memory: addresses strictly rising and below 2^32 (R60), no entry that reads as if
it were not there. -/
abbrev Memory.wf (m : Memory) : Prop :=
  m.Pairwise (fun c d => c.1 < d.1) ∧ ∀ c ∈ m, c.2 ≠ unwrittenByte ∧ c.1 < 2 ^ 32

/-- The value a host read returned (R20). -/
inductive Reply where
  | reg (v : Word)
  | mem (v : Byte)
  deriving DecidableEq, Repr

/-- The names of HTB's faults (spec/60_exceptions.md R221). Taking one is a NEXT state (R230), not a stop of the model. -/
inductive ErrName where
  | formatError
  | unsupportedSymbolError
  | windowError
  | dstOverflowError
  | sequenceError
  | illegalCommandError
  | noCodeError
  | freqOverflowError
  deriving DecidableEq, Repr

/-- The state of the machine: every register and register file of spec/10_state.md, memory, and the model's own
`script`, `replies`, `inFlight` and `freeCount`. -/
structure State where
  /-- STATUS.BUSY (R25). -/
  busy : Bool
  /-- STATUS.DONE (R25). -/
  done : Bool
  /-- STATUS.ERR (R25). -/
  err : Bool
  /-- STATUS.TREE_SRC (R25, R47). -/
  treeSrc : TreeSrc
  /-- STATUS.CODES_VALID (R25, R47). -/
  codesValid : Bool
  /-- STATUS.STAGE, the stage HTB will execute next (R25, R27). -/
  stage : Stage
  /-- STATUS.OP, the opcode of the last accepted command (R25, R26). -/
  op : Byte
  /-- CTRL.IE_DONE (R28). -/
  ieDone : Bool
  /-- CTRL.IE_ERR (R28). -/
  ieErr : Bool
  /-- ERRCODE bits 3:0 (R29). -/
  errCode : BitVec 4
  /-- ERRINFO (R29). -/
  errInfo : Word
  /-- SRC_BASE (R30). -/
  srcBase : Word
  /-- SRC_LEN (R30). -/
  srcLen : Word
  /-- DST_BASE (R30). -/
  dstBase : Word
  /-- DST_CAP (R30). -/
  dstCap : Word
  /-- DST_LEN (R31). -/
  dstLen : Word
  /-- NSYM bits 7:0 (R32). -/
  nsym : BitVec 8
  /-- ROOT bits 14:0 (R33). -/
  root : NodeIdx
  /-- NODE_SEL bits 14:0 (R34). -/
  nodeSel : NodeIdx
  /-- The allocated records NODE[0] to NODE[NNODE - 1]; every other record is the free record and NNODE is the
  length (R33, R40, R42; log entry 7). -/
  nodes : List Node
  /-- FREQ[0..127] (R35). -/
  freq : Vector Word 128
  /-- CODE[0..127] (R45). -/
  code : Vector CodeField 128
  /-- Memory (spec/20_memory.md R60). -/
  mem : Memory
  /-- The model's own: the host operations still to come and the turns of HTB between them (R243; log entry 5). -/
  script : List Event
  /-- The model's own: what the host's reads have returned, newest first (R20; log entry 5). -/
  replies : List Reply
  /-- The model's own: the windows of every command accepted since the host last saw BUSY = 0, newest first (R78, R258, U3;
  log entry 4). -/
  inFlight : List Windows
  /-- The model's own: how many free values have been handed out (U1, U2; log entry 2). -/
  freeCount : Nat
  deriving DecidableEq, Repr

/-- Why the model stops. None is a fault of HTB (those are NEXT states, R230); each is safe and is reached only from
states that no run from reset reaches. -/
inductive Fault where
  /-- Raised by a command's meaning when BUSY = 0: a stage step "is defined only when BUSY = 1" (R27). Safe. -/
  | stepWhileIdle
  /-- Raised by a command's meaning when STAGE is no element of the command's stage list (R27, R83). Safe. -/
  | stageNotOfCommand
  /-- Raised by `step` when BUSY = 1 and OP is no opcode (R27: OP takes only 0 and the nine opcodes). Safe. -/
  | opNotACommand
  /-- Raised by the ASG stage when a path of the tree grows longer than 127 (R152: |path| <= 127). Safe. -/
  | pathTooLong
  deriving DecidableEq, Repr

/-- Why the model gives a step no meaning. -/
inductive Refusal where
  /-- Raised by `exec` for a command without a meaning (none in this model). Safe. -/
  | notModelled (mnemonic : String)
  /-- Raised by a host memory access to a window of a command whose completion the host has not seen (R78, U3:
  "refuse"). Safe; log entry 4. -/
  | hostWindowRace
  /-- Raised by a host operation on a register number above 0x3FF, which the port does not have (R20). Safe; log entry 12. -/
  | noSuchRegister
  deriving DecidableEq, Repr

/-- The state after reset (R51, R250), with no memory written, no host operation pending. -/
def State.reset : State where
  busy := false
  done := false
  err := false
  treeSrc := .none
  codesValid := false
  stage := .idle
  op := 0
  ieDone := false
  ieErr := false
  errCode := 0
  errInfo := 0
  srcBase := 0
  srcLen := 0
  dstBase := 0
  dstCap := 0
  dstLen := 0
  nsym := 0
  root := Config.nil
  nodeSel := 0
  nodes := []
  freq := Vector.replicate 128 0
  code := Vector.replicate 128 0
  mem := []
  script := []
  replies := []
  inFlight := []
  freeCount := 0

end Sys2Proof.Machine
end

