-- ==== Sys2Proof/Machine/Ops.lean ====
section
/-! DEFINITION. The shared operations: memory (spec/20_memory.md), the NODE and CODE tables (spec/10_state.md), the
end of a session, taking a fault and leaving the fault state (spec/60_exceptions.md R230, R232), accepting a command
(R26) and the sequencer (R27). -/

namespace Sys2Proof.Machine

/-! ### Memory -/

/-- `MemRead(addr, 1)` (R62). -/
def memRead : Memory → Nat → Byte
  | [], _ => unwrittenByte
  | (a, v) :: m, x => if a = x then v else memRead m x

/-- Puts an entry before the first entry of a higher address. -/
def memInsert : Memory → Nat → Byte → Memory
  | [], x, v => [(x, v)]
  | (a, b) :: m, x, v => if x < a then (x, v) :: (a, b) :: m else (a, b) :: memInsert m x v

/-- `MemWrite(addr, 1, v)` (R63): the byte at `x` becomes `v`, no other byte changes. -/
def memWrite (m : Memory) (x : Nat) (v : Byte) : Memory :=
  let others := m.filter (fun c => c.1 != x)
  if v = unwrittenByte then others else memInsert others x v

/-- Memory with the `n` bytes from `base` upward replaced by free values, the first of them the `k`-th (R231, U1). -/
def memSpoil (m : Memory) (base k : Nat) : Nat → Memory
  | 0 => m
  | n + 1 => memWrite (memSpoil m base k n) (base + n) (Config.unspecifiedByte (k + n))

/-! ### The NODE table (R40 to R42) -/

/-- `NODE[i]`: the record of index `i`; the free record when it is not allocated (R33, R34, R41). -/
def nodeAt (nodes : List Node) (i : NodeIdx) : Node :=
  nodes.getD i.toNat Node.freeRecord

/-- A LEAF record of symbol number `s` with frequency `f` (R41). -/
def mkLeaf (s : Sym) (f : Word) : Node :=
  { kind := .leaf, sym := s, left := Config.nil, right := Config.nil, freq := f }

/-- An INTERNAL record (R41); its SYM is 0. -/
def mkInternal (l r : NodeIdx) (f : Word) : Node :=
  { kind := .internal, sym := 0, left := l, right := r, freq := f }

/-- The index that `Alloc` returns: NNODE before the allocation (R42). The record itself is written by appending it
to the allocated records. -/
def nextIdx (nodes : List Node) : NodeIdx :=
  BitVec.ofNat 15 nodes.length

/-- NNODE (R33). -/
def nnode (s : State) : Nat := s.nodes.length

/-! ### The FREQ and CODE files (R35, R45) -/

/-- `FREQ[k]`, for a symbol number `k` (R35). -/
def freqAt (f : Vector Word 128) (k : Nat) : Word := f[k]?.getD 0

/-- `CODE[k]`, for a symbol number `k` (R45). -/
def codeAt (t : Vector CodeField 128) (k : Nat) : CodeField := t[k]?.getD 0

/-- All 128 FREQ zero. -/
def freqZero : Vector Word 128 := Vector.replicate 128 0

/-- All 128 CODE zero. -/
def codeZero : Vector CodeField 128 := Vector.replicate 128 0

/-! ### The end of a session, faults -/

/-- `FreeAll()` (R42): every record free, NNODE 0, ROOT NIL. -/
def freeAll (s : State) : State :=
  { s with nodes := [], root := Config.nil }

/-- `SessionClear()` (R46). -/
def sessionClear (s : State) : State :=
  { freeAll s with
    freq := freqZero
    code := codeZero
    nsym := 0
    treeSrc := .none
    codesValid := false
    dstLen := 0 }

/-- The fault codes (R221). -/
def ErrName.code : ErrName → BitVec 4
  | .formatError => 1
  | .unsupportedSymbolError => 2
  | .windowError => 3
  | .dstOverflowError => 4
  | .sequenceError => 5
  | .illegalCommandError => 6
  | .noCodeError => 7
  | .freqOverflowError => 8

/-- `FaultEntry(c, v)`, the taking of an exception, in the registers (R230). OP, CTRL, the window registers and
NODE_SEL keep their values; nothing is saved and control goes nowhere. -/
def faultEntry (e : ErrName) (info : Word) (s : State) : State :=
  { sessionClear s with
    err := true
    errCode := e.code
    errInfo := info
    done := false
    busy := false
    stage := .idle }

/-- The return from the fault state (R232), the part of the CLR stage after `SessionClear()` (R111). -/
def leaveFault (s : State) : State :=
  { s with err := false, errCode := 0, errInfo := 0 }

/-- How many bytes of memory the destination window covers: a window that runs past the top of the address space
(which no stage writes to, R64) ends there. -/
def dstBytes (s : State) : Nat :=
  min s.dstCap.toNat (Config.memSpace - s.dstBase.toNat)

/-- Every byte of the destination window gets an unspecified value (R231, R251, U1). -/
def spoilDst (s : State) : State :=
  { s with
    mem := memSpoil s.mem s.dstBase.toNat s.freeCount (dstBytes s)
    freeCount := s.freeCount + dstBytes s }

/-- Whether a fault of stage `st` leaves the destination window unspecified: SER or DCP, any fault other than
SequenceError and WindowError (R231). -/
def spoilsDst (st : Stage) (e : ErrName) : Bool :=
  (st == .ser || st == .dcp) && !(e == .sequenceError || e == .windowError)

/-- A fault raised in stage `st`: fault entry in the registers (R230) and the destination window (R231). The state is
the one the stage began with: fault entry overwrites every register the stage may have written (R234), and the stage
has written no byte outside the destination window (R79). -/
def takeFault (st : Stage) (e : ErrName) (info : Word) (s : State) : State :=
  faultEntry e info (if spoilsDst st e then spoilDst s else s)

/-! ### How a stage ends -/

/-- What ends a stage early. -/
inductive Stop where
  /-- `raise <Fault>(info)`: a fault of HTB (R230). -/
  | raised (e : ErrName) (info : Word)
  /-- The model stops: the spec gives the situation no meaning. -/
  | stuck (f : Fault)
  deriving DecidableEq, Repr

/-- `raise <Fault>(info)`, the value taken as a W-bit word. -/
def raise {α : Type} (e : ErrName) (info : Nat) : Except Stop α :=
  .error (.raised e (BitVec.ofNat 32 info))

/-- `if not ok: raise <Fault>(info)`. -/
def require (ok : Prop) [Decidable ok] (e : ErrName) (info : Nat) : Except Stop Unit :=
  if ok then .ok () else raise e info

/-! ### Commands and the sequencer -/

/-- The window registers as a command finds them (R30, R85). -/
def windowsOf (s : State) : Windows :=
  { srcBase := s.srcBase, srcLen := s.srcLen, dstBase := s.dstBase, dstCap := s.dstCap }

/-- A command is accepted (R26, case 4). Its windows join those in flight: a command whose end the host has not seen keeps its
own closed (R258, U3; log entry 4). -/
def accept (i : Instr) (s : State) : State :=
  { s with
    op := i.opcode
    done := false
    busy := true
    stage := i.firstStage
    inFlight := windowsOf s :: s.inFlight }

/-- The element that follows `st` in a stage list (R27). -/
def nextStage : List Stage → Stage → Option Stage
  | a :: b :: l, st => if a = st then some b else nextStage (b :: l) st
  | _, _ => none

/-- The sequencer after a stage that raised no fault (R27): the next stage of the list, or the end of the command. -/
def advance (next : Option Stage) (s : State) : State :=
  match next with
  | some st => { s with stage := st }
  | none => { s with stage := .idle, busy := false, done := true }

/-- The function of a stage. -/
abbrev StageFn := State → Except Stop State

/-- The function that a command has for stage `st`. -/
def stageFnOf (st : Stage) : List (Stage × StageFn) → Option StageFn
  | [] => none
  | (st', f) :: l => if st' = st then some f else stageFnOf st l

/-- One step of HTB with BUSY = 1: the stage named by STAGE, atomically, then the sequencer or fault entry (R27, R230).
`run` is the command's stage list with the function of each stage. -/
def commandStep (run : List (Stage × StageFn)) (s : State) : Host.Outcome State Fault Refusal :=
  if s.busy = false then .fault .stepWhileIdle
  else
    match stageFnOf s.stage run with
    | none => .fault .stageNotOfCommand
    | some f =>
      match f s with
      | .ok s' => .next (advance (nextStage (run.map Prod.fst) s.stage) s')
      | .error (.raised e info) => .next (takeFault s.stage e info s)
      | .error (.stuck r) => .fault r

/-- The command HTB is executing: the one whose opcode OP holds (R26, R27). HTB fetches no word from memory (R76). -/
def fetchCommand (s : State) : Option Instr :=
  match decode (s.op.setWidth 32) with
  | .ok i => some i
  | .error _ => none

end Sys2Proof.Machine
end

