-- ==== Sys2Proof/Machine/Operands.lean ====
section
/-! DEFINITION. The operands of a stage: the two windows (spec/20_memory.md R64 to R67), and the forms of a code: the bit
string and the sentinel-prefixed field (spec/30_encoding.md R92, R93, R95). -/

namespace Sys2Proof.Machine

/-! ### Windows -/

/-- The source window ends inside the address space (R64). -/
abbrev srcInRange (s : State) : Prop :=
  s.srcBase.toNat + s.srcLen.toNat ≤ Config.memSpace

/-- The destination window ends inside the address space (R64). -/
abbrev dstInRange (s : State) : Prop :=
  s.dstBase.toNat + s.dstCap.toNat ≤ Config.memSpace

/-- The two windows share a byte (R64); an empty window shares none. -/
abbrev windowsOverlap (s : State) : Prop :=
  0 < s.srcLen.toNat ∧ 0 < s.dstCap.toNat ∧
    s.srcBase.toNat < s.dstBase.toNat + s.dstCap.toNat ∧ s.dstBase.toNat < s.srcBase.toNat + s.srcLen.toNat

/-- `CheckWindows(false)` (R64). -/
def checkSrc (s : State) : Except Stop Unit :=
  require (srcInRange s) .windowError 0

/-- `CheckWindows(true)` (R64): source range, then destination range, then overlap. -/
def checkBoth (s : State) : Except Stop Unit := do
  checkSrc s
  require (dstInRange s) .windowError 1
  require (¬ windowsOverlap s) .windowError 2

/-- `SrcByte(i)` (R66). -/
def srcByte (s : State) (i : Nat) : Byte :=
  memRead s.mem (s.srcBase.toNat + i)

/-- `Emit(v)` (R67). -/
def emit (v : Byte) (s : State) : Except Stop State :=
  if s.dstLen = s.dstCap then raise .dstOverflowError s.dstCap.toNat
  else .ok { s with mem := memWrite s.mem (s.dstBase.toNat + s.dstLen.toNat) v, dstLen := s.dstLen + 1 }

/-- `Emit` of each byte of a list, in order. -/
def emitAll : List Byte → State → Except Stop State
  | [], s => .ok s
  | v :: vs, s => do emitAll vs (← emit v s)

/-! ### Bit strings and code fields -/

/-- `val(c)` (00_scope.md section 6.1): the number whose binary writing is the bit string `c`, first bit most significant. -/
def bitsVal (c : List Bool) : Nat :=
  c.foldl (fun n b => 2 * n + b.toNat) 0

/-- The sentinel-prefixed field of a code (R92): `2^L + val(c)`. -/
def fieldOf (c : List Bool) : CodeField :=
  BitVec.ofNat 128 (2 ^ c.length + bitsVal c)

/-- The length of the code in a nonzero field: `floor_log2(field)` (R93). -/
def codeLen (field : CodeField) : Nat :=
  field.toNat.log2

/-- The code in a nonzero field (R93): bit `t` of the code is `field[L - 1 - t]`. -/
def codeBits (field : CodeField) : List Bool :=
  (List.range (codeLen field)).map fun t => field.getLsbD (codeLen field - 1 - t)

/-- Byte `j` of a code field, `j = 0` at the lowest address: `field[127 - 8*j : 120 - 8*j]` (R92). -/
def fieldByte (field : CodeField) (j : Nat) : Byte :=
  field.extractLsb' (120 - 8 * j) 8

/-- The 16 bytes of a code field, most significant first (R92). -/
def fieldBytes (field : CodeField) : List Byte :=
  (List.range 16).map (fieldByte field)

/-- The field that bytes make, the first most significant: `field*256 + byte`, from 0 (R93). -/
def fieldOfBytes (bs : List Byte) : CodeField :=
  BitVec.ofNat 128 (bs.foldl (fun n b => n * 256 + b.toNat) 0)

/-- The bits of a byte, most significant first (R95, R204): bit `j` of the string is `b[7 - j]`. -/
def byteBits (b : Byte) : List Bool :=
  (List.range 8).map fun j => b.getLsbD (7 - j)

/-- The byte that 8 bits make, the first bit in bit 7 (R95). -/
def byteOfBits (c : List Bool) : Byte :=
  BitVec.ofNat 8 (bitsVal c)

end Sys2Proof.Machine
end

