-- ==== Sys2Proof/Machine/Build.lean ====
section
/-! DEFINITION. BLD, the tree builder (spec/42_tree_build.md). -/

namespace Sys2Proof.Machine

/-- An element of the priority structure Q: (frequency, sequence number, node index) (R133). -/
structure QElem where
  freq : Nat
  seq : Nat
  idx : NodeIdx
  deriving DecidableEq, Repr

/-- The priority order (R133): ascending frequency, ties by sequence number. -/
abbrev prioLe (x y : QElem) : Prop :=
  x.freq < y.freq ∨ (x.freq = y.freq ∧ x.seq ≤ y.seq)

/-- Q, kept in priority order, so that `ExtractMin(Q)` takes the head (R133; log entry 10). -/
abbrev Queue := List QElem

/-- `insert x into Q`. -/
def enqueue (x : QElem) (q : Queue) : Queue :=
  q.orderedInsert prioLe x

/-- The transient state of the BLD stage (R50) with the records allocated so far. -/
structure Build where
  nodes : List Node
  q : Queue
  seq : Nat
  deriving DecidableEq, Repr

/-- The sum of the 128 FREQ values, as a mathematical integer (R131). -/
def freqTotal (f : Vector Word 128) : Nat :=
  ((List.range 128).map fun k => (freqAt f k).toNat).sum

/-- The leaf of symbol number `k`, if its FREQ is not zero (R132). -/
def addLeaf (f : Vector Word 128) (b : Build) (k : Nat) : Build :=
  if freqAt f k = 0 then b
  else
    { nodes := b.nodes ++ [mkLeaf (BitVec.ofNat 7 k) (freqAt f k)]
      q := enqueue { freq := (freqAt f k).toNat, seq := b.seq, idx := nextIdx b.nodes } b.q
      seq := b.seq + 1 }

/-- The leaves, in ascending order of the symbol (R132). -/
def leaves (f : Vector Word 128) : Build :=
  (List.range 128).foldl (addLeaf f) { nodes := [], q := [], seq := 0 }

/-- At most `rounds` rounds of the merge (R134): while Q has more than one element, the two least are removed, the first
becomes LEFT and the second RIGHT of a new INTERNAL record, which is inserted. -/
def merge : Nat → Build → Build
  | 0, b => b
  | rounds + 1, b =>
    match b.q with
    | x :: y :: q =>
      merge rounds
        { nodes := b.nodes ++ [mkInternal x.idx y.idx (BitVec.ofNat 32 (x.freq + y.freq))]
          q := enqueue { freq := x.freq + y.freq, seq := b.seq, idx := nextIdx b.nodes } q
          seq := b.seq + 1 }
    | _ => b

/-- The records of the tree and its root (R140 for no symbol, R136 for one, R134 and R135 for more). Every round takes one
element from Q, so as many rounds as Q has elements are enough. -/
def buildTree (f : Vector Word 128) : List Node × NodeIdx :=
  let b := leaves f
  match b.seq with
  | 0 => ([], Config.nil)
  | 1 => (b.nodes ++ [mkInternal 0 Config.nil (nodeAt b.nodes 0).freq], nextIdx b.nodes)
  | _ =>
    let m := merge b.q.length b
    (m.nodes, match m.q with
      | r :: _ => r.idx
      | [] => Config.nil)

/-- The BLD stage (R130). -/
def bldStage (s : State) : Except Stop State := do
  require (freqTotal s.freq < 2 ^ 32) .freqOverflowError 0
  .ok
    { s with
      nodes := (buildTree s.freq).1
      root := (buildTree s.freq).2
      code := codeZero
      codesValid := false
      nsym := BitVec.ofNat 8 (leaves s.freq).seq
      treeSrc := .built }

/-- BLD, build tree (R130). -/
def execBld (s : State) : Host.Outcome State Fault Refusal :=
  commandStep [(.bld, bldStage)] s

end Sys2Proof.Machine
end

