-- ==== Sys2Proof/Machine/Count.lean ====
section
/-! DEFINITION. CNT (spec/41_frequency_count.md). -/

namespace Sys2Proof.Machine

/-- `FREQ[b] <- FREQ[b] + 1` (R121). -/
def bump (f : Vector Word 128) (b : Nat) : Vector Word 128 :=
  f.setIfInBounds b (freqAt f b + 1)

/-- The loop of the CNT stage over the `n` source bytes from offset `i` (R121): a byte of 128 or more raises
UnsupportedSymbolError with its offset (R122). -/
def countFrom (s : State) : Nat → Nat → Vector Word 128 → Except Stop (Vector Word 128)
  | 0, _, f => .ok f
  | n + 1, i, f => do
    require ((srcByte s i).toNat < Config.nsymMax) .unsupportedSymbolError i
    countFrom s n (i + 1) (bump f (srcByte s i).toNat)

/-- The CNT stage (R121). -/
def cntStage (s : State) : Except Stop State := do
  checkSrc s
  let f ← countFrom s s.srcLen.toNat 0 freqZero
  .ok { s with freq := f }

/-- CNT, count frequencies (R120). -/
def execCnt (s : State) : Host.Outcome State Fault Refusal :=
  commandStep [(.cnt, cntStage)] s

end Sys2Proof.Machine
end

