-- ==== Sys2Proof/Machine/Assign.lean ====
section
/-! DEFINITION. ASG, the code assigner (spec/43_code_assign.md). -/

namespace Sys2Proof.Machine

/-- `CODE[sym] <- field`. -/
def setCode (c : Vector CodeField 128) (sym : Sym) (field : CodeField) : Vector CodeField 128 :=
  c.setIfInBounds sym.toNat field

/-- `Visit(n, path)` (R152): LEFT appends 0, RIGHT appends 1 (R153). The path never grows longer than 127 (R154): the first
argument is how many records the walk may still enter, and a path that would be longer stops the model (log entry 9). -/
def visit (nodes : List Node) : Nat → NodeIdx → List Bool → Vector CodeField 128 → Except Stop (Vector CodeField 128)
  | 0, _, _, _ => .error (.stuck .pathTooLong)
  | depth + 1, n, path, c =>
    if (nodeAt nodes n).kind = .leaf then .ok (setCode c (nodeAt nodes n).sym (fieldOf path))
    else
      (if (nodeAt nodes n).left ≠ Config.nil then visit nodes depth (nodeAt nodes n).left (path ++ [false]) c
        else .ok c) >>= fun c =>
      if (nodeAt nodes n).right ≠ Config.nil then visit nodes depth (nodeAt nodes n).right (path ++ [true]) c
      else .ok c

/-- The CODE table of the tree (R152). -/
def treeCodes (nodes : List Node) (root : NodeIdx) : Except Stop (Vector CodeField 128) :=
  if root ≠ Config.nil then visit nodes (Config.maxCodeLen + 1) root [] codeZero else .ok codeZero

/-- The ASG stage (R152), with its prerequisite (R151). -/
def asgStage (s : State) : Except Stop State := do
  require (s.treeSrc = .built) .sequenceError 4
  let c ← treeCodes s.nodes s.root
  .ok { s with code := c, codesValid := true }

/-- ASG, assign codes (R150). -/
def execAsg (s : State) : Host.Outcome State Fault Refusal :=
  commandStep [(.asg, asgStage)] s

end Sys2Proof.Machine
end

