-- ==== Sys2Proof/Machine/Reconstruct.lean ====
section
/-! DEFINITION. RCN, the tree reconstructor (spec/45_reconstruct.md). -/

namespace Sys2Proof.Machine

/-- What the RCN stage has built so far: the allocated records and the CODE table. -/
structure Recon where
  nodes : List Node
  code : Vector CodeField 128
  deriving DecidableEq, Repr

/-- The child that a bit leads to (R185, R204): 0 is LEFT, 1 is RIGHT. -/
def childOf (r : Node) (bit : Bool) : NodeIdx :=
  if bit then r.right else r.left

/-- The record with the child that a bit leads to replaced. -/
def withChild (r : Node) (bit : Bool) (c : NodeIdx) : Node :=
  if bit then { r with right := c } else { r with left := c }

/-- An INTERNAL record without children (R182, R185). -/
def childless : Node := mkInternal Config.nil Config.nil 0

/-- `NODE[i] <- r` for an allocated record. -/
def setNode (nodes : List Node) (i : NodeIdx) (r : Node) : List Node :=
  nodes.set i.toNat r

/-- The walk of one entry along the bits of its code (R185): an existing child is followed, a missing one is allocated;
a LEAF with a bit still to follow is a prefix conflict (R187 a). `off` is the offset of the entry. -/
def walkEntry (off : Nat) : List Bool → NodeIdx → List Node → Except Stop (NodeIdx × List Node)
  | [], cur, nodes => .ok (cur, nodes)
  | bit :: bits, cur, nodes => do
    require ((nodeAt nodes cur).kind ≠ .leaf) .formatError (off + 1)
    if childOf (nodeAt nodes cur) bit = Config.nil then
      walkEntry off bits (nextIdx nodes)
        (setNode (nodes ++ [childless]) cur (withChild (nodeAt nodes cur) bit (nextIdx nodes)))
    else walkEntry off bits (childOf (nodeAt nodes cur) bit) nodes

/-- A record that a symbol may be attached to (R187 b): an INTERNAL record without children. -/
abbrev attachable (r : Node) : Prop :=
  r.kind = .internal ∧ r.left = Config.nil ∧ r.right = Config.nil

/-- One entry, at offset `off` of the file (R183 to R188). -/
def readEntry (s : State) (off : Nat) (r : Recon) : Except Stop Recon := do
  let symByte := srcByte s off
  require (symByte.toNat < Config.nsymMax) .formatError off
  let field := fieldOfBytes ((List.range 16).map fun j => srcByte s (off + 1 + j))
  require (field ≠ 0) .formatError (off + 1)
  require (codeLen field ≠ 0) .formatError (off + 1)
  require (codeAt r.code symByte.toNat = 0) .formatError off
  let (cur, nodes) ← walkEntry off (codeBits field) 0 r.nodes
  require (attachable (nodeAt nodes cur)) .formatError (off + 1)
  .ok { nodes := setNode nodes cur (mkLeaf (symByte.setWidth 7) 0), code := setCode r.code (symByte.setWidth 7) field }

/-- The loop over the `n` entries from entry `e` (R183): entry `e` is at offset `1 + 17*e`. -/
def readEntries (s : State) : Nat → Nat → Recon → Except Stop Recon
  | 0, _, r => .ok r
  | n + 1, e, r => do
    readEntries s n (e + 1) (← readEntry s (1 + Config.entryBytes * e) r)

/-- The RCN stage (R180). -/
def rcnStage (s : State) : Except Stop State := do
  checkSrc s
  require (2 ≤ s.srcLen.toNat) .formatError s.srcLen.toNat
  let count := (srcByte s 0).toNat
  require (count ≤ Config.nsymMax) .formatError 0
  require (Config.entryBytes * count + 2 ≤ s.srcLen.toNat) .formatError s.srcLen.toNat
  let r ← readEntries s count 0 { nodes := [childless], code := codeZero }
  .ok
    { s with
      nodes := r.nodes
      root := 0
      code := r.code
      nsym := BitVec.ofNat 8 count
      treeSrc := .recon
      codesValid := true }

/-- RCN, reconstruct tree (R180). -/
def execRcn (s : State) : Host.Outcome State Fault Refusal :=
  commandStep [(.rcn, rcnStage)] s

end Sys2Proof.Machine
end

