-- ==== Sys2Proof/Machine/Payload.lean ====
section
/-! DEFINITION. DCP, the bitstream decoder (spec/46_decode.md). -/

namespace Sys2Proof.Machine

/-- The walk over the bits of the payload byte at offset `i` (R204): a missing child is malformed (R206), a LEAF gives out its
symbol and sends the walk back to the root (R208). -/
def walkBits (i : Nat) : List Bool → NodeIdx → State → Except Stop (NodeIdx × State)
  | [], cur, s => .ok (cur, s)
  | bit :: bits, cur, s => do
    let c := childOf (nodeAt s.nodes cur) bit
    require (c ≠ Config.nil) .formatError i
    if (nodeAt s.nodes c).kind = .leaf then
      walkBits i bits s.root (← emit ((nodeAt s.nodes c).sym.setWidth 8) s)
    else walkBits i bits c s

/-- The bits used of the payload byte at offset `i`, when the payload ends before offset `p1` (R205): the last byte loses its
last `pad` bits. -/
def usedBits (s : State) (pad p1 i : Nat) : List Bool :=
  (byteBits (srcByte s i)).take (if i + 1 = p1 then 8 - pad else 8)

/-- The walk over the `n` payload bytes from offset `i` (R204). -/
def walkBytes (pad p1 : Nat) : Nat → Nat → NodeIdx → State → Except Stop (NodeIdx × State)
  | 0, _, cur, s => .ok (cur, s)
  | n + 1, i, cur, s => do
    let (cur, s) ← walkBits i (usedBits s pad p1 i) cur s
    walkBytes pad p1 n (i + 1) cur s

/-- The DCP stage (R200). -/
def dcpStage (s : State) : Except Stop State := do
  require (s.treeSrc = .recon) .sequenceError 7
  checkBoth s
  let s := { s with dstLen := 0 }
  let size := s.srcLen.toNat
  let p0 := 1 + Config.entryBytes * s.nsym.toNat
  require (Config.entryBytes * s.nsym.toNat + 2 ≤ size) .formatError size
  let pad := (srcByte s (size - 1)).toNat
  require (pad ≤ 7) .formatError (size - 1)
  let p1 := size - 1
  require (¬ (p0 = p1 ∧ pad ≠ 0)) .formatError (size - 1)
  let (cur, s) ← walkBytes pad p1 (p1 - p0) p0 s.root s
  require (cur = s.root) .formatError (size - 1)
  .ok s

/-- DCP, decode payload (R200). -/
def execDcp (s : State) : Host.Outcome State Fault Refusal :=
  commandStep [(.dcp, dcpStage)] s

end Sys2Proof.Machine
end

