-- ==== Sys2Proof/Machine/Serialize.lean ====
section
/-! DEFINITION. SER, the serializer (spec/44_serialize.md). -/

namespace Sys2Proof.Machine

/-- The frequency of the record of index number `i`. -/
def leafFreq (nodes : List Node) (i : Nat) : Nat :=
  (nodeAt nodes (BitVec.ofNat 15 i)).freq.toNat

/-- The order of the entries (R163): ascending by (frequency, index). -/
abbrev entryLe (nodes : List Node) (i j : Nat) : Prop :=
  leafFreq nodes i < leafFreq nodes j ∨ (leafFreq nodes i = leafFreq nodes j ∧ i ≤ j)

/-- The indices 0 to S - 1 in the order of the entries (R163). -/
def entryOrder (nodes : List Node) (count : Nat) : List Nat :=
  (List.range count).insertionSort (entryLe nodes)

/-- One entry (R164): the symbol byte, then the 16 bytes of its CODE. -/
def entryBytes (s : State) (i : Nat) : List Byte :=
  let sym := (nodeAt s.nodes (BitVec.ofNat 15 i)).sym
  sym.setWidth 8 :: fieldBytes (codeAt s.code sym.toNat)

/-- The count byte and the entries (R162 to R164). -/
def headerBytes (s : State) : List Byte :=
  s.nsym :: (entryOrder s.nodes s.nsym.toNat).flatMap (entryBytes s)

/-- The inner loop of step 3 (R166): while the bit buffer holds 8 bits or more, its first 8 go out as a byte. The first
argument bounds the rounds; the length of the buffer is enough. -/
def flush : Nat → List Bool → State → Except Stop (List Bool × State)
  | 0, acc, s => .ok (acc, s)
  | rounds + 1, acc, s =>
    if 8 ≤ acc.length then do
      flush rounds (acc.drop 8) (← emit (byteOfBits (acc.take 8)) s)
    else .ok (acc, s)

/-- Step 3 (R165, R166) over the `n` source bytes from offset `i`, with the bit buffer `acc`. -/
def payloadFrom : Nat → Nat → List Bool → State → Except Stop (List Bool × State)
  | 0, _, acc, s => .ok (acc, s)
  | n + 1, i, acc, s => do
    require ((srcByte s i).toNat < Config.nsymMax) .unsupportedSymbolError i
    require (codeAt s.code (srcByte s i).toNat ≠ 0) .noCodeError i
    let bits := acc ++ codeBits (codeAt s.code (srcByte s i).toNat)
    let (acc, s) ← flush bits.length bits s
    payloadFrom n (i + 1) acc s

/-- Steps 4 and 5 (R167): the last payload byte if bits are left over, then the pad count. -/
def tailBytes (acc : List Bool) : List Byte :=
  if 0 < acc.length then
    [byteOfBits (acc ++ List.replicate (8 - acc.length) false), BitVec.ofNat 8 (8 - acc.length)]
  else [0]

/-- The SER stage (R160). -/
def serStage (s : State) : Except Stop State := do
  require (s.treeSrc = .built ∧ s.codesValid = true) .sequenceError 5
  checkBoth s
  let s ← emitAll (headerBytes s) { s with dstLen := 0 }
  let (acc, s) ← payloadFrom s.srcLen.toNat 0 [] s
  emitAll (tailBytes acc) s

/-- SER, serialize (R160). -/
def execSer (s : State) : Host.Outcome State Fault Refusal :=
  commandStep [(.ser, serStage)] s

end Sys2Proof.Machine
end

