-- ==== Sys2Proof/Machine/Flags.lean ====
section
/-! DEFINITION. The flags as the host sees them: the STATUS and CTRL words (spec/10_state.md R25, R28) and the
interrupt line (spec/60_exceptions.md R224). -/

namespace Sys2Proof.Machine

/-- The number of STATUS.TREE_SRC (R25). -/
def TreeSrc.number : TreeSrc → BitVec 2
  | .none => 0
  | .built => 1
  | .recon => 2

/-- The number of a record's KIND (R41). -/
def Kind.number : Kind → BitVec 2
  | .free => 0
  | .leaf => 1
  | .internal => 2

/-- The STATUS word (R25): bits 31:24 zero, 23:16 OP, 15:12 zero, 11:8 STAGE, 7 zero, 6 CODES_VALID, 5:4 TREE_SRC, 3 zero,
2 ERR, 1 DONE, 0 BUSY. -/
def statusWord (s : State) : Word :=
  0#8 ++ s.op ++ 0#4 ++ s.stage.number ++ 0#1 ++ BitVec.ofBool s.codesValid ++ s.treeSrc.number ++ 0#1 ++
    BitVec.ofBool s.err ++ BitVec.ofBool s.done ++ BitVec.ofBool s.busy

/-- The CTRL word (R28): bit 0 IE_DONE, bit 1 IE_ERR. -/
def ctrlWord (s : State) : Word :=
  0#30 ++ BitVec.ofBool s.ieErr ++ BitVec.ofBool s.ieDone

/-- The interrupt output (R224). -/
def irq (s : State) : Bool :=
  (s.ieDone && s.done) || (s.ieErr && s.err)

end Sys2Proof.Machine
end

