-- ==== Sys2Proof/Machine/Session.lean ====
section
/-! DEFINITION. CLR (spec/40_session_control.md). -/

namespace Sys2Proof.Machine

/-- The CLR stage (R111). It cannot fault (R110). -/
def clrStage (s : State) : Except Stop State :=
  .ok (leaveFault (sessionClear s))

/-- CLR, clear session (R110). -/
def execClr (s : State) : Host.Outcome State Fault Refusal :=
  commandStep [(.clr, clrStage)] s

end Sys2Proof.Machine
end

