-- ==== Sys2Proof/Machine/Composite.lean ====
section
/-! DEFINITION. ENC, the whole encode (spec/44_serialize.md R170), and DEC, the whole decode (spec/46_decode.md R210). -/

namespace Sys2Proof.Machine

/-- ENC, whole encode (R170): the stages CLR, CNT, BLD, ASG, SER in list order, one a step (R27). -/
def execEnc (s : State) : Host.Outcome State Fault Refusal :=
  commandStep [(.clr, clrStage), (.cnt, cntStage), (.bld, bldStage), (.asg, asgStage), (.ser, serStage)] s

/-- DEC, whole decode (R210): the stages CLR, RCN, DCP in list order, one a step (R27). -/
def execDec (s : State) : Host.Outcome State Fault Refusal :=
  commandStep [(.clr, clrStage), (.rcn, rcnStage), (.dcp, dcpStage)] s

end Sys2Proof.Machine
end

