-- ==== Sys2Proof/Machine/Port.lean ====
section
/-! DEFINITION. The host's side: the register port (spec/10_state.md R20 to R35, R45), the host's memory accesses
(spec/20_memory.md R78), reset (spec/70_reset_and_hazards.md R250, R251), and which move of the script comes next
(spec/60_exceptions.md R243). -/

namespace Sys2Proof.Machine

/-! ### Register reads -/

/-- NODE_INFO of a record (R34): KIND in bits 1:0, SYM in bits 14:8. -/
def nodeInfoWord (r : Node) : Word :=
  0#17 ++ r.sym ++ 0#6 ++ r.kind.number

/-- Word `j` of a code field (R45): `CODE[s][127 - 32*j : 96 - 32*j]`. -/
def codeWord (field : CodeField) (j : Nat) : Word :=
  field.extractLsb' (96 - 32 * j) 32

/-- The value of register `n` (R21); an unmapped number and CMD read 0 (R22). -/
def regValue (s : State) (n : Nat) : Word :=
  if n = 0x001 then statusWord s
  else if n = 0x002 then ctrlWord s
  else if n = 0x003 then s.errCode.setWidth 32
  else if n = 0x004 then s.errInfo
  else if n = 0x005 then s.srcBase
  else if n = 0x006 then s.srcLen
  else if n = 0x007 then s.dstBase
  else if n = 0x008 then s.dstCap
  else if n = 0x009 then s.dstLen
  else if n = 0x00A then s.nsym.setWidth 32
  else if n = 0x00B then s.root.setWidth 32
  else if n = 0x00C then BitVec.ofNat 32 (nnode s)
  else if n = 0x00D then s.nodeSel.setWidth 32
  else if n = 0x00E then nodeInfoWord (nodeAt s.nodes s.nodeSel)
  else if n = 0x00F then (nodeAt s.nodes s.nodeSel).left.setWidth 32
  else if n = 0x010 then (nodeAt s.nodes s.nodeSel).right.setWidth 32
  else if n = 0x011 then (nodeAt s.nodes s.nodeSel).freq
  else if 0x080 ≤ n ∧ n < 0x100 then freqAt s.freq (n - 0x080)
  else if 0x200 ≤ n ∧ n < 0x400 then codeWord (codeAt s.code ((n - 0x200) / 4)) ((n - 0x200) % 4)
  else 0

/-- The host has seen BUSY = 0: the windows of every command so far are its own again (R73 c, R258, U3). -/
def seenIdle (s : State) : State :=
  { s with inFlight := [] }

/-- `RegRead(n)` with what it returns (R20, R22, R23): while BUSY = 1 a register other than STATUS and CTRL reads as an
unspecified value (U2). A read of STATUS that shows BUSY = 0 is how the host learns that a command is over (R73 c). -/
def hostRegRead (n : Nat) (s : State) : State :=
  if s.busy = true ∧ n ≠ 0x001 ∧ n ≠ 0x002 then
    { s with replies := .reg (Config.unspecifiedWord s.freeCount) :: s.replies, freeCount := s.freeCount + 1 }
  else
    let s' := { s with replies := .reg (regValue s n) :: s.replies }
    if s.busy = false ∧ n = 0x001 then seenIdle s' else s'

/-! ### Register writes -/

/-- `RegWrite(0x000, w)` with BUSY = 0 (R26): while ERR = 1 only the CLR word does anything; an illegal word faults; a legal
word is accepted. -/
def cmdWrite (w : Word) (s : State) : State :=
  if s.err = true ∧ w ≠ encode .clr then s
  else
    match decode w with
    | .ok i => accept i s
    | .error _ => faultEntry .illegalCommandError w s

/-- `RegWrite(n, v)` (R20 to R23): dropped while BUSY = 1; a write to an unmapped number, a read-only register or a
read-only bit changes nothing. -/
def hostRegWrite (n : Nat) (v : Word) (s : State) : State :=
  if s.busy = true then s
  else if n = 0x000 then cmdWrite v s
  else if n = 0x001 then if v.getLsbD 1 = true then { s with done := false } else s
  else if n = 0x002 then { s with ieDone := v.getLsbD 0, ieErr := v.getLsbD 1 }
  else if n = 0x005 then { s with srcBase := v }
  else if n = 0x006 then { s with srcLen := v }
  else if n = 0x007 then { s with dstBase := v }
  else if n = 0x008 then { s with dstCap := v }
  else if n = 0x00D then { s with nodeSel := v.setWidth 15 }
  else if 0x080 ≤ n ∧ n < 0x100 then { s with freq := s.freq.setIfInBounds (n - 0x080) v }
  else s

/-! ### Memory accesses of the host, reset -/

/-- Address `a` lies in the window of `len` bytes from `base`. -/
abbrev inWindow (base len : Word) (a : Nat) : Prop :=
  base.toNat ≤ a ∧ a < base.toNat + len.toNat

/-- Address `a` lies in the destination window of a command in flight: one whose end the host has not seen (R78, R258, U3). -/
abbrev inFlightDst (s : State) (a : Nat) : Prop :=
  ∃ w ∈ s.inFlight, inWindow w.dstBase w.dstCap a

/-- Address `a` lies in the source window of a command in flight (R78, R258, U3). -/
abbrev inFlightSrc (s : State) (a : Nat) : Prop :=
  ∃ w ∈ s.inFlight, inWindow w.srcBase w.srcLen a

/-- The host reads a byte of memory (R78): a byte of the destination window of a command in flight is a race. -/
def hostMemRead (a : Word) (s : State) : Host.Outcome State Fault Refusal :=
  if inFlightDst s a.toNat then .refused .hostWindowRace
  else .next { s with replies := .mem (memRead s.mem a.toNat) :: s.replies }

/-- The host writes a byte of memory (R78): a byte of either window of a command in flight is a race. -/
def hostMemWrite (a : Word) (v : Byte) (s : State) : Host.Outcome State Fault Refusal :=
  if inFlightSrc s a.toNat ∨ inFlightDst s a.toNat then .refused .hostWindowRace
  else .next { s with mem := memWrite s.mem a.toNat v }

/-- Whether a reset leaves the destination window unspecified (R251): the command it abandons is at SER or DCP. Both are
the last stage of every list they stand in, so no stage comes after them. -/
def resetSpoils (s : State) : Bool :=
  s.busy && (s.stage == .ser || s.stage == .dcp)

/-- Reset (R250, R251): every register at its reset value; memory kept, but for a destination window left unspecified.
The model's own script, replies and count of free values go on. -/
def resetMachine (s : State) : State :=
  let kept := if resetSpoils s then spoilDst s else s
  { State.reset with mem := kept.mem, script := s.script, replies := s.replies, freeCount := kept.freeCount }

/-! ### The host script (R87) and whose move it is (R243) -/

/-- `cmd MNEMONIC`: write the command word to CMD (R87). -/
def cmd (i : Instr) : Event := .regWrite 0x000 (encode i)

/-- `ack`: clear DONE (R87). -/
def ackDone : Event := .regWrite 0x001 0x00000002

/-- `mem addr: b0 b1 ...`: the host writes the bytes from `addr` upward (R87). Of a line whose bytes run past address 0xFFFFFFFF
the spec says nothing: here such bytes go on at address 0. DESIGN CHOICE, unsafe: log entry 18. -/
def memBytes (addr : Nat) (bytes : List Byte) : List Event :=
  bytes.zipIdx.map fun (b, k) => .memWrite (BitVec.ofNat 32 (addr + k)) b

/-- Whose move it is: HTB's stage step at a state, or a host operation that has come out as it has. -/
inductive Move where
  | stage (s : State)
  | host (o : Host.Outcome State Fault Refusal)

/-- The next move. A script that is used up leaves HTB to run while BUSY = 1 (fairness, R243); HTB with BUSY = 0 is idle and
keeps all its state (R245). `wait` and `waitIrq` let HTB run until the host sees what it waits for (R87, R224). -/
def nextMove (s : State) : Move :=
  match s.script with
  | [] => if s.busy = true then .stage s else .host (.next s)
  | e :: rest =>
    if e.wf = false then .host (.refused .noSuchRegister)
    else
      let s' := { s with script := rest }
      match e with
      | .turn => if s.busy = true then .stage s' else .host (.next s')
      | .wait => if s.busy = true then .stage s else .host (.next (hostRegRead 0x001 s'))
      | .waitIrq =>
        if irq s = true then .host (.next s') else if s.busy = true then .stage s else .host (.next s)
      | .regRead n => .host (.next (hostRegRead n s'))
      | .regWrite n v => .host (.next (hostRegWrite n v s'))
      | .memRead a => .host (hostMemRead a s')
      | .memWrite a v => .host (hostMemWrite a v s')
      | .reset => .host (.next (resetMachine s'))

end Sys2Proof.Machine
end

