-- ==== Sys2Proof/Machine/Dispatch.lean ====
section
/-! DEFINITION. One arm per command (spec/30_encoding.md R82): what one step of HTB does with it (R27). -/

namespace Sys2Proof.Machine

-- One stage step of the command: the stage named by STAGE, then the sequencer (R27) or fault entry (R230).
def exec (i : Instr) (s : State) : Host.Outcome State Fault Refusal :=
  match i with
  | .clr => Sys2Proof.Machine.execClr s
  | .cnt => Sys2Proof.Machine.execCnt s
  | .bld => Sys2Proof.Machine.execBld s
  | .asg => Sys2Proof.Machine.execAsg s
  | .ser => Sys2Proof.Machine.execSer s
  | .rcn => Sys2Proof.Machine.execRcn s
  | .dcp => Sys2Proof.Machine.execDcp s
  | .enc => Sys2Proof.Machine.execEnc s
  | .dec => Sys2Proof.Machine.execDec s

end Sys2Proof.Machine
end

