-- ==== Sys2Proof/Machine/Step.lean ====
section
/-! DEFINITION. One step of the machine: one host operation, or one stage step of HTB (spec/60_exceptions.md R243;
spec/10_state.md R27). -/

namespace Sys2Proof.Machine

/-- One step. HTB's stage step runs the command in OP (R27); a host operation is done by `nextMove`. -/
def step (s : State) : Host.Outcome State Fault Refusal :=
  match nextMove s with
  | .host o => o
  | .stage s' =>
    match fetchCommand s' with
    | some i => exec i s'
    | none => .fault .opNotACommand

/-- `s` as the host's write of a command word to CMD leaves it (R26), with HTB's turn next: the very next step runs the first
stage of the command. A word that is no command is left to the host's write, which the next step makes (R84). Log entry 6. -/
def State.withFetchWord (s : State) (nbits w : Nat) : State :=
  match decodeTableWord nbits w with
  | some i => { accept i s with script := .turn :: s.script }
  | none => { s with busy := false, script := .regWrite 0x000 (BitVec.ofNat 32 (w % 2 ^ nbits)) :: s.script }

end Sys2Proof.Machine
end

