-- ==== Sys2Proof/Safety.lean ====
section
/-! DEFINITION. The terms claims are made in: the end of a run (spec/70_reset_and_hazards.md R263), the invariants of the
machine, the tree seen as a tree (spec/00_scope.md section 8), and the compressed file as a list of bytes
(spec/30_encoding.md R90 to R96). -/

namespace Sys2Proof.Machine

/-! ### The end of a run -/

/-- The host has issued its last operation and BUSY = 0 (R263). -/
def runOver (s : State) : Prop := s.script = [] ∧ s.busy = false

/-- A run that is over and ended well (R263). -/
def endedWell (s : State) : Prop := runOver s ∧ s.err = false

/-- HTB is about to execute stage `st` of a command (R27). -/
def atStage (st : Stage) (s : State) : Prop := s.busy = true ∧ s.stage = st

/-- `n` steps of the machine, stopping at the first that gives no next state. -/
def runSteps : Nat → State → Host.Outcome State Fault Refusal
  | 0, s => .next s
  | n + 1, s =>
    match step s with
    | .next t => runSteps n t
    | o => o

/-- `t` is reached from `s` by steps of the machine. -/
def runsTo (s t : State) : Prop := ∃ n, runSteps n s = .next t

/-- The sequencer after the last stage of a command (R27). -/
def finished (s : State) : State := { s with stage := .idle, busy := false, done := true }

/-- The sequencer after a stage that `st` follows (R27). -/
def movedOn (st : Stage) (s : State) : State := { s with stage := st }

/-- The windows of a stage that writes are legal and disjoint (R64). -/
abbrev windowsLegal (s : State) : Prop := srcInRange s ∧ dstInRange s ∧ ¬ windowsOverlap s

/-- The faults that the rules of a stage name (R221). -/
def faultsOf : Stage → List ErrName
  | .idle | .clr => []
  | .cnt => [.windowError, .unsupportedSymbolError]
  | .bld => [.freqOverflowError]
  | .asg => [.sequenceError]
  | .ser => [.sequenceError, .windowError, .dstOverflowError, .unsupportedSymbolError, .noCodeError]
  | .rcn => [.windowError, .formatError]
  | .dcp => [.sequenceError, .windowError, .formatError, .dstOverflowError]

/-- One step of `i` takes the fault `e` with the value `info`: fault entry in the registers (R230), and no byte outside the
destination window has changed (R231). -/
def faultsTo (i : Instr) (s : State) (e : ErrName) (info : Nat) : Prop :=
  ∃ m n, exec i s = .next { faultEntry e (BitVec.ofNat 32 info) s with mem := m, freeCount := n } ∧
    ∀ x, ¬ (s.dstBase.toNat ≤ x ∧ x < s.dstBase.toNat + s.dstCap.toNat) → memRead m x = memRead s.mem x

/-- The host's read of register `n` returns `v` and changes nothing but the model's own record of the host (R20): a read of
STATUS that shows BUSY = 0 gives the windows in flight back to the host, any other read leaves them (R73 c, U3; log entry 4). -/
def readsAs (s : State) (n : Nat) (v : Word) : Prop :=
  ∀ rest, s.script = .regRead n :: rest →
    step s = .next
      { s with
        script := rest, replies := .reg v :: s.replies
        inFlight := if n = 0x001 ∧ s.busy = false then [] else s.inFlight }

/-- The host's write of `v` to register `n` leaves the state `t rest`, `rest` being what is left of the script. -/
def writesAs (s : State) (n : Nat) (v : Word) (t : List Event → State) : Prop :=
  ∀ rest, s.script = .regWrite n v :: rest → step s = .next (t rest)

/-- How many bytes from DST_BASE upward a step of HTB from `s` to `t` has given a value (R67, R79, R231): none in a stage other
than SER and DCP, DST_LEN bytes when SER or DCP has completed; after a fault of SER or DCP the whole window, whose bytes are then
unspecified, unless the fault is WindowError (3) or SequenceError (5). -/
def bytesGiven (s t : State) : Nat :=
  if s.stage ≠ .ser ∧ s.stage ≠ .dcp then 0
  else if t.busy = true ∨ t.done = true then t.dstLen.toNat
  else if t.errCode = 3 ∨ t.errCode = 5 then 0
  else s.dstCap.toNat

/-- Every register has its reset value (R51). -/
structure RegistersReset (s : State) : Prop where
  status : s.busy = false ∧ s.done = false ∧ s.err = false ∧ s.treeSrc = .none ∧ s.codesValid = false ∧ s.stage = .idle ∧ s.op = 0
  ctrl : s.ieDone = false ∧ s.ieErr = false
  fault : s.errCode = 0 ∧ s.errInfo = 0
  windows : s.srcBase = 0 ∧ s.srcLen = 0 ∧ s.dstBase = 0 ∧ s.dstCap = 0
  dstLen : s.dstLen = 0
  nsym : s.nsym = 0
  root : s.root = 0x7FFF
  nnode : nnode s = 0
  nodeSel : s.nodeSel = 0
  nodes : ∀ i, nodeAt s.nodes i = Node.freeRecord
  freq : ∀ k < 128, freqAt s.freq k = 0
  code : ∀ k < 128, codeAt s.code k = 0
  irq : irq s = false

/-! ### Frequencies -/

/-- How many of the `n` source bytes from offset `i` equal `k`. -/
def occurrences (s : State) (k i n : Nat) : Nat :=
  (List.range n).countP fun j => (srcByte s (i + j)).toNat = k

/-- Every source byte is a symbol (R122). -/
abbrev allSymbols (s : State) : Prop := ∀ i < s.srcLen.toNat, (srcByte s i).toNat < 128

/-- The symbols below `m` with a nonzero FREQ, in ascending order (R132). -/
def presentSyms (f : Vector Word 128) (m : Nat) : List Nat :=
  (List.range m).filter fun k => freqAt f k ≠ 0

/-- S, the number of symbols with a nonzero FREQ (R132). -/
def symCount (f : Vector Word 128) : Nat := (presentSyms f 128).length

/-! ### The tree -/

/-- The node that the bits of a path lead to (R185, R204), if every child on the way is present. -/
def follow (nodes : List Node) : List Bool → NodeIdx → Option NodeIdx
  | [], n => some n
  | bit :: path, n =>
    if childOf (nodeAt nodes n) bit = Config.nil then none else follow nodes path (childOf (nodeAt nodes n) bit)

/-- The LEAF of symbol number `k` hangs at `path` below `root`. -/
def leafAt (nodes : List Node) (root : NodeIdx) (path : List Bool) (k : Nat) : Prop :=
  ∃ n, follow nodes path root = some n ∧ (nodeAt nodes n).kind = .leaf ∧ (nodeAt nodes n).sym.toNat = k

/-- The record of index number `i`. -/
def nodeNo (nodes : List Node) (i : Nat) : Node := nodeAt nodes (BitVec.ofNat 15 i)

/-- The key by which the priority structure orders a node of a built tree of two symbols or more (R133): its frequency, then
its index, which is its sequence number. -/
def keyLt (nodes : List Node) (i j : Nat) : Prop :=
  (nodeNo nodes i).freq.toNat < (nodeNo nodes j).freq.toNat ∨
    ((nodeNo nodes i).freq.toNat = (nodeNo nodes j).freq.toNat ∧ i < j)

/-- Node `i` is a child of the record of index number `n`. -/
def childIs (nodes : List Node) (n i : Nat) : Prop :=
  (nodeNo nodes n).left.toNat = i ∨ (nodeNo nodes n).right.toNat = i

/-- Internal node `j` was made from the two least of the nodes that had no parent before it (R133, R134), the least one on
the LEFT. -/
def GreedyAt (nodes : List Node) (count j : Nat) : Prop :=
  ∃ l r f, nodeNo nodes j = mkInternal l r f ∧ l.toNat < j ∧ r.toNat < j ∧
    f.toNat = (nodeAt nodes l).freq.toNat + (nodeAt nodes r).freq.toNat ∧
    keyLt nodes l.toNat r.toNat ∧
    (∀ k, count ≤ k → k < j → ¬ childIs nodes k l.toNat ∧ ¬ childIs nodes k r.toNat) ∧
    ∀ m < j, m ≠ l.toNat → m ≠ r.toNat → (∀ k, count ≤ k → k < j → ¬ childIs nodes k m) → keyLt nodes r.toNat m

/-- The tree is owned top-down (R40): a child index names an allocated record, no record is a child twice, and every
allocated record other than the root is the child of a record. -/
structure Owned (nodes : List Node) (root : NodeIdx) : Prop where
  child_allocated : ∀ i < nodes.length, ∀ bit, childOf (nodeNo nodes i) bit ≠ Config.nil →
    (childOf (nodeNo nodes i) bit).toNat < nodes.length
  one_parent : ∀ i < nodes.length, ∀ j < nodes.length, ∀ bit bit', childOf (nodeNo nodes i) bit ≠ Config.nil →
    childOf (nodeNo nodes i) bit = childOf (nodeNo nodes j) bit' → i = j ∧ bit = bit'
  has_parent : ∀ i < nodes.length, i ≠ root.toNat → ∃ j < nodes.length, ∃ bit,
    childOf (nodeNo nodes j) bit = BitVec.ofNat 15 i

/-- The shape of a built tree with `count` symbols (R43). -/
structure BuiltShape (nodes : List Node) (root : NodeIdx) (count : Nat) : Prop where
  owned : Owned nodes root
  count_le : count ≤ 128
  empty : count = 0 → nodes = [] ∧ root = Config.nil
  single : count = 1 → ∃ sym f, nodes = [mkLeaf sym f, mkInternal 0 Config.nil f] ∧ root = 1
  length : 2 ≤ count → nodes.length = 2 * count - 1
  root_last : 2 ≤ count → root.toNat = 2 * count - 2
  leaf : ∀ i < count, ∃ sym f, nodeNo nodes i = mkLeaf sym f
  ascending : ∀ i j, i < j → j < count → (nodeNo nodes i).sym.toNat < (nodeNo nodes j).sym.toNat
  internal : 2 ≤ count → ∀ i, count ≤ i → i < 2 * count - 1 → ∃ l r f, nodeNo nodes i = mkInternal l r f ∧
    l.toNat < i ∧ r.toNat < i

/-- The shape of a reconstructed tree with `count` symbols (R44). -/
structure ReconShape (nodes : List Node) (root : NodeIdx) (count : Nat) : Prop where
  owned : Owned nodes root
  root_zero : root = 0
  root_internal : (nodeNo nodes 0).kind = .internal
  length_pos : 1 ≤ nodes.length
  length_le : nodes.length ≤ Config.nodeCap
  record : ∀ n ∈ nodes, (∃ sym, n = mkLeaf sym 0) ∨ ∃ l r, n = mkInternal l r 0
  leaf_count : nodes.countP (fun n => n.kind = .leaf) = count
  leaf_sym : (nodes.filter (fun n => n.kind = .leaf)).Pairwise (fun m n => m.sym ≠ n.sym)
  has_child : ∀ i, 0 < i → i < nodes.length → (nodeNo nodes i).kind = .internal →
    (nodeNo nodes i).left ≠ Config.nil ∨ (nodeNo nodes i).right ≠ Config.nil
  child_larger : ∀ i < nodes.length, ∀ bit, childOf (nodeNo nodes i) bit ≠ Config.nil →
    i < (childOf (nodeNo nodes i) bit).toNat ∧ (childOf (nodeNo nodes i) bit).toNat < nodes.length

/-- What the CODE table of a tree holds (R152, R155, R157): the field of the path to each leaf, and 0 for every other symbol. -/
structure CodesOfTree (nodes : List Node) (root : NodeIdx) (t : Vector CodeField 128) : Prop where
  code_of_leaf : ∀ p k, leafAt nodes root p k → codeAt t k = fieldOf p
  no_leaf : ∀ k, (∀ p, ¬ leafAt nodes root p k) → codeAt t k = 0

/-! ### Invariants -/

/-- The sequencer takes only the values the spec gives it (R27). -/
def SequencerLegal (s : State) : Prop :=
  (s.op = 0 ∨ ∃ i : Instr, s.op = i.opcode) ∧
    (s.busy = true → ∃ i : Instr, s.op = i.opcode ∧ s.stage ∈ i.stages) ∧
    (s.busy = false → s.stage = .idle)

/-- ERR, ERRCODE and ERRINFO agree (R29); a command is over, ended in success and ended in a fault exclude each other
as R220 and R230 say; while ERR = 1 only CLR runs (R232) and the session state but for FREQ is clear (R230). -/
def FaultStateLegal (s : State) : Prop :=
  (s.err = false → s.errCode = 0 ∧ s.errInfo = 0) ∧
    (s.err = true → ∃ e : ErrName, s.errCode = e.code) ∧
    (s.done = true → s.busy = false ∧ s.err = false) ∧
    (s.err = true → s.busy = true → s.op = Instr.clr.opcode) ∧
    (s.err = true → s.treeSrc = .none ∧ s.codesValid = false ∧ s.dstLen = 0)

/-- The tree, the codes and NSYM are what TREE_SRC and CODES_VALID say they are (R43, R44, R45, R46, R47, R188). -/
def TreeLegal (s : State) : Prop :=
  match s.treeSrc with
  | .none => s.nodes = [] ∧ s.root = Config.nil ∧ s.nsym = 0 ∧ s.code = codeZero ∧ s.codesValid = false
  | .built =>
    BuiltShape s.nodes s.root s.nsym.toNat ∧ (s.codesValid = false → s.code = codeZero) ∧
      (s.codesValid = true → treeCodes s.nodes s.root = .ok s.code)
  | .recon => ReconShape s.nodes s.root s.nsym.toNat ∧ s.codesValid = true ∧ CodesOfTree s.nodes s.root s.code

/-- While a command runs, its windows are the newest in flight and are the window registers (R23, R85, U3). -/
def InFlightLegal (s : State) : Prop := s.busy = true → s.inFlight.head? = some (windowsOf s)

/-- Everything that holds at reset and is kept by every step. -/
structure Legal (s : State) : Prop where
  memory : Memory.wf s.mem
  sequencer : SequencerLegal s
  faultState : FaultStateLegal s
  tree : TreeLegal s
  inFlight : InFlightLegal s

/-! ### The compressed file -/

/-- The source byte at offset `i` is a symbol that has a code (R165). -/
abbrev encodable (s : State) (i : Nat) : Prop :=
  (srcByte s i).toNat < 128 ∧ codeAt s.code (srcByte s i).toNat ≠ 0

/-- Byte `m` of the payload (R95): the bits `B[8m] .. B[8m+7]`, zeros where there are no more. -/
def payloadByte (bits : List Bool) (m : Nat) : Byte :=
  byteOfBits ((List.range 8).map fun j => bits.getD (8 * m + j) false)

/-- The payload (R95): `ceil(T/8)` bytes. -/
def packBits (bits : List Bool) : List Byte :=
  (List.range ((bits.length + 7) / 8)).map (payloadByte bits)

/-- The pad count of a payload of `t` bits (R96). -/
def padCount (t : Nat) : Nat := (8 - t % 8) % 8

/-- The code bits of the `n` source bytes from offset `i` (R95). -/
def bitsFrom (s : State) (i n : Nat) : List Bool :=
  (List.range n).flatMap fun k => codeBits (codeAt s.code (srcByte s (i + k)).toNat)

/-- The payload bit string (R95): the codes of the source bytes, in order. -/
def sourceBits (s : State) : List Bool :=
  (List.range s.srcLen.toNat).flatMap fun i => codeBits (codeAt s.code (srcByte s i).toNat)

/-- The compressed file of the source window under the tree and codes of `s` (R90). -/
def compressedFile (s : State) : List Byte :=
  headerBytes s ++ packBits (sourceBits s) ++ [BitVec.ofNat 8 (padCount (sourceBits s).length)]

/-- The count byte of the file in the source window (R91). -/
def fileCount (s : State) : Nat := (srcByte s 0).toNat

/-- The offset of entry `e` (R90). -/
def entryOff (e : Nat) : Nat := 1 + 17 * e

/-- The symbol byte of entry `e` of the file in the source window (R94). -/
def entrySym (s : State) (e : Nat) : Nat := (srcByte s (entryOff e)).toNat

/-- The code field of entry `e` of the file in the source window (R93, R94). -/
def entryField (s : State) (e : Nat) : CodeField :=
  fieldOfBytes ((List.range 16).map fun j => srcByte s (entryOff e + 1 + j))

/-- The code of entry `e` (R93). -/
def entryCode (s : State) (e : Nat) : List Bool := codeBits (entryField s e)

/-- The file is long enough for its own count byte (R181). -/
abbrev headerFits (s : State) : Prop :=
  srcInRange s ∧ 2 ≤ s.srcLen.toNat ∧ fileCount s ≤ 128 ∧ 17 * fileCount s + 2 ≤ s.srcLen.toNat

/-- The symbol of entry `e` is in the alphabet and its field holds a code that is not empty (R184 a to c). -/
abbrev entryReadable (s : State) (e : Nat) : Prop :=
  entrySym s e < 128 ∧ entryField s e ≠ 0 ∧ codeLen (entryField s e) ≠ 0

/-- No code is a prefix of the other (R98 b, R187). -/
abbrev prefixFree (c d : List Bool) : Prop := ¬ c <+: d ∧ ¬ d <+: c

/-- Entry `e` has another symbol and a code that is prefix-free with the code of each entry before it (R184 d, R187). -/
abbrev entryNew (s : State) (e : Nat) : Prop :=
  ∀ e' < e, entrySym s e' ≠ entrySym s e ∧ prefixFree (entryCode s e') (entryCode s e)

/-- The first `n` entries pass every test of RCN (R184, R187). -/
abbrev entriesGood (s : State) (n : Nat) : Prop := ∀ e < n, entryReadable s e ∧ entryNew s e

/-- The pad count of the file in the source window (R203). -/
def filePad (s : State) : Nat := (srcByte s (s.srcLen.toNat - 1)).toNat

/-- The offset of the payload, for the S that NSYM holds (R203). -/
def payloadOff (s : State) : Nat := 1 + 17 * s.nsym.toNat

/-- The file passes the tests of DCP on its length and its pad count (R203). -/
abbrev payloadFits (s : State) : Prop :=
  17 * s.nsym.toNat + 2 ≤ s.srcLen.toNat ∧ filePad s ≤ 7 ∧
    ¬ (payloadOff s = s.srcLen.toNat - 1 ∧ filePad s ≠ 0)

/-- The bits that DCP walks (R204, R205): the payload without the last `filePad` bits. -/
def walkedBits (s : State) : List Bool :=
  (List.range (s.srcLen.toNat - 1 - payloadOff s)).flatMap fun m =>
    usedBits s (filePad s) (s.srcLen.toNat - 1) (payloadOff s + m)

/-- `bits` is the codes of the symbols `out`, in order (R95), read off the tree. -/
def codesOf (nodes : List Node) (root : NodeIdx) (bits : List Bool) (out : List Byte) : Prop :=
  ∃ paths : List (List Bool), bits = paths.flatten ∧
    List.Forall₂ (fun path b => leafAt nodes root path (BitVec.toNat b)) paths out

/-- Memory holds the bytes `bs` from address `a` upward. -/
def memHolds (m : Memory) (a : Nat) (bs : List Byte) : Prop :=
  ∀ k (h : k < bs.length), memRead m (a + k) = bs[k]

/-- Two memories agree on every address outside the `n` bytes from `a`. -/
def memSameOutside (m m' : Memory) (a n : Nat) : Prop :=
  ∀ x, ¬ (a ≤ x ∧ x < a + n) → memRead m' x = memRead m x

end Sys2Proof.Machine
end

