-- ==== Sys2Proof/Certificates/Slice0/Obligations.lean ====
section
/-! DEFINITION. The statements about HTB, from the numbered rules of spec/. Each docstring names the rule it formalises; a
clause that rests on a choice of the model names its log entry. -/

section Obligations0

open Sys2Proof Sys2Proof.Machine

/-! ### Command words -/

/-- R82: the nine legal words and the command each stands for, no other word being one; and each command's word, as the
encoder writes it, reads back as the command. -/
def Obligations.DecodeAcceptsExactlyNineWords : Prop :=
  (∀ (w : Word) (i : Instr), decode w = .ok i ↔
    (w, i) ∈ [(0x00000001#32, Instr.clr), (0x00000002#32, .cnt), (0x00000003#32, .bld), (0x00000004#32, .asg),
      (0x00000005#32, .ser), (0x00000006#32, .rcn), (0x00000007#32, .dcp), (0x00000010#32, .enc), (0x00000011#32, .dec)]) ∧
  ∀ i : Instr, i.wf = true → decode (encode i) = .ok i

/-- R84: the words that are illegal, and what writing one to CMD does while BUSY = 0 and ERR = 0. -/
def Obligations.IllegalWordsRaiseIllegalCommandError : Prop :=
  (∀ w : Word, (∀ i, decode w ≠ .ok i) ↔
    (w.extractLsb' 8 24 ≠ 0 ∨ w.extractLsb' 0 8 = 0x00 ∨ (0x08 ≤ (w.extractLsb' 0 8).toNat ∧ (w.extractLsb' 0 8).toNat ≤ 0x0F) ∨
      0x12 ≤ (w.extractLsb' 0 8).toNat)) ∧
  ∀ (w : Word) (s : State), (∀ i, decode w ≠ .ok i) → s.busy = false → s.err = false →
    writesAs s 0x000 w fun rest => faultEntry .illegalCommandError w { s with script := rest }

/-- R82, R84: five words, bit by bit. -/
def Obligations.SampleWordsDecode : Prop :=
  decode 0b00000000000000000000000000000001#32 = .ok .clr ∧
  decode 0b00000000000000000000000000000101#32 = .ok .ser ∧
  decode 0b00000000000000000000000000010001#32 = .ok .dec ∧
  decode 0b00000000000000000000000000000000#32 = .error .noSuchOpcode ∧
  decode 0b00000000000000000000000100000001#32 = .error .zeroFieldNotZero

/-! ### Steps -/

/-- R27: with BUSY = 1, a step that is HTB's runs the command in OP. Whose step it is: the model's schedule (log entry 5). -/
def Obligations.StepRunsTheCommandInOp : Prop :=
  ∀ (s : State) (i : Instr), s.busy = true → decode (s.op.setWidth 32) = .ok i →
    (s.script = [] → step s = exec i s) ∧
    (∀ rest, s.script = .turn :: rest → step s = exec i { s with script := rest }) ∧
    (∀ rest, s.script = .wait :: rest → step s = exec i s) ∧
    (∀ rest, s.script = .waitIrq :: rest → irq s = false → step s = exec i s)

/-- R245: between commands HTB keeps all its state. -/
def Obligations.IdleKeepsState : Prop :=
  ∀ s : State, s.busy = false → s.script = [] → step s = .next s

/-- R27: after a stage that raised no fault comes the following stage of the command's list, or the end of the command; a step
with BUSY = 0 has no meaning (the model stops there: log entry 8). -/
def Obligations.SequencerFollowsTheStageList : Prop :=
  ∀ (i : Instr) (s : State),
    (∀ t, exec i s = .next t → s.err = false → t.err = false →
      ∃ before rest, i.stages = before ++ s.stage :: rest ∧
        match rest with
        | st :: _ => t.stage = st ∧ t.busy = true ∧ t.done = s.done
        | [] => t.stage = .idle ∧ t.busy = false ∧ t.done = true) ∧
    (s.busy = false → exec i s = .fault .stepWhileIdle)

/-! ### Reset -/

/-- R51, R250, R251: reset puts every register at its reset value; it writes no memory, but for the destination window of a
command that it takes out of its SER or DCP stage. -/
def Obligations.ResetRestoresEveryRegister : Prop :=
  RegistersReset State.reset ∧
  ∀ (s : State) (rest : List Event), s.script = .reset :: rest →
    ∃ t, step s = .next t ∧ RegistersReset t ∧ t.script = rest ∧
      (¬ (s.busy = true ∧ (s.stage = .ser ∨ s.stage = .dcp)) → t.mem = s.mem) ∧
      memSameOutside s.mem t.mem s.dstBase.toNat s.dstCap.toNat

/-! ### Invariants -/

/-- The invariant holds at reset (with the model's empty memory, log entry 1). -/
def Obligations.LegalAtReset : Prop := Legal State.reset

/-- Every step keeps memory in its canonical form (R60; the form is the model's, log entry 1). -/
def Obligations.StepKeepsMemoryCanonical : Prop :=
  ∀ s t : State, Memory.wf s.mem → step s = .next t → Memory.wf t.mem

/-- R27: every step keeps OP 0 or an opcode, STAGE a stage of the command in OP while BUSY = 1, and IDLE while BUSY = 0. -/
def Obligations.StepKeepsSequencerLegal : Prop :=
  ∀ s t : State, SequencerLegal s → step s = .next t → SequencerLegal t

/-- R29, R220, R230, R232: every step keeps ERR, ERRCODE, ERRINFO, DONE and the cleared session in agreement. -/
def Obligations.StepKeepsFaultStateLegal : Prop :=
  ∀ s t : State, FaultStateLegal s → step s = .next t → FaultStateLegal t

/-- R43, R44, R45, R46, R47, R188: every step keeps the tree and the codes as TREE_SRC and CODES_VALID say they are. -/
def Obligations.StepKeepsTreeLegal : Prop :=
  ∀ s t : State, TreeLegal s → step s = .next t → TreeLegal t

/-- R85: every step keeps the window registers of a running command as they were at the CMD write (the record of them, the newest
in flight, is the model's, log entry 4). -/
def Obligations.StepKeepsWindowsOfRunningCommand : Prop :=
  ∀ s t : State, InFlightLegal s → step s = .next t → InFlightLegal t

/-- No step from a legal state stops the model with a fault, and it refuses only a race (R78) or a register number that does
not exist (R20). -/
def Obligations.LegalStatesNeverGetStuck : Prop :=
  ∀ s : State, Legal s →
    (∃ t, step s = .next t) ∨
      (step s = .refused .hostWindowRace ∧
        ∃ a rest, s.script = .memRead a :: rest ∨ ∃ v, s.script = .memWrite a v :: rest) ∨
      (step s = .refused .noSuchRegister ∧
        ∃ n rest, 0x400 ≤ n ∧ (s.script = .regRead n :: rest ∨ ∃ v, s.script = .regWrite n v :: rest))

/-- R220, R265: a command ends within as many stage steps as its list has stages, in success or in a fault. -/
def Obligations.CommandEndsWithinItsStages : Prop :=
  ∀ (s : State) (i : Instr), Legal s → s.busy = true → s.err = false → s.op = i.opcode → s.script = [] →
    ∃ n t, n ≤ i.stages.length ∧ runSteps n s = .next t ∧ t.busy = false ∧
      ((t.done = true ∧ t.err = false) ∨ (t.done = false ∧ t.err = true))

/-! ### CLR, CNT, BLD, ASG -/

/-- R111: all that CLR does. -/
def Obligations.ClrClearsSessionAndFault : Prop :=
  ∀ s : State, atStage .clr s →
    exec .clr s = .next
      { s with
        freq := Vector.replicate 128 0, nodes := [], root := Config.nil, code := Vector.replicate 128 0, nsym := 0
        treeSrc := .none, codesValid := false, dstLen := 0
        err := false, errCode := 0, errInfo := 0
        stage := .idle, busy := false, done := true }

/-- R121, R123: CNT leaves in each FREQ how often its symbol occurs in the source window, their sum is SRC_LEN, and nothing
else changes. -/
def Obligations.CntCountsTheSourceWindow : Prop :=
  ∀ s : State, atStage .cnt s → srcInRange s → allSymbols s →
    ∃ f, exec .cnt s = .next (finished { s with freq := f }) ∧
      (∀ k < 128, (freqAt f k).toNat = occurrences s k 0 s.srcLen.toNat) ∧ freqTotal f = s.srcLen.toNat

/-- R122: the first source byte of 128 or more ends the CNT stage, in CNT and in ENC. -/
def Obligations.CntStopsAtTheFirstUnsupportedByte : Prop :=
  ∀ (i : Instr) (s : State) (k : Nat), .cnt ∈ i.stages → atStage .cnt s → srcInRange s → k < s.srcLen.toNat →
    (∀ j < k, (srcByte s j).toNat < 128) → 128 ≤ (srcByte s k).toNat →
    exec i s = .next (faultEntry .unsupportedSymbolError (BitVec.ofNat 32 k) s)

/-- R131: a sum of FREQ of 2^32 or more. -/
def Obligations.BldRefusesFrequencyOverflow : Prop :=
  ∀ (i : Instr) (s : State), .bld ∈ i.stages → atStage .bld s → 2 ^ 32 ≤ freqTotal s.freq →
    exec i s = .next (faultEntry .freqOverflowError 0 s)

/-- R43: BLD completes for every other FREQ, leaves a tree of the shape R43 gives, and changes nothing else. -/
def Obligations.BldBuildsATree : Prop :=
  ∀ s : State, atStage .bld s → freqTotal s.freq < 2 ^ 32 →
    ∃ nodes root, exec .bld s = .next (finished
      { s with
        nodes := nodes, root := root, nsym := BitVec.ofNat 8 (symCount s.freq), treeSrc := .built
        code := Vector.replicate 128 0, codesValid := false }) ∧
      BuiltShape nodes root (symCount s.freq)

/-- R132, R136, R140: the leaves, by ascending symbol with the FREQ of each, and the trees of no and of one symbol. -/
def Obligations.BldMakesTheLeaves : Prop :=
  ∀ s t : State, atStage .bld s → freqTotal s.freq < 2 ^ 32 → exec .bld s = .next t →
    (∀ j < symCount s.freq, nodeNo t.nodes j =
      mkLeaf (BitVec.ofNat 7 ((presentSyms s.freq 128).getD j 0)) (freqAt s.freq ((presentSyms s.freq 128).getD j 0))) ∧
    (symCount s.freq = 0 → t.nodes = [] ∧ t.root = Config.nil) ∧
    (symCount s.freq = 1 → t.nodes = [nodeNo t.nodes 0, mkInternal 0 Config.nil (nodeNo t.nodes 0).freq] ∧ t.root = 1)

/-- R134, R135: with two symbols or more, every INTERNAL record joins the two least nodes that had no parent yet, in the order of
R133, and the last one made is the root. -/
def Obligations.BldMergesTheTwoLeast : Prop :=
  ∀ s t : State, atStage .bld s → freqTotal s.freq < 2 ^ 32 → 2 ≤ symCount s.freq → exec .bld s = .next t →
    (∀ j, symCount s.freq ≤ j → j < 2 * symCount s.freq - 1 → GreedyAt t.nodes (symCount s.freq) j) ∧
    t.nodes.length = 2 * symCount s.freq - 1 ∧ t.root.toNat = 2 * symCount s.freq - 2 ∧
    t.root.toNat = t.nodes.length - 1 ∧ (nodeAt t.nodes t.root).freq.toNat = freqTotal s.freq

/-- R152, R153, R154: ASG writes for each leaf the field of the path to it, 0 for every other symbol, and changes nothing else;
a path is 1 to 127 bits long, and the one of a tree of one symbol is the bit 0. -/
def Obligations.AsgWritesThePathOfEachLeaf : Prop :=
  ∀ s : State, atStage .asg s → s.treeSrc = .built → TreeLegal s →
    ∃ c, exec .asg s = .next (finished { s with code := c, codesValid := true }) ∧
      (∀ path k, leafAt s.nodes s.root path k → codeAt c k = fieldOf path ∧ 1 ≤ path.length ∧ path.length ≤ 127 ∧
        (s.nsym = 1 → path = [false])) ∧
      (∀ k, (∀ path, ¬ leafAt s.nodes s.root path k) → codeAt c k = 0) ∧
      ∀ j < s.nsym.toNat, ∃ path, leafAt s.nodes s.root path (nodeNo s.nodes j).sym.toNat

/-- R155: after ASG exactly the symbols with a leaf have a code, and no code is a prefix of another. -/
def Obligations.AsgCodesArePrefixFree : Prop :=
  ∀ s t : State, atStage .asg s → s.treeSrc = .built → TreeLegal s → exec .asg s = .next t →
    (∀ k < 128, codeAt t.code k ≠ 0 ↔ ∃ j < s.nsym.toNat, (nodeNo s.nodes j).sym.toNat = k) ∧
    ∀ k l, k ≠ l → codeAt t.code k ≠ 0 → codeAt t.code l ≠ 0 →
      prefixFree (codeBits (codeAt t.code k)) (codeBits (codeAt t.code l))

/-! ### SER and the compressed file -/

/-- R160, R167, R168: SER writes the compressed file from DST_BASE upward, leaves its length in DST_LEN, and changes nothing
else. -/
def Obligations.SerWritesTheCompressedFile : Prop :=
  ∀ s : State, atStage .ser s → s.treeSrc = .built → s.codesValid = true → windowsLegal s →
    (∀ k < s.srcLen.toNat, encodable s k) → (compressedFile s).length ≤ s.dstCap.toNat →
    ∃ m, exec .ser s = .next (finished { s with mem := m, dstLen := BitVec.ofNat 32 (compressedFile s).length }) ∧
      memHolds m s.dstBase.toNat (compressedFile s) ∧
      memSameOutside s.mem m s.dstBase.toNat (compressedFile s).length ∧
      (compressedFile s).length = 1 + 17 * s.nsym.toNat + ((sourceBits s).length + 7) / 8 + 1

/-- R67, R165, R226: the faults of SER after its tests on the prerequisite and the windows, in order of the source bytes: the
first byte without a code, unless the output has filled the window before it. -/
def Obligations.SerFaultsInOrder : Prop :=
  ∀ (i : Instr) (s : State), .ser ∈ i.stages → atStage .ser s → s.treeSrc = .built → s.codesValid = true → windowsLegal s →
    (∀ k < s.srcLen.toNat, (∀ j < k, encodable s j) → ¬ encodable s k →
      (headerBytes s).length + (bitsFrom s 0 k).length / 8 ≤ s.dstCap.toNat →
      faultsTo i s (if (srcByte s k).toNat < 128 then .noCodeError else .unsupportedSymbolError) k) ∧
    (∀ k ≤ s.srcLen.toNat, (∀ j < k, encodable s j) →
      s.dstCap.toNat < (headerBytes s).length + (bitsFrom s 0 k).length / 8 →
      faultsTo i s .dstOverflowError s.dstCap.toNat) ∧
    ((∀ k < s.srcLen.toNat, encodable s k) → s.dstCap.toNat < (compressedFile s).length →
      faultsTo i s .dstOverflowError s.dstCap.toNat)

/-- R163: every leaf has exactly one entry, ascending by (frequency, index), which is ascending by (frequency, symbol). -/
def Obligations.EntriesComeInPriorityOrder : Prop :=
  ∀ (nodes : List Node) (root : NodeIdx) (count : Nat), BuiltShape nodes root count →
    (entryOrder nodes count).Perm (List.range count) ∧
    (entryOrder nodes count).Pairwise (fun j k =>
      (nodeNo nodes j).freq.toNat < (nodeNo nodes k).freq.toNat ∨
        ((nodeNo nodes j).freq = (nodeNo nodes k).freq ∧ j < k ∧ (nodeNo nodes j).sym.toNat < (nodeNo nodes k).sym.toNat))

/-- R90, R94, R95, R96: where each part of the compressed file stands and what it holds. -/
def Obligations.CompressedFileLayout : Prop :=
  ∀ s : State,
    let file := compressedFile s
    let count := s.nsym.toNat
    let bits := sourceBits s
    let bytes := (bits.length + 7) / 8
    file.length = 17 * count + bytes + 2 ∧
    file.getD 0 0 = s.nsym ∧
    (∀ e < count,
      let r := nodeNo s.nodes ((entryOrder s.nodes count).getD e 0)
      file.getD (1 + 17 * e) 0 = r.sym.setWidth 8 ∧
      ∀ j < 16, file.getD (2 + 17 * e + j) 0 = (codeAt s.code r.sym.toNat).extractLsb' (120 - 8 * j) 8) ∧
    (∀ b < 8 * bytes, (file.getD (1 + 17 * count + b / 8) 0).getLsbD (7 - b % 8) = bits.getD b false) ∧
    (∃ pad : Byte, file.getD (file.length - 1) 0 = pad ∧ pad.toNat ≤ 7 ∧ bits.length + pad.toNat = 8 * bytes)

/-- R92, R93: the code field: its value and its bytes when written, its value and its code when read, and that reading and writing
are inverse to each other. -/
def Obligations.CodeFieldRoundTrip : Prop :=
  (∀ c : List Bool, c.length ≤ 127 → (fieldOf c).toNat = 2 ^ c.length + bitsVal c ∧ codeBits (fieldOf c) = c) ∧
  (∀ field : CodeField, (fieldBytes field).length = 16 ∧
    (∀ j < 16, (fieldBytes field).getD j 0 = field.extractLsb' (120 - 8 * j) 8) ∧ fieldOfBytes (fieldBytes field) = field) ∧
  (∀ bs : List Byte, bs.length = 16 →
    (fieldOfBytes bs).toNat = ((List.range 16).map fun j => (bs.getD j 0).toNat * 2 ^ (120 - 8 * j)).sum) ∧
  (∀ field : CodeField, field ≠ 0 →
    2 ^ codeLen field ≤ field.toNat ∧ field.toNat < 2 ^ (codeLen field + 1) ∧ (codeBits field).length = codeLen field ∧
    (∀ j < codeLen field, (codeBits field).getD j false = field.getLsbD (codeLen field - 1 - j)) ∧
    fieldOf (codeBits field) = field)

/-- R6, R168: the length of the payload in bits is the sum over the symbols of code length times frequency. -/
def Obligations.PayloadLengthIsTheWeightedSum : Prop :=
  ∀ s : State, allSymbols s →
    (sourceBits s).length =
      ((List.range 128).map fun k => codeLen (codeAt s.code k) * occurrences s k 0 s.srcLen.toNat).sum

/-! ### RCN -/

/-- R44, R188, R190: RCN on a file whose entries pass its tests: the tree has the shape of R44, each symbol hangs at the path of
its code and nothing else does, the CODE table holds the fields of the file, and nothing else changes. -/
def Obligations.RcnRebuildsTheTree : Prop :=
  ∀ s : State, atStage .rcn s → headerFits s → entriesGood s (fileCount s) →
    ∃ nodes c, exec .rcn s = .next (finished
      { s with
        nodes := nodes, root := 0, code := c, nsym := BitVec.ofNat 8 (fileCount s), treeSrc := .recon, codesValid := true }) ∧
      ReconShape nodes 0 (fileCount s) ∧
      (∀ path k, leafAt nodes 0 path k ↔ ∃ e < fileCount s, entrySym s e = k ∧ entryCode s e = path) ∧
      (∀ e < fileCount s, codeAt c (entrySym s e) = entryField s e) ∧
      ∀ k, (∀ e < fileCount s, entrySym s e ≠ k) → codeAt c k = 0

/-- R181: the tests on the length and the count, in order. -/
def Obligations.RcnChecksTheHeader : Prop :=
  ∀ (i : Instr) (s : State), .rcn ∈ i.stages → atStage .rcn s → srcInRange s →
    (s.srcLen.toNat < 2 → exec i s = .next (faultEntry .formatError s.srcLen s)) ∧
    (2 ≤ s.srcLen.toNat → 128 < fileCount s → exec i s = .next (faultEntry .formatError 0 s)) ∧
    (2 ≤ s.srcLen.toNat → fileCount s ≤ 128 → s.srcLen.toNat < 17 * fileCount s + 2 →
      exec i s = .next (faultEntry .formatError s.srcLen s))

/-- R184, R187: the tests on the first entry that does not pass them, in order. -/
def Obligations.RcnChecksEachEntry : Prop :=
  ∀ (i : Instr) (s : State) (e : Nat), .rcn ∈ i.stages → atStage .rcn s → headerFits s → e < fileCount s → entriesGood s e →
    (128 ≤ entrySym s e → exec i s = .next (faultEntry .formatError (BitVec.ofNat 32 (entryOff e)) s)) ∧
    (entrySym s e < 128 → entryField s e = 0 →
      exec i s = .next (faultEntry .formatError (BitVec.ofNat 32 (entryOff e + 1)) s)) ∧
    (entrySym s e < 128 → entryField s e = 1 →
      exec i s = .next (faultEntry .formatError (BitVec.ofNat 32 (entryOff e + 1)) s)) ∧
    (entryReadable s e → (∃ e' < e, entrySym s e' = entrySym s e) →
      exec i s = .next (faultEntry .formatError (BitVec.ofNat 32 (entryOff e)) s)) ∧
    (entryReadable s e → (∀ e' < e, entrySym s e' ≠ entrySym s e) →
      (∃ e' < e, entryCode s e' <+: entryCode s e ∨ entryCode s e <+: entryCode s e') →
      exec i s = .next (faultEntry .formatError (BitVec.ofNat 32 (entryOff e + 1)) s))

/-- R191: whether RCN completes, and the tree it builds seen as a tree, depend on the multiset of the entries and not on their
order. -/
def Obligations.RcnIgnoresEntryOrder : Prop :=
  ∀ s s' : State, atStage .rcn s → atStage .rcn s' → headerFits s → headerFits s' → fileCount s' = fileCount s →
    ((List.range (fileCount s)).map fun e => (entrySym s e, entryField s e)).Perm
      ((List.range (fileCount s')).map fun e => (entrySym s' e, entryField s' e)) →
    ∀ t, exec .rcn s = .next t → t.done = true →
      ∃ t', exec .rcn s' = .next t' ∧ t'.done = true ∧ t'.code = t.code ∧
        ∀ path k, leafAt t'.nodes t'.root path k ↔ leafAt t.nodes t.root path k

/-! ### DCP -/

/-- R204, R205, R207, R208: DCP on a payload whose used bits are the codes of the symbols `out`, in order, writes `out` from
DST_BASE upward, leaves its length in DST_LEN, and changes nothing else. -/
def Obligations.DcpDecodesThePayload : Prop :=
  ∀ (s : State) (out : List Byte), atStage .dcp s → ReconShape s.nodes s.root s.nsym.toNat → s.treeSrc = .recon →
    windowsLegal s → payloadFits s →
    codesOf s.nodes s.root (walkedBits s) out → out.length ≤ s.dstCap.toNat →
    ∃ m, exec .dcp s = .next (finished { s with mem := m, dstLen := BitVec.ofNat 32 out.length }) ∧
      memHolds m s.dstBase.toNat out ∧ memSameOutside s.mem m s.dstBase.toNat out.length

/-- R203: the tests on the length and the pad count, in order. -/
def Obligations.DcpChecksLengthAndPadCount : Prop :=
  ∀ (i : Instr) (s : State), .dcp ∈ i.stages → atStage .dcp s → s.treeSrc = .recon → windowsLegal s →
    (s.srcLen.toNat < 17 * s.nsym.toNat + 2 → faultsTo i s .formatError s.srcLen.toNat) ∧
    (17 * s.nsym.toNat + 2 ≤ s.srcLen.toNat → 7 < filePad s → faultsTo i s .formatError (s.srcLen.toNat - 1)) ∧
    (17 * s.nsym.toNat + 2 = s.srcLen.toNat → filePad s ≠ 0 → faultsTo i s .formatError (s.srcLen.toNat - 1))

/-- R206, R207, R208: where the walk fails: after the codes of the symbols `out` comes a bit that leads to a missing child, or the
payload ends inside a code, or `out` does not fit. -/
def Obligations.DcpFindsTheFaultOfThePayload : Prop :=
  ∀ (i : Instr) (s : State) (done rest : List Bool) (out : List Byte), .dcp ∈ i.stages → atStage .dcp s →
    ReconShape s.nodes s.root s.nsym.toNat → s.treeSrc = .recon → windowsLegal s → payloadFits s → walkedBits s = done ++ rest → codesOf s.nodes s.root done out →
    (∀ q bit more n, out.length ≤ s.dstCap.toNat → rest = q ++ bit :: more → follow s.nodes q s.root = some n →
      (nodeAt s.nodes n).kind = .internal → childOf (nodeAt s.nodes n) bit = Config.nil →
      faultsTo i s .formatError (payloadOff s + (done.length + q.length) / 8)) ∧
    (∀ n, out.length ≤ s.dstCap.toNat → rest ≠ [] → follow s.nodes rest s.root = some n → (nodeAt s.nodes n).kind = .internal →
      faultsTo i s .formatError (s.srcLen.toNat - 1)) ∧
    (s.dstCap.toNat < out.length → faultsTo i s .dstOverflowError s.dstCap.toNat)

/-! ### ENC and DEC -/

/-- R170: each stage of ENC completes as the single command does, leaving what the single command leaves but for the sequencer,
and hands on to the next stage of the list. -/
def Obligations.EncCompletesStageByStage : Prop :=
  ∀ s : State,
    (atStage .clr s → exec .enc s = .next
      { s with
        freq := Vector.replicate 128 0, nodes := [], root := Config.nil, code := Vector.replicate 128 0, nsym := 0
        treeSrc := .none, codesValid := false, dstLen := 0
        err := false, errCode := 0, errInfo := 0
        stage := .cnt }) ∧
    (atStage .cnt s → srcInRange s → allSymbols s →
      ∃ f, exec .cnt s = .next (finished { s with freq := f }) ∧ exec .enc s = .next (movedOn .bld { s with freq := f }) ∧
        (∀ k < 128, (freqAt f k).toNat = occurrences s k 0 s.srcLen.toNat) ∧ freqTotal f = s.srcLen.toNat) ∧
    (atStage .bld s → freqTotal s.freq < 2 ^ 32 →
      ∃ nodes root,
        let u : State :=
          { s with
            nodes := nodes, root := root, nsym := BitVec.ofNat 8 (symCount s.freq), treeSrc := .built
            code := Vector.replicate 128 0, codesValid := false }
        exec .bld s = .next (finished u) ∧ exec .enc s = .next (movedOn .asg u) ∧ BuiltShape nodes root (symCount s.freq)) ∧
    (atStage .asg s → s.treeSrc = .built → TreeLegal s →
      ∃ c, exec .asg s = .next (finished { s with code := c, codesValid := true }) ∧
        exec .enc s = .next (movedOn .ser { s with code := c, codesValid := true }) ∧ CodesOfTree s.nodes s.root c) ∧
    (atStage .ser s → s.treeSrc = .built → s.codesValid = true → windowsLegal s → (∀ k < s.srcLen.toNat, encodable s k) →
      (compressedFile s).length ≤ s.dstCap.toNat →
      ∃ m, exec .enc s = .next (finished { s with mem := m, dstLen := BitVec.ofNat 32 (compressedFile s).length }) ∧
        exec .ser s = exec .enc s ∧
        memHolds m s.dstBase.toNat (compressedFile s) ∧ memSameOutside s.mem m s.dstBase.toNat (compressedFile s).length)

/-- R210: each stage of DEC completes as the single command does, leaving what the single command leaves but for the sequencer,
and hands on to the next stage of the list. -/
def Obligations.DecCompletesStageByStage : Prop :=
  ∀ s : State,
    (atStage .clr s → exec .dec s = .next
      { s with
        freq := Vector.replicate 128 0, nodes := [], root := Config.nil, code := Vector.replicate 128 0, nsym := 0
        treeSrc := .none, codesValid := false, dstLen := 0
        err := false, errCode := 0, errInfo := 0
        stage := .rcn }) ∧
    (atStage .rcn s → headerFits s → entriesGood s (fileCount s) →
      ∃ nodes c,
        let u : State :=
          { s with
            nodes := nodes, root := 0, code := c, nsym := BitVec.ofNat 8 (fileCount s), treeSrc := .recon, codesValid := true }
        exec .rcn s = .next (finished u) ∧ exec .dec s = .next (movedOn .dcp u) ∧ ReconShape nodes 0 (fileCount s) ∧
        (∀ path k, leafAt nodes 0 path k ↔ ∃ e < fileCount s, entrySym s e = k ∧ entryCode s e = path) ∧
        (∀ e < fileCount s, codeAt c (entrySym s e) = entryField s e) ∧
        ∀ k, (∀ e < fileCount s, entrySym s e ≠ k) → codeAt c k = 0) ∧
    (∀ out, atStage .dcp s → ReconShape s.nodes s.root s.nsym.toNat → s.treeSrc = .recon → windowsLegal s → payloadFits s →
      codesOf s.nodes s.root (walkedBits s) out → out.length ≤ s.dstCap.toNat →
      ∃ m, exec .dec s = .next (finished { s with mem := m, dstLen := BitVec.ofNat 32 out.length }) ∧
        exec .dcp s = exec .dec s ∧
        memHolds m s.dstBase.toNat out ∧ memSameOutside s.mem m s.dstBase.toNat out.length)

/-- R171: `cmd ENC; wait` and the five single commands with a `wait` after each leave the same registers but OP, and the same
memory. -/
def Obligations.EncEqualsItsParts : Prop :=
  ∀ s : State, s.busy = false → s.err = false → ∃ t u,
    runsTo { s with script := [cmd .enc, .wait] } t ∧ t.script = [] ∧ t.busy = false ∧
    runsTo { s with script := [cmd .clr, .wait, cmd .cnt, .wait, cmd .bld, .wait, cmd .asg, .wait, cmd .ser, .wait] } u ∧
    u.script = [] ∧ { u with op := t.op, replies := t.replies } = t

/-- R211: `cmd DEC; wait` and the three single commands with a `wait` after each leave the same registers but OP, and the same
memory. -/
def Obligations.DecEqualsItsParts : Prop :=
  ∀ s : State, s.busy = false → s.err = false → ∃ t u,
    runsTo { s with script := [cmd .dec, .wait] } t ∧ t.script = [] ∧ t.busy = false ∧
    runsTo { s with script := [cmd .clr, .wait, cmd .rcn, .wait, cmd .dcp, .wait] } u ∧
    u.script = [] ∧ { u with op := t.op, replies := t.replies } = t

/-- R172: with legal windows, source bytes below 128 and a capacity of 2178 + ceil(127*n/8) bytes, ENC completes; its output is
the compressed file of the source window. -/
def Obligations.EncCompletesWithEnoughRoom : Prop :=
  ∀ s : State, s.busy = false → s.err = false → s.script = [cmd .enc, .wait] → windowsLegal s → allSymbols s →
    2178 + (127 * s.srcLen.toNat + 7) / 8 ≤ s.dstCap.toNat →
    ∃ t, runsTo s t ∧ t.script = [] ∧ t.busy = false ∧ t.done = true ∧ t.err = false ∧ t.treeSrc = .built ∧ t.codesValid = true ∧
      t.dstLen.toNat = (compressedFile t).length ∧ memHolds t.mem s.dstBase.toNat (compressedFile t) ∧
      memSameOutside s.mem t.mem s.dstBase.toNat t.dstLen.toNat

/-- R212, the round trip: a DEC of what an ENC that completed has written gives back the bytes that the ENC read. -/
def Obligations.DecodeOfEncodeIsTheInput : Prop :=
  ∀ s t u : State,
    s.busy = false → s.err = false → s.script = [cmd .enc, .wait] → allSymbols s →
    runsTo s t → t.script = [] → t.busy = false → t.done = true →
    u.busy = false → u.err = false → u.script = [cmd .dec, .wait] → windowsLegal u →
    u.srcLen = t.dstLen → (∀ j < t.dstLen.toNat, srcByte u j = memRead t.mem (t.dstBase.toNat + j)) →
    s.srcLen.toNat ≤ u.dstCap.toNat →
    ∃ v, runsTo u v ∧ v.script = [] ∧ v.busy = false ∧ v.done = true ∧ v.err = false ∧ v.dstLen = s.srcLen ∧
      ∀ j < s.srcLen.toNat, memRead v.mem (u.dstBase.toNat + j) = srcByte s j

/-! ### Faults -/

/-- R227: a stage whose prerequisite does not hold raises SequenceError before anything else; the other stages never do. -/
def Obligations.PrerequisitesComeFirst : Prop :=
  ∀ (i : Instr) (s : State), s.stage ∈ i.stages → s.busy = true →
    (s.stage = .asg → s.treeSrc ≠ .built → exec i s = .next (faultEntry .sequenceError 4 s)) ∧
    (s.stage = .ser → ¬ (s.treeSrc = .built ∧ s.codesValid = true) → exec i s = .next (faultEntry .sequenceError 5 s)) ∧
    (s.stage = .dcp → s.treeSrc ≠ .recon → exec i s = .next (faultEntry .sequenceError 7 s)) ∧
    (s.stage ∈ [.clr, .cnt, .bld, .rcn] → s.err = false → ∀ t, exec i s = .next t → t.err = true →
      t.errCode ≠ ErrName.sequenceError.code)

/-- R64: the window tests, in order: source range, destination range, overlap. -/
def Obligations.WindowChecksComeInOrder : Prop :=
  ∀ (i : Instr) (s : State), s.stage ∈ i.stages → s.busy = true →
    (s.stage = .cnt ∨ s.stage = .rcn → 2 ^ 32 < s.srcBase.toNat + s.srcLen.toNat →
      exec i s = .next (faultEntry .windowError 0 s)) ∧
    ((s.stage = .ser ∧ s.treeSrc = .built ∧ s.codesValid = true) ∨ (s.stage = .dcp ∧ s.treeSrc = .recon) →
      (2 ^ 32 < s.srcBase.toNat + s.srcLen.toNat → exec i s = .next (faultEntry .windowError 0 s)) ∧
      (s.srcBase.toNat + s.srcLen.toNat ≤ 2 ^ 32 → 2 ^ 32 < s.dstBase.toNat + s.dstCap.toNat →
        exec i s = .next (faultEntry .windowError 1 s)) ∧
      (s.srcBase.toNat + s.srcLen.toNat ≤ 2 ^ 32 → s.dstBase.toNat + s.dstCap.toNat ≤ 2 ^ 32 →
        0 < s.srcLen.toNat → 0 < s.dstCap.toNat → s.srcBase.toNat < s.dstBase.toNat + s.dstCap.toNat →
        s.dstBase.toNat < s.srcBase.toNat + s.srcLen.toNat →
        exec i s = .next (faultEntry .windowError 2 s)))

/-- R230, R231, R234: after a fault in any stage, and after an illegal word at CMD, the registers are exactly those of R230, and
memory has changed at most in the destination window, and there only after a fault of SER or DCP that is not SequenceError or
WindowError; the codes of the faults are the numbers of R221. -/
def Obligations.FaultEntryIsPrecise : Prop :=
  (∀ (i : Instr) (s t : State), exec i s = .next t → s.err = false → t.err = true →
    ∃ (e : ErrName) (v : Word), e ∈ faultsOf s.stage ∧
      t = { s with
        freq := Vector.replicate 128 0, nodes := [], root := Config.nil, code := Vector.replicate 128 0, nsym := 0
        treeSrc := .none, codesValid := false, dstLen := 0
        err := true, errCode := e.code, errInfo := v, done := false, busy := false, stage := .idle
        mem := t.mem, freeCount := t.freeCount } ∧
      memSameOutside s.mem t.mem s.dstBase.toNat s.dstCap.toNat ∧
      ((s.stage ≠ .ser ∧ s.stage ≠ .dcp) ∨ e = .sequenceError ∨ e = .windowError → t.mem = s.mem)) ∧
  (∀ (s : State) (w : Word), s.busy = false → s.err = false → (∀ i, decode w ≠ .ok i) →
    writesAs s 0x000 w fun rest =>
      { s with
        script := rest
        freq := Vector.replicate 128 0, nodes := [], root := Config.nil, code := Vector.replicate 128 0, nsym := 0
        treeSrc := .none, codesValid := false, dstLen := 0
        err := true, errCode := 6, errInfo := w, done := false, busy := false, stage := .idle }) ∧
  ∀ (e : ErrName) (n : BitVec 4), e.code = n ↔
    (e, n) ∈ [(ErrName.formatError, 1#4), (.unsupportedSymbolError, 2#4), (.windowError, 3#4), (.dstOverflowError, 4#4),
      (.sequenceError, 5#4), (.illegalCommandError, 6#4), (.noCodeError, 7#4), (.freqOverflowError, 8#4)]

/-- R232: ERR, ERRCODE and ERRINFO keep their values until the CLR command or reset. -/
def Obligations.OnlyClrOrResetLeavesTheFaultState : Prop :=
  ∀ s t : State, FaultStateLegal s → s.err = true → step s = .next t →
    (t.err = true ∧ t.errCode = s.errCode ∧ t.errInfo = s.errInfo) ∨
      (s.busy = true ∧ s.op = Instr.clr.opcode ∧ t.err = false ∧ t.errCode = 0 ∧ t.errInfo = 0) ∨
      ∃ rest, s.script = .reset :: rest

/-- R224, R225: at the end of a command the interrupt line follows the flag that the end has set and its enable bit. -/
def Obligations.InterruptLineAtTheEndOfACommand : Prop :=
  ∀ (i : Instr) (s t : State), exec i s = .next t → s.err = false → t.busy = false →
    (t.err = false → irq t = s.ieDone) ∧ (t.err = true → irq t = s.ieErr)

/-! ### Frames -/

/-- R28, R30, R34, R230: no stage, completed or faulted, changes CTRL, the four window registers, NODE_SEL or OP (nor the
model's own record of the host). -/
def Obligations.HtbKeepsTheHostRegisters : Prop :=
  ∀ (i : Instr) (s t : State), exec i s = .next t →
    t.ieDone = s.ieDone ∧ t.ieErr = s.ieErr ∧ t.srcBase = s.srcBase ∧ t.srcLen = s.srcLen ∧ t.dstBase = s.dstBase ∧
    t.dstCap = s.dstCap ∧ t.nodeSel = s.nodeSel ∧ t.op = s.op ∧
    t.script = s.script ∧ t.replies = s.replies ∧ t.inFlight = s.inFlight

/-- R47 and the lists of what each command writes: what a stage that completes may write beside the sequencer; everything else
is as before. -/
def Obligations.CompletedStageFrame : Prop :=
  ∀ (i : Instr) (s t : State), exec i s = .next t → s.err = false → t.err = false →
    let s' := { s with stage := t.stage, busy := t.busy, done := t.done }
    match s.stage with
    | .clr => t = { s' with
        freq := t.freq, nodes := t.nodes, root := t.root, code := t.code, nsym := t.nsym, treeSrc := .none, codesValid := false
        dstLen := 0, errCode := 0, errInfo := 0 }
    | .cnt => t = { s' with freq := t.freq }
    | .bld => t = { s' with
        nodes := t.nodes, root := t.root, code := t.code, nsym := t.nsym, treeSrc := .built, codesValid := false }
    | .asg => t = { s' with code := t.code, codesValid := true }
    | .rcn => t = { s' with
        nodes := t.nodes, root := t.root, code := t.code, nsym := t.nsym, treeSrc := .recon, codesValid := true }
    | .ser | .dcp => t = { s' with mem := t.mem, dstLen := t.dstLen }
    | .idle => False

/-- R79: which bytes of memory a stage may change. -/
def Obligations.StagesWriteOnlyTheDestinationWindow : Prop :=
  ∀ (i : Instr) (s t : State), exec i s = .next t →
    (s.stage ≠ .ser → s.stage ≠ .dcp → ∀ x, memRead t.mem x = memRead s.mem x) ∧
    (∀ x, ¬ (s.dstBase.toNat ≤ x ∧ x < s.dstBase.toNat + s.dstCap.toNat) → memRead t.mem x = memRead s.mem x) ∧
    (s.err = false → t.err = false → s.stage = .ser ∨ s.stage = .dcp →
      ∀ x, ¬ (s.dstBase.toNat ≤ x ∧ x < s.dstBase.toNat + t.dstLen.toNat) → memRead t.mem x = memRead s.mem x)

/-- R66, R72: what a stage does, in the registers and in the bytes of memory that it gives a value, and whether it faults, depends
on no byte of memory outside the source window. (The bytes that a fault of SER or DCP leaves unspecified are free values, log
entry 2.) -/
def Obligations.StagesReadOnlyTheSourceWindow : Prop :=
  ∀ (i : Instr) (s t : State) (m : Memory), exec i s = .next t →
    (∀ x, s.srcBase.toNat ≤ x → x < s.srcBase.toNat + s.srcLen.toNat → memRead m x = memRead s.mem x) →
    ∃ m', exec i { s with mem := m } = .next { t with mem := m' } ∧
      ∀ x, memRead m' x =
        if s.dstBase.toNat ≤ x ∧ x < s.dstBase.toNat + bytesGiven s t ∧ x < 2 ^ 32 then memRead t.mem x else memRead m x

/-! ### The host's side -/

/-- R26: a write to CMD, in the order of the four tests; nothing else starts a command. That the windows of the accepted command
join those in flight is the model's choice (log entry 4). -/
def Obligations.CmdWriteStartsACommandOrFaults : Prop :=
  (∀ (s : State) (w : Word),
    (s.busy = true → writesAs s 0x000 w fun rest => { s with script := rest }) ∧
    (s.busy = false → s.err = true → w ≠ 0x00000001 → writesAs s 0x000 w fun rest => { s with script := rest }) ∧
    (s.busy = false → (s.err = true → w = 0x00000001) → (∀ i, decode w ≠ .ok i) →
      writesAs s 0x000 w fun rest => faultEntry .illegalCommandError w { s with script := rest }) ∧
    (∀ i, s.busy = false → (s.err = true → w = 0x00000001) → decode w = .ok i →
      ∃ st, i.stages.head? = some st ∧
        writesAs s 0x000 w fun rest =>
          { s with
            script := rest, op := w.setWidth 8, done := false, busy := true, stage := st
            inFlight := { srcBase := s.srcBase, srcLen := s.srcLen, dstBase := s.dstBase, dstCap := s.dstCap } :: s.inFlight })) ∧
  ∀ s t : State, s.busy = false → step s = .next t → t.busy = true →
    ∃ w i rest, s.script = .regWrite 0x000 w :: rest ∧ decode w = .ok i

/-- R23: register accesses while BUSY = 1. That an unspecified value is counted in `freeCount` is the model's form of a free value
(log entry 3). -/
def Obligations.BusyDropsWritesAndHidesRegisters : Prop :=
  ∀ s : State, s.busy = true →
    (∀ n v, n < 0x400 → writesAs s n v fun rest => { s with script := rest }) ∧
    (∀ rest, s.script = .regRead 0x001 :: rest →
      step s = .next { s with script := rest, replies := .reg (statusWord s) :: s.replies }) ∧
    (∀ rest, s.script = .regRead 0x002 :: rest →
      step s = .next { s with script := rest, replies := .reg (ctrlWord s) :: s.replies }) ∧
    (∀ n rest, n < 0x400 → n ≠ 0x001 → n ≠ 0x002 → s.script = .regRead n :: rest →
      ∃ v, step s = .next { s with script := rest, replies := .reg v :: s.replies, freeCount := s.freeCount + 1 })

/-- R23, R25: the fields of STATUS, with BUSY = 0 and with BUSY = 1, and the numbers of TREE_SRC and STAGE. (That a read which
shows BUSY = 0 gives the windows in flight back is in `readsAs`; log entry 4.) -/
def Obligations.StatusFieldsStandWhereTheMapSays : Prop :=
  ∀ s : State, ∃ w, readsAs s 0x001 w ∧
    w.getLsbD 0 = s.busy ∧ w.getLsbD 1 = s.done ∧ w.getLsbD 2 = s.err ∧ w.getLsbD 3 = false ∧
    w.extractLsb' 4 2 = (match s.treeSrc with | .none => 0 | .built => 1 | .recon => 2) ∧
    w.getLsbD 6 = s.codesValid ∧ w.getLsbD 7 = false ∧
    w.extractLsb' 8 4 = (match s.stage with
      | .idle => 0 | .clr => 1 | .cnt => 2 | .bld => 3 | .asg => 4 | .ser => 5 | .rcn => 6 | .dcp => 7) ∧
    w.extractLsb' 12 4 = 0 ∧ w.extractLsb' 16 8 = s.op ∧ w.extractLsb' 24 8 = 0

/-- R21, R22, R28, R29, R33, R34, R35, R45: what every other register number reads as with BUSY = 0. -/
def Obligations.RegisterReadsFollowTheMap : Prop :=
  ∀ s : State, s.busy = false →
    readsAs s 0x000 0 ∧
    readsAs s 0x002 (BitVec.ofNat 32 (s.ieDone.toNat + 2 * s.ieErr.toNat)) ∧
    readsAs s 0x003 (BitVec.ofNat 32 s.errCode.toNat) ∧ readsAs s 0x004 s.errInfo ∧
    readsAs s 0x005 s.srcBase ∧ readsAs s 0x006 s.srcLen ∧ readsAs s 0x007 s.dstBase ∧ readsAs s 0x008 s.dstCap ∧
    readsAs s 0x009 s.dstLen ∧ readsAs s 0x00A (BitVec.ofNat 32 s.nsym.toNat) ∧ readsAs s 0x00B (BitVec.ofNat 32 s.root.toNat) ∧
    readsAs s 0x00C (BitVec.ofNat 32 s.nodes.length) ∧ readsAs s 0x00D (BitVec.ofNat 32 s.nodeSel.toNat) ∧
    (s.nodeSel.toNat < s.nodes.length →
      readsAs s 0x00E (BitVec.ofNat 32
        ((match (nodeNo s.nodes s.nodeSel.toNat).kind with | .free => 0 | .leaf => 1 | .internal => 2) +
          2 ^ 8 * (nodeNo s.nodes s.nodeSel.toNat).sym.toNat)) ∧
      readsAs s 0x00F (BitVec.ofNat 32 (nodeNo s.nodes s.nodeSel.toNat).left.toNat) ∧
      readsAs s 0x010 (BitVec.ofNat 32 (nodeNo s.nodes s.nodeSel.toNat).right.toNat) ∧
      readsAs s 0x011 (nodeNo s.nodes s.nodeSel.toNat).freq) ∧
    (s.nodes.length ≤ s.nodeSel.toNat →
      readsAs s 0x00E 0 ∧ readsAs s 0x00F 0x7FFF ∧ readsAs s 0x010 0x7FFF ∧ readsAs s 0x011 0) ∧
    (∀ k < 128, readsAs s (0x080 + k) (freqAt s.freq k)) ∧
    (∀ k < 128, ∀ j < 4, readsAs s (0x200 + 4 * k + j) ((codeAt s.code k).extractLsb' (96 - 32 * j) 32)) ∧
    (∀ n, (0x012 ≤ n ∧ n ≤ 0x07F) ∨ (0x100 ≤ n ∧ n ≤ 0x1FF) → readsAs s n 0)

/-- R22, R25, R28, R30, R34, R35: what a write to every register number but CMD does with BUSY = 0. -/
def Obligations.RegisterWritesFollowTheMap : Prop :=
  ∀ (s : State) (v : Word), s.busy = false →
    (writesAs s 0x001 v fun rest => { s with script := rest, done := s.done && !v.getLsbD 1 }) ∧
    (writesAs s 0x002 v fun rest => { s with script := rest, ieDone := v.getLsbD 0, ieErr := v.getLsbD 1 }) ∧
    (writesAs s 0x005 v fun rest => { s with script := rest, srcBase := v }) ∧
    (writesAs s 0x006 v fun rest => { s with script := rest, srcLen := v }) ∧
    (writesAs s 0x007 v fun rest => { s with script := rest, dstBase := v }) ∧
    (writesAs s 0x008 v fun rest => { s with script := rest, dstCap := v }) ∧
    (writesAs s 0x00D v fun rest => { s with script := rest, nodeSel := v.extractLsb' 0 15 }) ∧
    (∀ k < 128, ∃ f, (writesAs s (0x080 + k) v fun rest => { s with script := rest, freq := f }) ∧
      ∀ j < 128, freqAt f j = if j = k then v else freqAt s.freq j) ∧
    (∀ n, n = 0x003 ∨ n = 0x004 ∨ (0x009 ≤ n ∧ n ≤ 0x00C) ∨ (0x00E ≤ n ∧ n ≤ 0x07F) ∨ (0x100 ≤ n ∧ n ≤ 0x3FF) →
      writesAs s n v fun rest => { s with script := rest })

/-- R62, R63, R78: the host's memory accesses: free outside the windows of a command in flight, refused inside (when a command
is no longer in flight is the model's choice, log entry 4). -/
def Obligations.HostMemoryAccess : Prop :=
  ∀ (s : State) (a : Word) (v : Byte) (rest : List Event),
    (s.script = .memRead a :: rest →
      step s = if inFlightDst s a.toNat then .refused .hostWindowRace
        else .next { s with script := rest, replies := .mem (memRead s.mem a.toNat) :: s.replies }) ∧
    (s.script = .memWrite a v :: rest →
      if inFlightSrc s a.toNat ∨ inFlightDst s a.toNat then step s = .refused .hostWindowRace
      else ∃ m, step s = .next { s with script := rest, mem := m } ∧
        ∀ x, memRead m x = if x = a.toNat then v else memRead s.mem x)

/-- R73 c, R87, R258: a read of STATUS that shows BUSY = 0, and a `wait` with BUSY = 0 (which is such a read, log entry 15), give
all windows in flight back to the host (log entry 4). -/
def Obligations.SeeingBusyClearOpensTheWindows : Prop :=
  ∀ (s : State) (e : Event) (rest : List Event), s.busy = false → e = .regRead 0x001 ∨ e = .wait → s.script = e :: rest →
    ∃ t, step s = .next t ∧
      t = { s with script := rest, replies := .reg (statusWord s) :: s.replies, inFlight := [] } ∧
      ∀ x, ¬ inFlightSrc t x ∧ ¬ inFlightDst t x

/-- R78, R258, U3: the windows of a command are closed to the host from the CMD write on, whatever other commands follow it, until
the host sees BUSY = 0 (or resets HTB: log entry 4). -/
def Obligations.WindowsStayClosedUntilBusyReadsZero : Prop :=
  ∀ (s : State) (w : Windows), w ∈ s.inFlight →
    (∀ (a : Word) (rest : List Event), s.script = .memRead a :: rest → inWindow w.dstBase w.dstCap a.toNat →
      step s = .refused .hostWindowRace) ∧
    (∀ (a : Word) (v : Byte) (rest : List Event), s.script = .memWrite a v :: rest →
      inWindow w.srcBase w.srcLen a.toNat ∨ inWindow w.dstBase w.dstCap a.toNat → step s = .refused .hostWindowRace) ∧
    ∀ t, step s = .next t →
      w ∈ t.inFlight ∨ (∃ rest, s.script = .reset :: rest) ∨
        (s.busy = false ∧ ∃ rest, s.script = .regRead 0x001 :: rest ∨ s.script = .wait :: rest)

end Obligations0
end

