-- ==== Sys2Proof/Laws/Bits.lean ====
section
/-! SUPPORT. The laws of bit strings, code fields and bytes (spec/30_encoding.md R92, R93, R95). -/

namespace Sys2Proof.Machine

/-! ### val -/

theorem bitsVal_foldl (c : List Bool) (n : Nat) :
    c.foldl (fun n b => 2 * n + b.toNat) n = n * 2 ^ c.length + bitsVal c := by
  unfold bitsVal
  induction c generalizing n with
  | nil => simp
  | cons b c ih =>
    simp only [List.foldl_cons, List.length_cons]
    rw [ih, ih (2 * 0 + b.toNat)]
    ring

@[simp] theorem bitsVal_nil : bitsVal [] = 0 := rfl

theorem bitsVal_cons (b : Bool) (c : List Bool) : bitsVal (b :: c) = b.toNat * 2 ^ c.length + bitsVal c := by
  show c.foldl _ _ = _
  rw [bitsVal_foldl]; simp

theorem bitsVal_append (c d : List Bool) : bitsVal (c ++ d) = bitsVal c * 2 ^ d.length + bitsVal d := by
  show (c ++ d).foldl _ _ = _
  rw [List.foldl_append, bitsVal_foldl]; rfl

theorem bitsVal_lt (c : List Bool) : bitsVal c < 2 ^ c.length := by
  induction c with
  | nil => simp
  | cons b c ih =>
    rw [bitsVal_cons, List.length_cons, Nat.pow_succ]
    cases b <;> simp <;> omega

/-- Bit `t` of a bit string, first bit most significant. -/
theorem testBit_bitsVal (c : List Bool) (t : Nat) (h : t < c.length) :
    (bitsVal c).testBit (c.length - 1 - t) = c.get ⟨t, h⟩ := by
  induction c generalizing t with
  | nil => simp at h
  | cons b c ih =>
    have hl := bitsVal_lt c
    rw [bitsVal_cons, Nat.mul_comm]
    cases t with
    | zero =>
      rw [Nat.testBit_two_pow_mul_add _ hl]
      simp
      cases b <;> simp
    | succ t =>
      have ht : t < c.length := by simpa using h
      rw [Nat.testBit_two_pow_mul_add _ hl, if_pos (by simp; omega)]
      have : (b :: c).length - 1 - (t + 1) = c.length - 1 - t := by simp; omega
      rw [this, ih t ht]; simp

theorem testBit_bitsVal_getD (c : List Bool) (i : Nat) (h : i < c.length) :
    (bitsVal c).testBit i = c.getD (c.length - 1 - i) false := by
  have hlt : c.length - 1 - i < c.length := by omega
  have := testBit_bitsVal c (c.length - 1 - i) hlt
  rw [show c.length - 1 - (c.length - 1 - i) = i by omega] at this
  rw [this, List.getD_eq_getElem _ _ hlt]; rfl

/-- A bit string is read off its value. -/
theorem bits_of_bitsVal (c : List Bool) :
    (List.range c.length).map (fun t => (bitsVal c).testBit (c.length - 1 - t)) = c := by
  apply List.ext_getElem (by simp)
  intro t h1 h2
  simp only [List.getElem_map, List.getElem_range]
  exact testBit_bitsVal c t h2

/-! ### The code field -/

theorem fieldOf_toNat {c : List Bool} (h : c.length ≤ 127) : (fieldOf c).toNat = 2 ^ c.length + bitsVal c := by
  have h1 := bitsVal_lt c
  have h2 : 2 ^ c.length ≤ 2 ^ 127 := Nat.pow_le_pow_right (by norm_num) h
  unfold fieldOf
  rw [BitVec.toNat_ofNat]
  apply Nat.mod_eq_of_lt
  have : (2 : Nat) ^ 128 = 2 ^ 127 + 2 ^ 127 := by norm_num
  omega

theorem codeLen_fieldOf {c : List Bool} (h : c.length ≤ 127) : codeLen (fieldOf c) = c.length := by
  unfold codeLen
  rw [fieldOf_toNat h]
  have h1 := bitsVal_lt c
  refine (Nat.log2_eq_iff (by positivity)).mpr ⟨by omega, ?_⟩
  rw [Nat.pow_succ]; omega

theorem fieldOf_ne_zero {c : List Bool} (h : c.length ≤ 127) : fieldOf c ≠ 0 := by
  intro h0
  have h1 : (0 : CodeField).toNat = _ := h0 ▸ fieldOf_toNat h
  have h2 : (0 : CodeField).toNat = 0 := rfl
  have : 0 < 2 ^ c.length := Nat.two_pow_pos _
  omega

/-- Writing a code and reading its field (the first half of R93's "reading is the inverse of writing"). -/
theorem codeBits_of_fieldOf {c : List Bool} (h : c.length ≤ 127) : codeBits (fieldOf c) = c := by
  unfold codeBits
  rw [codeLen_fieldOf h]
  conv_rhs => rw [← bits_of_bitsVal c]
  apply List.map_congr_left
  intro t ht
  have ht : t < c.length := by simpa using ht
  rw [← BitVec.testBit_toNat, fieldOf_toNat h, ← Nat.mul_one (2 ^ c.length),
    Nat.testBit_two_pow_mul_add 1 (bitsVal_lt c), if_pos (by omega)]

/-- A nonzero field holds the sentinel and the code (R93). -/
theorem toNat_eq_sentinel_add {field : CodeField} (h : field ≠ 0) :
    field.toNat = 2 ^ codeLen field + bitsVal (codeBits field) := by
  have hne : field.toNat ≠ 0 := fun h0 => h (BitVec.eq_of_toNat_eq (by simpa using h0))
  have hl : codeLen field = field.toNat.log2 := rfl
  have h1 := Nat.log2_self_le hne
  have h2 := Nat.lt_log2_self (n := field.toNat)
  rw [← hl] at h1 h2
  have hlen : (codeBits field).length = codeLen field := by simp [codeBits]
  have hr : bitsVal (codeBits field) = field.toNat - 2 ^ codeLen field := by
    apply Nat.eq_of_testBit_eq
    intro i
    by_cases hi : i < codeLen field
    · have he : codeLen field - 1 - (codeLen field - 1 - i) = i := by omega
      rw [testBit_bitsVal_getD (codeBits field) i (by omega), hlen]
      have hx : field.toNat = 2 ^ codeLen field * 1 + (field.toNat - 2 ^ codeLen field) := by omega
      have hlt : field.toNat - 2 ^ codeLen field < 2 ^ codeLen field := by rw [Nat.pow_succ] at h2; omega
      have := Nat.testBit_two_pow_mul_add 1 hlt i
      rw [← hx, if_pos hi] at this
      rw [← this, List.getD_eq_getElem _ _ (by omega)]
      simp only [codeBits, List.getElem_map, List.getElem_range, he]
      exact (BitVec.testBit_toNat field).symm
    · have hb := bitsVal_lt (codeBits field)
      rw [hlen] at hb
      have hp : 2 ^ codeLen field ≤ 2 ^ i := Nat.pow_le_pow_right (by norm_num) (by omega)
      rw [Nat.testBit_eq_false_of_lt (by omega), Nat.testBit_eq_false_of_lt (by rw [Nat.pow_succ] at h2; omega)]
  omega

theorem codeLen_le (field : CodeField) : codeLen field ≤ 127 := by
  unfold codeLen
  by_cases h : field.toNat = 0
  · simp [h]
  · have := (Nat.log2_lt h).mpr field.isLt
    omega

@[simp] theorem codeBits_length (field : CodeField) : (codeBits field).length = codeLen field := by
  simp [codeBits]

/-- Reading a nonzero field and writing its code (the second half of R93). -/
theorem fieldOf_of_codeBits {field : CodeField} (h : field ≠ 0) : fieldOf (codeBits field) = field := by
  apply BitVec.eq_of_toNat_eq
  rw [fieldOf_toNat (by simpa using codeLen_le field), codeBits_length, ← toNat_eq_sentinel_add h]

/-! ### Bytes -/

@[simp] theorem byteBits_length (b : Byte) : (byteBits b).length = 8 := by simp [byteBits]

@[simp] theorem fieldBytes_length (field : CodeField) : (fieldBytes field).length = 16 := by simp [fieldBytes]

/-- The bits of the byte that 8 bits make. -/
theorem byteBits_byteOfBits {c : List Bool} (h : c.length = 8) : byteBits (byteOfBits c) = c := by
  apply List.ext_getElem (by simp [h])
  intro t h1 h2
  have ht : t < 8 := by simpa using h1
  have hlt : bitsVal c < 2 ^ 8 := by have := bitsVal_lt c; rwa [h] at this
  simp only [byteBits, List.getElem_map, List.getElem_range]
  rw [← BitVec.testBit_toNat, byteOfBits, BitVec.toNat_ofNat, Nat.mod_eq_of_lt hlt]
  rw [show 7 - t = c.length - 1 - t by omega]
  exact testBit_bitsVal c t h2

/-- Reading the 16 bytes of a field in the order they are stored gives the field (R92, R93). -/
theorem fieldOfBytes_of_fieldBytes (field : CodeField) : fieldOfBytes (fieldBytes field) = field := by
  have key : ∀ n ≤ 16, ((List.range n).map (fieldByte field)).foldl (fun n b => n * 256 + b.toNat) 0 =
      field.toNat / 2 ^ (128 - 8 * n) := by
    intro n hn
    induction n with
    | zero => simpa using (Nat.div_eq_of_lt field.isLt).symm
    | succ n ih =>
      rw [List.range_succ, List.map_append, List.foldl_append, ih (by omega)]
      simp only [List.map_cons, List.map_nil, List.foldl_cons, List.foldl_nil, fieldByte, BitVec.extractLsb'_toNat,
        Nat.shiftRight_eq_div_pow]
      have h1 : 128 - 8 * n = (120 - 8 * n) + 8 := by omega
      have h2 : 128 - 8 * (n + 1) = 120 - 8 * n := by omega
      rw [h1, h2, Nat.pow_add, ← Nat.div_div_eq_div_mul]
      have := Nat.div_add_mod (field.toNat / 2 ^ (120 - 8 * n)) (2 ^ 8)
      omega
  apply BitVec.eq_of_toNat_eq
  rw [fieldOfBytes, fieldBytes, BitVec.toNat_ofNat, key 16 (by omega)]
  simpa using Nat.mod_eq_of_lt field.isLt

/-- The number that bytes make, most significant first (R93). -/
theorem bytes_foldl (bs : List Byte) (n : Nat) :
    bs.foldl (fun n b => n * 256 + b.toNat) n =
      n * 256 ^ bs.length + ((List.range bs.length).map fun j => (bs.getD j 0).toNat * 256 ^ (bs.length - 1 - j)).sum := by
  induction bs generalizing n with
  | nil => simp
  | cons b bs ih =>
    rw [List.foldl_cons, ih, List.length_cons, List.range_succ_eq_map, List.map_cons, List.map_map, List.sum_cons]
    simp only [List.getD_cons_zero, Function.comp_def, List.getD_cons_succ, Nat.succ_eq_add_one]
    have : ∀ j, bs.length + 1 - 1 - (j + 1) = bs.length - 1 - j := fun j => by omega
    simp only [this]
    rw [show bs.length + 1 - 1 - 0 = bs.length by omega]
    ring

theorem bytes_lt (bs : List Byte) (n k : Nat) (h : n < 256 ^ k) :
    bs.foldl (fun n b => n * 256 + b.toNat) n < 256 ^ (k + bs.length) := by
  induction bs generalizing n k with
  | nil => exact h
  | cons b bs ih =>
    have := b.isLt
    have h2 := ih (n * 256 + b.toNat) (k + 1) (by rw [Nat.pow_succ]; omega)
    rwa [show k + 1 + bs.length = k + (b :: bs).length by simp; omega] at h2

end Sys2Proof.Machine
end

