-- ==== Sys2Proof/Laws/Memory.lean ====
section
/-! SUPPORT. The laws of memory (spec/20_memory.md R62, R63, R65): a read after a write, the canonical form, and what
spoiling a range leaves alone. -/

namespace Sys2Proof.Machine

theorem memRead_filter_ne (m : Memory) {x y : Nat} (h : y ≠ x) :
    memRead (m.filter (fun c => c.1 != x)) y = memRead m y := by
  induction m with
  | nil => rfl
  | cons c m ih =>
    obtain ⟨a, v⟩ := c
    by_cases hax : a = x
    · subst hax; simp [memRead, ih, h.symm]
    · simp [hax, memRead, ih]

theorem memRead_filter_self (m : Memory) (x : Nat) :
    memRead (m.filter (fun c => c.1 != x)) x = unwrittenByte := by
  induction m with
  | nil => rfl
  | cons c m ih =>
    obtain ⟨a, v⟩ := c
    by_cases hax : a = x
    · subst hax; simpa using ih
    · simp [hax, memRead, ih]

theorem memRead_insert_self (m : Memory) (x : Nat) (v : Byte) (h : ∀ c ∈ m, c.1 ≠ x) :
    memRead (memInsert m x v) x = v := by
  induction m with
  | nil => simp [memInsert, memRead]
  | cons c m ih =>
    obtain ⟨a, b⟩ := c
    have ha : a ≠ x := h (a, b) (by simp)
    have ih := ih (fun c hc => h c (by simp [hc]))
    unfold memInsert
    split <;> simp [memRead, ha, ih]

theorem memRead_insert_ne (m : Memory) {x y : Nat} (v : Byte) (h : y ≠ x) :
    memRead (memInsert m x v) y = memRead m y := by
  induction m with
  | nil => simp [memInsert, memRead, h.symm]
  | cons c m ih =>
    obtain ⟨a, b⟩ := c
    unfold memInsert
    split
    · simp [memRead, h.symm]
    · simp [memRead, ih]

/-- A read after a write (R62, R63, R65): the byte written reads as the value, every other byte as before. -/
theorem memRead_memWrite (m : Memory) (x y : Nat) (v : Byte) :
    memRead (memWrite m x v) y = if y = x then v else memRead m y := by
  unfold memWrite
  split
  · next hv =>
    split
    · next h => subst h; rw [hv, memRead_filter_self]
    · next h => rw [memRead_filter_ne _ h]
  · split
    · next h => subst h; exact memRead_insert_self _ _ _ (by simp)
    · next h => rw [memRead_insert_ne _ _ h, memRead_filter_ne _ h]

theorem memRead_memWrite_self (m : Memory) (x : Nat) (v : Byte) : memRead (memWrite m x v) x = v := by
  simp [memRead_memWrite]

theorem memRead_memWrite_ne (m : Memory) {x y : Nat} (v : Byte) (h : y ≠ x) :
    memRead (memWrite m x v) y = memRead m y := by
  simp [memRead_memWrite, h]

/-- Spoiling a range leaves every byte outside it alone and gives each byte inside its free value. -/
theorem memRead_memSpoil (m : Memory) (base k n y : Nat) :
    memRead (memSpoil m base k n) y =
      if base ≤ y ∧ y < base + n then Config.unspecifiedByte (k + (y - base)) else memRead m y := by
  induction n with
  | zero => simp [memSpoil]
  | succ n ih =>
    rw [memSpoil, memRead_memWrite, ih]
    by_cases h : y = base + n
    · subst h; simp
    · rw [if_neg h]
      by_cases h2 : base ≤ y ∧ y < base + n
      · rw [if_pos h2, if_pos ⟨h2.1, by omega⟩]
      · rw [if_neg h2, if_neg (by omega)]

theorem mem_memInsert {m : Memory} {x : Nat} {v : Byte} {c : Host.Cell} :
    c ∈ memInsert m x v ↔ c = (x, v) ∨ c ∈ m := by
  induction m with
  | nil => simp [memInsert]
  | cons d m ih =>
    obtain ⟨a, b⟩ := d
    unfold memInsert
    split
    · simp
    · simp [ih]; tauto

theorem memInsert_sorted {m : Memory} {x : Nat} {v : Byte} (hm : m.Pairwise (fun c d => c.1 < d.1))
    (hx : ∀ c ∈ m, c.1 ≠ x) : (memInsert m x v).Pairwise (fun c d => c.1 < d.1) := by
  induction m with
  | nil => simp [memInsert]
  | cons d m ih =>
    obtain ⟨a, b⟩ := d
    have ⟨h1, h2⟩ := List.pairwise_cons.mp hm
    have hax : a ≠ x := hx (a, b) (by simp)
    unfold memInsert
    split
    · next hlt =>
      refine List.pairwise_cons.mpr ⟨fun c hc => ?_, hm⟩
      rcases List.mem_cons.mp hc with rfl | hc
      · exact hlt
      · exact Nat.lt_trans hlt (h1 c hc)
    · refine List.pairwise_cons.mpr ⟨fun c hc => ?_, ih h2 (fun c hc => hx c (by simp [hc]))⟩
      rcases mem_memInsert.mp hc with rfl | hc
      · show a < x; omega
      · exact h1 c hc

/-- A write keeps the canonical form. -/
theorem memWrite_wf {m : Memory} (h : m.wf) {x : Nat} (hx : x < 2 ^ 32) (v : Byte) : (memWrite m x v).wf := by
  have hf : Memory.wf (m.filter (fun c => c.1 != x)) :=
    ⟨h.1.filter _, fun c hc => h.2 c (List.mem_of_mem_filter hc)⟩
  unfold memWrite
  dsimp only
  split
  · exact hf
  · next hv =>
    refine ⟨memInsert_sorted hf.1 (by simp), fun c hc => ?_⟩
    rcases mem_memInsert.mp hc with rfl | hc
    · exact ⟨hv, hx⟩
    · exact hf.2 c hc

/-- Spoiling a range of addresses that exist keeps the canonical form. -/
theorem memSpoil_wf {m : Memory} (h : m.wf) {base k n : Nat} (hb : base + n ≤ 2 ^ 32) :
    (memSpoil m base k n).wf := by
  induction n with
  | zero => exact h
  | succ n ih => exact memWrite_wf (ih (by omega)) (by omega) _

theorem memRead_eq_of_mem {m : Memory} (h : m.Pairwise (fun c d => c.1 < d.1)) {a : Nat} {v : Byte}
    (hc : (a, v) ∈ m) : memRead m a = v := by
  induction m with
  | nil => simp at hc
  | cons d m ih =>
    obtain ⟨b, w⟩ := d
    have ⟨h1, h2⟩ := List.pairwise_cons.mp h
    rcases List.mem_cons.mp hc with heq | hc
    · cases heq; simp [memRead]
    · have : b < a := h1 _ hc
      rw [memRead, if_neg (by omega), ih h2 hc]

theorem memRead_of_forall_ne {m : Memory} {a : Nat} (h : ∀ c ∈ m, c.1 ≠ a) : memRead m a = unwrittenByte := by
  induction m with
  | nil => rfl
  | cons d m ih =>
    obtain ⟨b, w⟩ := d
    rw [memRead, if_neg (h (b, w) (by simp)), ih (fun c hc => h c (by simp [hc]))]

/-- In canonical form, equal readings are equal data. -/
theorem memory_ext {m m' : Memory} (h : m.wf) (h' : m'.wf) (hr : ∀ a, memRead m a = memRead m' a) : m = m' := by
  have key : ∀ {m m' : Memory}, m.wf → m'.wf → (∀ a, memRead m a = memRead m' a) → m ⊆ m' := by
    intro m m' h h' hr c hc
    obtain ⟨a, v⟩ := c
    have hv : memRead m' a = v := by rw [← hr a]; exact memRead_eq_of_mem h.1 hc
    by_contra hne
    have : memRead m' a = unwrittenByte := by
      by_cases hex : ∃ w, (a, w) ∈ m'
      · obtain ⟨w, hw⟩ := hex
        have := memRead_eq_of_mem h'.1 hw
        rw [hv] at this; subst this; exact absurd hw hne
      · exact memRead_of_forall_ne (fun c hc he => hex ⟨c.2, by rw [← he]; exact hc⟩)
    exact (h.2 _ hc).1 (by rw [← hv, this])
  have nodup : ∀ {m : Memory}, m.wf → m.Nodup := fun h =>
    h.1.imp (fun hlt he => by rw [he] at hlt; exact Nat.lt_irrefl _ hlt)
  refine List.Perm.eq_of_pairwise (le := fun c d => c.1 < d.1) (fun a b _ _ h1 h2 => ?_) h.1 h'.1 ?_
  · exact absurd (Nat.lt_trans h1 h2) (Nat.lt_irrefl _)
  · exact (List.perm_ext_iff_of_nodup (nodup h) (nodup h')).mpr
      (fun c => ⟨fun hc => key h h' hr hc, fun hc => key h' h (fun a => (hr a).symm) hc⟩)

end Sys2Proof.Machine
end

