-- ==== Sys2Proof/Laws/State.lean ====
section
/-! SUPPORT. What each named update of the state does to each field, one lemma a field, true by rfl. -/

namespace Sys2Proof.Machine

/-! ### freeAll -/

@[simp] theorem freeAll_busy (s : State) : (freeAll s).busy = s.busy := rfl
@[simp] theorem freeAll_done (s : State) : (freeAll s).done = s.done := rfl
@[simp] theorem freeAll_err (s : State) : (freeAll s).err = s.err := rfl
@[simp] theorem freeAll_treeSrc (s : State) : (freeAll s).treeSrc = s.treeSrc := rfl
@[simp] theorem freeAll_codesValid (s : State) : (freeAll s).codesValid = s.codesValid := rfl
@[simp] theorem freeAll_stage (s : State) : (freeAll s).stage = s.stage := rfl
@[simp] theorem freeAll_op (s : State) : (freeAll s).op = s.op := rfl
@[simp] theorem freeAll_ieDone (s : State) : (freeAll s).ieDone = s.ieDone := rfl
@[simp] theorem freeAll_ieErr (s : State) : (freeAll s).ieErr = s.ieErr := rfl
@[simp] theorem freeAll_errCode (s : State) : (freeAll s).errCode = s.errCode := rfl
@[simp] theorem freeAll_errInfo (s : State) : (freeAll s).errInfo = s.errInfo := rfl
@[simp] theorem freeAll_srcBase (s : State) : (freeAll s).srcBase = s.srcBase := rfl
@[simp] theorem freeAll_srcLen (s : State) : (freeAll s).srcLen = s.srcLen := rfl
@[simp] theorem freeAll_dstBase (s : State) : (freeAll s).dstBase = s.dstBase := rfl
@[simp] theorem freeAll_dstCap (s : State) : (freeAll s).dstCap = s.dstCap := rfl
@[simp] theorem freeAll_dstLen (s : State) : (freeAll s).dstLen = s.dstLen := rfl
@[simp] theorem freeAll_nsym (s : State) : (freeAll s).nsym = s.nsym := rfl
@[simp] theorem freeAll_root (s : State) : (freeAll s).root = Config.nil := rfl
@[simp] theorem freeAll_nodeSel (s : State) : (freeAll s).nodeSel = s.nodeSel := rfl
@[simp] theorem freeAll_nodes (s : State) : (freeAll s).nodes = [] := rfl
@[simp] theorem freeAll_freq (s : State) : (freeAll s).freq = s.freq := rfl
@[simp] theorem freeAll_code (s : State) : (freeAll s).code = s.code := rfl
@[simp] theorem freeAll_mem (s : State) : (freeAll s).mem = s.mem := rfl
@[simp] theorem freeAll_script (s : State) : (freeAll s).script = s.script := rfl
@[simp] theorem freeAll_replies (s : State) : (freeAll s).replies = s.replies := rfl
@[simp] theorem freeAll_inFlight (s : State) : (freeAll s).inFlight = s.inFlight := rfl
@[simp] theorem freeAll_freeCount (s : State) : (freeAll s).freeCount = s.freeCount := rfl

/-! ### sessionClear -/

@[simp] theorem sessionClear_busy (s : State) : (sessionClear s).busy = s.busy := rfl
@[simp] theorem sessionClear_done (s : State) : (sessionClear s).done = s.done := rfl
@[simp] theorem sessionClear_err (s : State) : (sessionClear s).err = s.err := rfl
@[simp] theorem sessionClear_treeSrc (s : State) : (sessionClear s).treeSrc = .none := rfl
@[simp] theorem sessionClear_codesValid (s : State) : (sessionClear s).codesValid = false := rfl
@[simp] theorem sessionClear_stage (s : State) : (sessionClear s).stage = s.stage := rfl
@[simp] theorem sessionClear_op (s : State) : (sessionClear s).op = s.op := rfl
@[simp] theorem sessionClear_ieDone (s : State) : (sessionClear s).ieDone = s.ieDone := rfl
@[simp] theorem sessionClear_ieErr (s : State) : (sessionClear s).ieErr = s.ieErr := rfl
@[simp] theorem sessionClear_errCode (s : State) : (sessionClear s).errCode = s.errCode := rfl
@[simp] theorem sessionClear_errInfo (s : State) : (sessionClear s).errInfo = s.errInfo := rfl
@[simp] theorem sessionClear_srcBase (s : State) : (sessionClear s).srcBase = s.srcBase := rfl
@[simp] theorem sessionClear_srcLen (s : State) : (sessionClear s).srcLen = s.srcLen := rfl
@[simp] theorem sessionClear_dstBase (s : State) : (sessionClear s).dstBase = s.dstBase := rfl
@[simp] theorem sessionClear_dstCap (s : State) : (sessionClear s).dstCap = s.dstCap := rfl
@[simp] theorem sessionClear_dstLen (s : State) : (sessionClear s).dstLen = 0 := rfl
@[simp] theorem sessionClear_nsym (s : State) : (sessionClear s).nsym = 0 := rfl
@[simp] theorem sessionClear_root (s : State) : (sessionClear s).root = Config.nil := rfl
@[simp] theorem sessionClear_nodeSel (s : State) : (sessionClear s).nodeSel = s.nodeSel := rfl
@[simp] theorem sessionClear_nodes (s : State) : (sessionClear s).nodes = [] := rfl
@[simp] theorem sessionClear_freq (s : State) : (sessionClear s).freq = freqZero := rfl
@[simp] theorem sessionClear_code (s : State) : (sessionClear s).code = codeZero := rfl
@[simp] theorem sessionClear_mem (s : State) : (sessionClear s).mem = s.mem := rfl
@[simp] theorem sessionClear_script (s : State) : (sessionClear s).script = s.script := rfl
@[simp] theorem sessionClear_replies (s : State) : (sessionClear s).replies = s.replies := rfl
@[simp] theorem sessionClear_inFlight (s : State) : (sessionClear s).inFlight = s.inFlight := rfl
@[simp] theorem sessionClear_freeCount (s : State) : (sessionClear s).freeCount = s.freeCount := rfl

/-! ### leaveFault -/

@[simp] theorem leaveFault_busy (s : State) : (leaveFault s).busy = s.busy := rfl
@[simp] theorem leaveFault_done (s : State) : (leaveFault s).done = s.done := rfl
@[simp] theorem leaveFault_err (s : State) : (leaveFault s).err = false := rfl
@[simp] theorem leaveFault_treeSrc (s : State) : (leaveFault s).treeSrc = s.treeSrc := rfl
@[simp] theorem leaveFault_codesValid (s : State) : (leaveFault s).codesValid = s.codesValid := rfl
@[simp] theorem leaveFault_stage (s : State) : (leaveFault s).stage = s.stage := rfl
@[simp] theorem leaveFault_op (s : State) : (leaveFault s).op = s.op := rfl
@[simp] theorem leaveFault_ieDone (s : State) : (leaveFault s).ieDone = s.ieDone := rfl
@[simp] theorem leaveFault_ieErr (s : State) : (leaveFault s).ieErr = s.ieErr := rfl
@[simp] theorem leaveFault_errCode (s : State) : (leaveFault s).errCode = 0 := rfl
@[simp] theorem leaveFault_errInfo (s : State) : (leaveFault s).errInfo = 0 := rfl
@[simp] theorem leaveFault_srcBase (s : State) : (leaveFault s).srcBase = s.srcBase := rfl
@[simp] theorem leaveFault_srcLen (s : State) : (leaveFault s).srcLen = s.srcLen := rfl
@[simp] theorem leaveFault_dstBase (s : State) : (leaveFault s).dstBase = s.dstBase := rfl
@[simp] theorem leaveFault_dstCap (s : State) : (leaveFault s).dstCap = s.dstCap := rfl
@[simp] theorem leaveFault_dstLen (s : State) : (leaveFault s).dstLen = s.dstLen := rfl
@[simp] theorem leaveFault_nsym (s : State) : (leaveFault s).nsym = s.nsym := rfl
@[simp] theorem leaveFault_root (s : State) : (leaveFault s).root = s.root := rfl
@[simp] theorem leaveFault_nodeSel (s : State) : (leaveFault s).nodeSel = s.nodeSel := rfl
@[simp] theorem leaveFault_nodes (s : State) : (leaveFault s).nodes = s.nodes := rfl
@[simp] theorem leaveFault_freq (s : State) : (leaveFault s).freq = s.freq := rfl
@[simp] theorem leaveFault_code (s : State) : (leaveFault s).code = s.code := rfl
@[simp] theorem leaveFault_mem (s : State) : (leaveFault s).mem = s.mem := rfl
@[simp] theorem leaveFault_script (s : State) : (leaveFault s).script = s.script := rfl
@[simp] theorem leaveFault_replies (s : State) : (leaveFault s).replies = s.replies := rfl
@[simp] theorem leaveFault_inFlight (s : State) : (leaveFault s).inFlight = s.inFlight := rfl
@[simp] theorem leaveFault_freeCount (s : State) : (leaveFault s).freeCount = s.freeCount := rfl

/-! ### faultEntry -/

@[simp] theorem faultEntry_busy (e : ErrName) (v : Word) (s : State) : (faultEntry e v s).busy = false := rfl
@[simp] theorem faultEntry_done (e : ErrName) (v : Word) (s : State) : (faultEntry e v s).done = false := rfl
@[simp] theorem faultEntry_err (e : ErrName) (v : Word) (s : State) : (faultEntry e v s).err = true := rfl
@[simp] theorem faultEntry_treeSrc (e : ErrName) (v : Word) (s : State) : (faultEntry e v s).treeSrc = .none := rfl
@[simp] theorem faultEntry_codesValid (e : ErrName) (v : Word) (s : State) : (faultEntry e v s).codesValid = false := rfl
@[simp] theorem faultEntry_stage (e : ErrName) (v : Word) (s : State) : (faultEntry e v s).stage = .idle := rfl
@[simp] theorem faultEntry_op (e : ErrName) (v : Word) (s : State) : (faultEntry e v s).op = s.op := rfl
@[simp] theorem faultEntry_ieDone (e : ErrName) (v : Word) (s : State) : (faultEntry e v s).ieDone = s.ieDone := rfl
@[simp] theorem faultEntry_ieErr (e : ErrName) (v : Word) (s : State) : (faultEntry e v s).ieErr = s.ieErr := rfl
@[simp] theorem faultEntry_errCode (e : ErrName) (v : Word) (s : State) : (faultEntry e v s).errCode = e.code := rfl
@[simp] theorem faultEntry_errInfo (e : ErrName) (v : Word) (s : State) : (faultEntry e v s).errInfo = v := rfl
@[simp] theorem faultEntry_srcBase (e : ErrName) (v : Word) (s : State) : (faultEntry e v s).srcBase = s.srcBase := rfl
@[simp] theorem faultEntry_srcLen (e : ErrName) (v : Word) (s : State) : (faultEntry e v s).srcLen = s.srcLen := rfl
@[simp] theorem faultEntry_dstBase (e : ErrName) (v : Word) (s : State) : (faultEntry e v s).dstBase = s.dstBase := rfl
@[simp] theorem faultEntry_dstCap (e : ErrName) (v : Word) (s : State) : (faultEntry e v s).dstCap = s.dstCap := rfl
@[simp] theorem faultEntry_dstLen (e : ErrName) (v : Word) (s : State) : (faultEntry e v s).dstLen = 0 := rfl
@[simp] theorem faultEntry_nsym (e : ErrName) (v : Word) (s : State) : (faultEntry e v s).nsym = 0 := rfl
@[simp] theorem faultEntry_root (e : ErrName) (v : Word) (s : State) : (faultEntry e v s).root = Config.nil := rfl
@[simp] theorem faultEntry_nodeSel (e : ErrName) (v : Word) (s : State) : (faultEntry e v s).nodeSel = s.nodeSel := rfl
@[simp] theorem faultEntry_nodes (e : ErrName) (v : Word) (s : State) : (faultEntry e v s).nodes = [] := rfl
@[simp] theorem faultEntry_freq (e : ErrName) (v : Word) (s : State) : (faultEntry e v s).freq = freqZero := rfl
@[simp] theorem faultEntry_code (e : ErrName) (v : Word) (s : State) : (faultEntry e v s).code = codeZero := rfl
@[simp] theorem faultEntry_mem (e : ErrName) (v : Word) (s : State) : (faultEntry e v s).mem = s.mem := rfl
@[simp] theorem faultEntry_script (e : ErrName) (v : Word) (s : State) : (faultEntry e v s).script = s.script := rfl
@[simp] theorem faultEntry_replies (e : ErrName) (v : Word) (s : State) : (faultEntry e v s).replies = s.replies := rfl
@[simp] theorem faultEntry_inFlight (e : ErrName) (v : Word) (s : State) : (faultEntry e v s).inFlight = s.inFlight := rfl
@[simp] theorem faultEntry_freeCount (e : ErrName) (v : Word) (s : State) : (faultEntry e v s).freeCount = s.freeCount := rfl

/-! ### spoilDst -/

@[simp] theorem spoilDst_busy (s : State) : (spoilDst s).busy = s.busy := rfl
@[simp] theorem spoilDst_done (s : State) : (spoilDst s).done = s.done := rfl
@[simp] theorem spoilDst_err (s : State) : (spoilDst s).err = s.err := rfl
@[simp] theorem spoilDst_treeSrc (s : State) : (spoilDst s).treeSrc = s.treeSrc := rfl
@[simp] theorem spoilDst_codesValid (s : State) : (spoilDst s).codesValid = s.codesValid := rfl
@[simp] theorem spoilDst_stage (s : State) : (spoilDst s).stage = s.stage := rfl
@[simp] theorem spoilDst_op (s : State) : (spoilDst s).op = s.op := rfl
@[simp] theorem spoilDst_ieDone (s : State) : (spoilDst s).ieDone = s.ieDone := rfl
@[simp] theorem spoilDst_ieErr (s : State) : (spoilDst s).ieErr = s.ieErr := rfl
@[simp] theorem spoilDst_errCode (s : State) : (spoilDst s).errCode = s.errCode := rfl
@[simp] theorem spoilDst_errInfo (s : State) : (spoilDst s).errInfo = s.errInfo := rfl
@[simp] theorem spoilDst_srcBase (s : State) : (spoilDst s).srcBase = s.srcBase := rfl
@[simp] theorem spoilDst_srcLen (s : State) : (spoilDst s).srcLen = s.srcLen := rfl
@[simp] theorem spoilDst_dstBase (s : State) : (spoilDst s).dstBase = s.dstBase := rfl
@[simp] theorem spoilDst_dstCap (s : State) : (spoilDst s).dstCap = s.dstCap := rfl
@[simp] theorem spoilDst_dstLen (s : State) : (spoilDst s).dstLen = s.dstLen := rfl
@[simp] theorem spoilDst_nsym (s : State) : (spoilDst s).nsym = s.nsym := rfl
@[simp] theorem spoilDst_root (s : State) : (spoilDst s).root = s.root := rfl
@[simp] theorem spoilDst_nodeSel (s : State) : (spoilDst s).nodeSel = s.nodeSel := rfl
@[simp] theorem spoilDst_nodes (s : State) : (spoilDst s).nodes = s.nodes := rfl
@[simp] theorem spoilDst_freq (s : State) : (spoilDst s).freq = s.freq := rfl
@[simp] theorem spoilDst_code (s : State) : (spoilDst s).code = s.code := rfl
@[simp] theorem spoilDst_mem (s : State) : (spoilDst s).mem = memSpoil s.mem s.dstBase.toNat s.freeCount (dstBytes s) := rfl
@[simp] theorem spoilDst_script (s : State) : (spoilDst s).script = s.script := rfl
@[simp] theorem spoilDst_replies (s : State) : (spoilDst s).replies = s.replies := rfl
@[simp] theorem spoilDst_inFlight (s : State) : (spoilDst s).inFlight = s.inFlight := rfl
@[simp] theorem spoilDst_freeCount (s : State) : (spoilDst s).freeCount = s.freeCount + dstBytes s := rfl

/-! ### accept -/

@[simp] theorem accept_busy (i : Instr) (s : State) : (accept i s).busy = true := rfl
@[simp] theorem accept_done (i : Instr) (s : State) : (accept i s).done = false := rfl
@[simp] theorem accept_err (i : Instr) (s : State) : (accept i s).err = s.err := rfl
@[simp] theorem accept_treeSrc (i : Instr) (s : State) : (accept i s).treeSrc = s.treeSrc := rfl
@[simp] theorem accept_codesValid (i : Instr) (s : State) : (accept i s).codesValid = s.codesValid := rfl
@[simp] theorem accept_stage (i : Instr) (s : State) : (accept i s).stage = i.firstStage := rfl
@[simp] theorem accept_op (i : Instr) (s : State) : (accept i s).op = i.opcode := rfl
@[simp] theorem accept_ieDone (i : Instr) (s : State) : (accept i s).ieDone = s.ieDone := rfl
@[simp] theorem accept_ieErr (i : Instr) (s : State) : (accept i s).ieErr = s.ieErr := rfl
@[simp] theorem accept_errCode (i : Instr) (s : State) : (accept i s).errCode = s.errCode := rfl
@[simp] theorem accept_errInfo (i : Instr) (s : State) : (accept i s).errInfo = s.errInfo := rfl
@[simp] theorem accept_srcBase (i : Instr) (s : State) : (accept i s).srcBase = s.srcBase := rfl
@[simp] theorem accept_srcLen (i : Instr) (s : State) : (accept i s).srcLen = s.srcLen := rfl
@[simp] theorem accept_dstBase (i : Instr) (s : State) : (accept i s).dstBase = s.dstBase := rfl
@[simp] theorem accept_dstCap (i : Instr) (s : State) : (accept i s).dstCap = s.dstCap := rfl
@[simp] theorem accept_dstLen (i : Instr) (s : State) : (accept i s).dstLen = s.dstLen := rfl
@[simp] theorem accept_nsym (i : Instr) (s : State) : (accept i s).nsym = s.nsym := rfl
@[simp] theorem accept_root (i : Instr) (s : State) : (accept i s).root = s.root := rfl
@[simp] theorem accept_nodeSel (i : Instr) (s : State) : (accept i s).nodeSel = s.nodeSel := rfl
@[simp] theorem accept_nodes (i : Instr) (s : State) : (accept i s).nodes = s.nodes := rfl
@[simp] theorem accept_freq (i : Instr) (s : State) : (accept i s).freq = s.freq := rfl
@[simp] theorem accept_code (i : Instr) (s : State) : (accept i s).code = s.code := rfl
@[simp] theorem accept_mem (i : Instr) (s : State) : (accept i s).mem = s.mem := rfl
@[simp] theorem accept_script (i : Instr) (s : State) : (accept i s).script = s.script := rfl
@[simp] theorem accept_replies (i : Instr) (s : State) : (accept i s).replies = s.replies := rfl
@[simp] theorem accept_inFlight (i : Instr) (s : State) : (accept i s).inFlight = windowsOf s :: s.inFlight := rfl
@[simp] theorem accept_freeCount (i : Instr) (s : State) : (accept i s).freeCount = s.freeCount := rfl

/-! ### advance_some -/

@[simp] theorem advance_some_busy (st : Stage) (s : State) : (advance (some st) s).busy = s.busy := rfl
@[simp] theorem advance_some_done (st : Stage) (s : State) : (advance (some st) s).done = s.done := rfl
@[simp] theorem advance_some_err (st : Stage) (s : State) : (advance (some st) s).err = s.err := rfl
@[simp] theorem advance_some_treeSrc (st : Stage) (s : State) : (advance (some st) s).treeSrc = s.treeSrc := rfl
@[simp] theorem advance_some_codesValid (st : Stage) (s : State) : (advance (some st) s).codesValid = s.codesValid := rfl
@[simp] theorem advance_some_stage (st : Stage) (s : State) : (advance (some st) s).stage = st := rfl
@[simp] theorem advance_some_op (st : Stage) (s : State) : (advance (some st) s).op = s.op := rfl
@[simp] theorem advance_some_ieDone (st : Stage) (s : State) : (advance (some st) s).ieDone = s.ieDone := rfl
@[simp] theorem advance_some_ieErr (st : Stage) (s : State) : (advance (some st) s).ieErr = s.ieErr := rfl
@[simp] theorem advance_some_errCode (st : Stage) (s : State) : (advance (some st) s).errCode = s.errCode := rfl
@[simp] theorem advance_some_errInfo (st : Stage) (s : State) : (advance (some st) s).errInfo = s.errInfo := rfl
@[simp] theorem advance_some_srcBase (st : Stage) (s : State) : (advance (some st) s).srcBase = s.srcBase := rfl
@[simp] theorem advance_some_srcLen (st : Stage) (s : State) : (advance (some st) s).srcLen = s.srcLen := rfl
@[simp] theorem advance_some_dstBase (st : Stage) (s : State) : (advance (some st) s).dstBase = s.dstBase := rfl
@[simp] theorem advance_some_dstCap (st : Stage) (s : State) : (advance (some st) s).dstCap = s.dstCap := rfl
@[simp] theorem advance_some_dstLen (st : Stage) (s : State) : (advance (some st) s).dstLen = s.dstLen := rfl
@[simp] theorem advance_some_nsym (st : Stage) (s : State) : (advance (some st) s).nsym = s.nsym := rfl
@[simp] theorem advance_some_root (st : Stage) (s : State) : (advance (some st) s).root = s.root := rfl
@[simp] theorem advance_some_nodeSel (st : Stage) (s : State) : (advance (some st) s).nodeSel = s.nodeSel := rfl
@[simp] theorem advance_some_nodes (st : Stage) (s : State) : (advance (some st) s).nodes = s.nodes := rfl
@[simp] theorem advance_some_freq (st : Stage) (s : State) : (advance (some st) s).freq = s.freq := rfl
@[simp] theorem advance_some_code (st : Stage) (s : State) : (advance (some st) s).code = s.code := rfl
@[simp] theorem advance_some_mem (st : Stage) (s : State) : (advance (some st) s).mem = s.mem := rfl
@[simp] theorem advance_some_script (st : Stage) (s : State) : (advance (some st) s).script = s.script := rfl
@[simp] theorem advance_some_replies (st : Stage) (s : State) : (advance (some st) s).replies = s.replies := rfl
@[simp] theorem advance_some_inFlight (st : Stage) (s : State) : (advance (some st) s).inFlight = s.inFlight := rfl
@[simp] theorem advance_some_freeCount (st : Stage) (s : State) : (advance (some st) s).freeCount = s.freeCount := rfl

/-! ### advance_none -/

@[simp] theorem advance_none_busy (s : State) : (advance none s).busy = false := rfl
@[simp] theorem advance_none_done (s : State) : (advance none s).done = true := rfl
@[simp] theorem advance_none_err (s : State) : (advance none s).err = s.err := rfl
@[simp] theorem advance_none_treeSrc (s : State) : (advance none s).treeSrc = s.treeSrc := rfl
@[simp] theorem advance_none_codesValid (s : State) : (advance none s).codesValid = s.codesValid := rfl
@[simp] theorem advance_none_stage (s : State) : (advance none s).stage = .idle := rfl
@[simp] theorem advance_none_op (s : State) : (advance none s).op = s.op := rfl
@[simp] theorem advance_none_ieDone (s : State) : (advance none s).ieDone = s.ieDone := rfl
@[simp] theorem advance_none_ieErr (s : State) : (advance none s).ieErr = s.ieErr := rfl
@[simp] theorem advance_none_errCode (s : State) : (advance none s).errCode = s.errCode := rfl
@[simp] theorem advance_none_errInfo (s : State) : (advance none s).errInfo = s.errInfo := rfl
@[simp] theorem advance_none_srcBase (s : State) : (advance none s).srcBase = s.srcBase := rfl
@[simp] theorem advance_none_srcLen (s : State) : (advance none s).srcLen = s.srcLen := rfl
@[simp] theorem advance_none_dstBase (s : State) : (advance none s).dstBase = s.dstBase := rfl
@[simp] theorem advance_none_dstCap (s : State) : (advance none s).dstCap = s.dstCap := rfl
@[simp] theorem advance_none_dstLen (s : State) : (advance none s).dstLen = s.dstLen := rfl
@[simp] theorem advance_none_nsym (s : State) : (advance none s).nsym = s.nsym := rfl
@[simp] theorem advance_none_root (s : State) : (advance none s).root = s.root := rfl
@[simp] theorem advance_none_nodeSel (s : State) : (advance none s).nodeSel = s.nodeSel := rfl
@[simp] theorem advance_none_nodes (s : State) : (advance none s).nodes = s.nodes := rfl
@[simp] theorem advance_none_freq (s : State) : (advance none s).freq = s.freq := rfl
@[simp] theorem advance_none_code (s : State) : (advance none s).code = s.code := rfl
@[simp] theorem advance_none_mem (s : State) : (advance none s).mem = s.mem := rfl
@[simp] theorem advance_none_script (s : State) : (advance none s).script = s.script := rfl
@[simp] theorem advance_none_replies (s : State) : (advance none s).replies = s.replies := rfl
@[simp] theorem advance_none_inFlight (s : State) : (advance none s).inFlight = s.inFlight := rfl
@[simp] theorem advance_none_freeCount (s : State) : (advance none s).freeCount = s.freeCount := rfl

/-! ### seenIdle -/

@[simp] theorem seenIdle_busy (s : State) : (seenIdle s).busy = s.busy := rfl
@[simp] theorem seenIdle_done (s : State) : (seenIdle s).done = s.done := rfl
@[simp] theorem seenIdle_err (s : State) : (seenIdle s).err = s.err := rfl
@[simp] theorem seenIdle_treeSrc (s : State) : (seenIdle s).treeSrc = s.treeSrc := rfl
@[simp] theorem seenIdle_codesValid (s : State) : (seenIdle s).codesValid = s.codesValid := rfl
@[simp] theorem seenIdle_stage (s : State) : (seenIdle s).stage = s.stage := rfl
@[simp] theorem seenIdle_op (s : State) : (seenIdle s).op = s.op := rfl
@[simp] theorem seenIdle_ieDone (s : State) : (seenIdle s).ieDone = s.ieDone := rfl
@[simp] theorem seenIdle_ieErr (s : State) : (seenIdle s).ieErr = s.ieErr := rfl
@[simp] theorem seenIdle_errCode (s : State) : (seenIdle s).errCode = s.errCode := rfl
@[simp] theorem seenIdle_errInfo (s : State) : (seenIdle s).errInfo = s.errInfo := rfl
@[simp] theorem seenIdle_srcBase (s : State) : (seenIdle s).srcBase = s.srcBase := rfl
@[simp] theorem seenIdle_srcLen (s : State) : (seenIdle s).srcLen = s.srcLen := rfl
@[simp] theorem seenIdle_dstBase (s : State) : (seenIdle s).dstBase = s.dstBase := rfl
@[simp] theorem seenIdle_dstCap (s : State) : (seenIdle s).dstCap = s.dstCap := rfl
@[simp] theorem seenIdle_dstLen (s : State) : (seenIdle s).dstLen = s.dstLen := rfl
@[simp] theorem seenIdle_nsym (s : State) : (seenIdle s).nsym = s.nsym := rfl
@[simp] theorem seenIdle_root (s : State) : (seenIdle s).root = s.root := rfl
@[simp] theorem seenIdle_nodeSel (s : State) : (seenIdle s).nodeSel = s.nodeSel := rfl
@[simp] theorem seenIdle_nodes (s : State) : (seenIdle s).nodes = s.nodes := rfl
@[simp] theorem seenIdle_freq (s : State) : (seenIdle s).freq = s.freq := rfl
@[simp] theorem seenIdle_code (s : State) : (seenIdle s).code = s.code := rfl
@[simp] theorem seenIdle_mem (s : State) : (seenIdle s).mem = s.mem := rfl
@[simp] theorem seenIdle_script (s : State) : (seenIdle s).script = s.script := rfl
@[simp] theorem seenIdle_replies (s : State) : (seenIdle s).replies = s.replies := rfl
@[simp] theorem seenIdle_inFlight (s : State) : (seenIdle s).inFlight = [] := rfl
@[simp] theorem seenIdle_freeCount (s : State) : (seenIdle s).freeCount = s.freeCount := rfl

end Sys2Proof.Machine
end

