-- ==== Sys2Proof/Laws/Control.lean ====
section
/-! SUPPORT. The laws of control: how a stage's steps chain, what one step of a command can do (spec/10_state.md R27,
spec/60_exceptions.md R230), and fetching the command in OP. -/

namespace Sys2Proof.Machine

/-! ### Chaining -/

theorem bind_ok_iff {α β : Type} {x : Except Stop α} {f : α → Except Stop β} {r : β} :
    (x >>= f) = .ok r ↔ ∃ a, x = .ok a ∧ f a = .ok r := by
  cases x <;> simp [bind, Except.bind]

theorem bind_error_iff {α β : Type} {x : Except Stop α} {f : α → Except Stop β} {e : Stop} :
    (x >>= f) = .error e ↔ x = .error e ∨ ∃ a, x = .ok a ∧ f a = .error e := by
  cases x <;> simp [bind, Except.bind]

@[simp] theorem ok_bind {α β : Type} (a : α) (f : α → Except Stop β) : (Except.ok a >>= f) = f a := rfl

@[simp] theorem error_bind {α β : Type} (e : Stop) (f : α → Except Stop β) :
    ((Except.error e : Except Stop α) >>= f) = .error e := rfl

@[simp] theorem raise_bind {α β : Type} (e : ErrName) (v : Nat) (f : α → Except Stop β) :
    ((raise e v : Except Stop α) >>= f) = raise e v := rfl

theorem require_true {p : Prop} [Decidable p] (h : p) (e : ErrName) (v : Nat) : require p e v = .ok () := by
  simp [require, h]

theorem require_false {p : Prop} [Decidable p] (h : ¬ p) (e : ErrName) (v : Nat) :
    require p e v = raise e v := by
  simp [require, h]

theorem require_ok_iff {p : Prop} [Decidable p] {e : ErrName} {v : Nat} {u : Unit} :
    require p e v = .ok u ↔ p := by
  unfold require raise
  split <;> simp_all

theorem require_error_iff {p : Prop} [Decidable p] {e : ErrName} {v : Nat} {r : Stop} :
    require p e v = .error r ↔ ¬ p ∧ r = .raised e (BitVec.ofNat 32 v) := by
  unfold require raise
  split <;> simp_all [eq_comm]

theorem raise_ne_ok {α : Type} {e : ErrName} {v : Nat} {a : α} : (raise e v : Except Stop α) ≠ .ok a := by
  simp [raise]

/-! ### One step of a command -/

theorem commandStep_ok {run : List (Stage × StageFn)} {s s' : State} {f : StageFn} (hb : s.busy = true)
    (hf : stageFnOf s.stage run = some f) (h : f s = .ok s') :
    commandStep run s = .next (advance (nextStage (run.map Prod.fst) s.stage) s') := by
  simp [commandStep, hb, hf, h]

theorem commandStep_raised {run : List (Stage × StageFn)} {s : State} {f : StageFn} {e : ErrName} {v : Word}
    (hb : s.busy = true) (hf : stageFnOf s.stage run = some f) (h : f s = .error (.raised e v)) :
    commandStep run s = .next (takeFault s.stage e v s) := by
  simp [commandStep, hb, hf, h]

/-- Everything one step of a command can do when it answers a next state. -/
theorem commandStep_next {run : List (Stage × StageFn)} {s t : State} (h : commandStep run s = .next t) :
    s.busy = true ∧ ∃ f, stageFnOf s.stage run = some f ∧
      ((∃ s', f s = .ok s' ∧ t = advance (nextStage (run.map Prod.fst) s.stage) s') ∨
        ∃ e v, f s = .error (.raised e v) ∧ t = takeFault s.stage e v s) := by
  unfold commandStep at h
  split at h
  · simp at h
  · next hb =>
    refine ⟨by simpa using hb, ?_⟩
    split at h
    · simp at h
    · next f hf =>
      refine ⟨f, hf, ?_⟩
      split at h
      · next s' hs => exact .inl ⟨s', hs, by simpa using h.symm⟩
      · next e v hs => exact .inr ⟨e, v, hs, by simpa using h.symm⟩
      · simp at h

/-- Everything one step of a command can do when it stops. -/
theorem commandStep_fault {run : List (Stage × StageFn)} {s : State} {r : Fault} (h : commandStep run s = .fault r) :
    s.busy = false ∨ stageFnOf s.stage run = none ∨
      ∃ f, stageFnOf s.stage run = some f ∧ f s = .error (.stuck r) := by
  unfold commandStep at h
  split at h
  · next hb => exact .inl hb
  · split at h
    · next hf => exact .inr (.inl hf)
    · next f hf =>
      split at h
      · simp at h
      · simp at h
      · next r' hs => simp at h; subst h; exact .inr (.inr ⟨f, hf, hs⟩)

theorem commandStep_not_refused {run : List (Stage × StageFn)} {s : State} {r : Refusal} :
    commandStep run s ≠ .refused r := by
  intro h
  unfold commandStep at h
  split at h
  · simp at h
  · split at h
    · simp at h
    · split at h <;> simp at h

/-! ### The fault of a stage, field by field -/

theorem takeFault_eq (st : Stage) (e : ErrName) (v : Word) (s : State) :
    takeFault st e v s =
      { faultEntry e v s with
        mem := if spoilsDst st e then memSpoil s.mem s.dstBase.toNat s.freeCount (dstBytes s) else s.mem
        freeCount := if spoilsDst st e then s.freeCount + dstBytes s else s.freeCount } := by
  unfold takeFault
  split <;> rfl

theorem advance_cases (n : Option Stage) (s : State) :
    (∃ st, n = some st ∧ advance n s = { s with stage := st }) ∨
      (n = none ∧ advance n s = { s with stage := .idle, busy := false, done := true }) := by
  cases n <;> simp [advance]

/-! ### Fetching the command -/

theorem fetch_opcode (i : Instr) : decode (i.opcode.setWidth 32) = .ok i := by
  cases i <;> rfl

theorem fetchCommand_of_op {s : State} {i : Instr} (h : s.op = i.opcode) : fetchCommand s = some i := by
  unfold fetchCommand
  rw [h, fetch_opcode]

theorem decodeOpcode_ok {o : Byte} {i : Instr} (h : decodeOpcode o = .ok i) : o = i.opcode := by
  unfold decodeOpcode at h
  have ho : o = BitVec.ofNat 8 o.toNat := by simp
  split at h <;> simp at h <;> subst h <;> rw [ho] <;> simp_all [Instr.opcode]

theorem fetchCommand_some {s : State} {i : Instr} (h : fetchCommand s = some i) : s.op = i.opcode := by
  unfold fetchCommand at h
  split at h
  · next j hj =>
    simp at h; subst h
    unfold decode at hj
    split at hj
    · have := decodeOpcode_ok hj
      rw [← this]
      exact BitVec.eq_of_toNat_eq (by simp; omega)
    · simp at hj
  · simp at h

theorem opcode_injective {i j : Instr} (h : i.opcode = j.opcode) : i = j := by
  cases i <;> cases j <;> first | rfl | simp [Instr.opcode] at h

theorem encode_toNat (i : Instr) : (encode i).toNat = i.opcode.toNat := by
  cases i <;> rfl

/-- The decoder accepts no word but the command words (R84). -/
theorem eq_encode_of_decode {w : Word} {i : Instr} (h : decode w = .ok i) : w = encode i := by
  unfold decode at h
  split at h
  · next hz =>
    have ho := congrArg BitVec.toNat (decodeOpcode_ok h)
    have hz := congrArg BitVec.toNat hz
    simp [BitVec.extractLsb'_toNat, Nat.shiftRight_eq_div_pow] at hz ho
    exact BitVec.eq_of_toNat_eq (by rw [encode_toNat, ← ho]; omega)
  · simp at h

theorem decode_encode (i : Instr) : decode (encode i) = .ok i := by
  cases i <;> rfl

end Sys2Proof.Machine
end

