-- ==== Sys2Proof/Laws/Nodes.lean ====
section
/-! SUPPORT. The laws of the NODE table (spec/10_state.md R40 to R42): a record after an allocation and after a record is
replaced. -/

namespace Sys2Proof.Machine

theorem idx_toNat {i : Nat} (h : i < 32768) : (BitVec.ofNat 15 i).toNat = i := by
  rw [BitVec.toNat_ofNat]; exact Nat.mod_eq_of_lt h

theorem idx_ne_nil {i : Nat} (h : i < 32767) : BitVec.ofNat 15 i ≠ Config.nil := by
  intro h0
  have := congrArg BitVec.toNat h0
  rw [idx_toNat (by omega)] at this
  simp [Config.nil] at this
  omega

theorem nodeNo_eq_getD {nodes : List Node} {i : Nat} (h : i < 32768) : nodeNo nodes i = nodes.getD i Node.freeRecord := by
  rw [nodeNo, nodeAt, idx_toNat h]

theorem nodeNo_toNat (nodes : List Node) (i : NodeIdx) : nodeNo nodes i.toNat = nodeAt nodes i := by
  rw [nodeNo]; simp

theorem nodeNo_eq_getElem {nodes : List Node} {i : Nat} (h : i < nodes.length) (hl : nodes.length ≤ 32768) :
    nodeNo nodes i = nodes[i] := by
  rw [nodeNo_eq_getD (by omega), List.getD_eq_getElem _ _ h]

theorem nodeNo_of_ge {nodes : List Node} {i : Nat} (h : nodes.length ≤ i) (hi : i < 32768) :
    nodeNo nodes i = Node.freeRecord := by
  rw [nodeNo_eq_getD hi, List.getD_eq_default _ _ h]

/-- An allocation leaves the records allocated before it alone (R42). -/
theorem nodeNo_alloc_lt {nodes : List Node} {r : Node} {i : Nat} (h : i < nodes.length) (hl : nodes.length ≤ 32768) :
    nodeNo (nodes ++ [r]) i = nodeNo nodes i := by
  rw [nodeNo_eq_getD (by omega), nodeNo_eq_getD (by omega), List.getD_eq_getElem _ _ (by simp; omega),
    List.getD_eq_getElem _ _ h, List.getElem_append_left h]

/-- The record just allocated (R42). -/
theorem nodeNo_alloc_eq {nodes : List Node} {r : Node} (hl : nodes.length < 32768) :
    nodeNo (nodes ++ [r]) nodes.length = r := by
  rw [nodeNo_eq_getD hl, List.getD_eq_getElem _ _ (by simp)]; simp

theorem nodeNo_setNode {nodes : List Node} {j : NodeIdx} {r : Node} {i : Nat} (hi : i < 32768)
    (hj : j.toNat < nodes.length) :
    nodeNo (setNode nodes j r) i = if i = j.toNat then r else nodeNo nodes i := by
  rw [nodeNo_eq_getD hi, nodeNo_eq_getD hi, setNode, List.getD_eq_getElem?_getD, List.getElem?_set]
  by_cases h : j.toNat = i
  · subst h; simp [hj]
  · simp [h, Ne.symm h]

@[simp] theorem setNode_length (nodes : List Node) (j : NodeIdx) (r : Node) : (setNode nodes j r).length = nodes.length := by
  simp [setNode]

@[simp] theorem mkLeaf_left (s : Sym) (f : Word) : (mkLeaf s f).left = Config.nil := rfl
@[simp] theorem mkLeaf_right (s : Sym) (f : Word) : (mkLeaf s f).right = Config.nil := rfl
@[simp] theorem mkLeaf_kind (s : Sym) (f : Word) : (mkLeaf s f).kind = .leaf := rfl
@[simp] theorem mkLeaf_sym (s : Sym) (f : Word) : (mkLeaf s f).sym = s := rfl
@[simp] theorem mkLeaf_freq (s : Sym) (f : Word) : (mkLeaf s f).freq = f := rfl
@[simp] theorem mkInternal_left (l r : NodeIdx) (f : Word) : (mkInternal l r f).left = l := rfl
@[simp] theorem mkInternal_right (l r : NodeIdx) (f : Word) : (mkInternal l r f).right = r := rfl
@[simp] theorem mkInternal_kind (l r : NodeIdx) (f : Word) : (mkInternal l r f).kind = .internal := rfl
@[simp] theorem mkInternal_sym (l r : NodeIdx) (f : Word) : (mkInternal l r f).sym = 0 := rfl
@[simp] theorem mkInternal_freq (l r : NodeIdx) (f : Word) : (mkInternal l r f).freq = f := rfl

@[simp] theorem childOf_mkLeaf (s : Sym) (f : Word) (b : Bool) : childOf (mkLeaf s f) b = Config.nil := by
  cases b <;> rfl
@[simp] theorem childOf_false (r : Node) : childOf r false = r.left := rfl
@[simp] theorem childOf_true (r : Node) : childOf r true = r.right := rfl

end Sys2Proof.Machine
end

