-- ==== Sys2Proof/Laws/Tree.lean ====
section
/-! SUPPORT. The laws of paths in a tree (spec/10_state.md R40, R43; spec/43_code_assign.md R152, R154, R155): a path
leads to at most one node, a node has at most one path, and no leaf hangs below another. -/

namespace Sys2Proof.Machine

@[simp] theorem follow_nil (nodes : List Node) (n : NodeIdx) : follow nodes [] n = some n := rfl

theorem follow_append (nodes : List Node) (p q : List Bool) (n : NodeIdx) :
    follow nodes (p ++ q) n = (follow nodes p n).bind (follow nodes q) := by
  induction p generalizing n with
  | nil => rfl
  | cons b p ih =>
    simp only [List.cons_append, follow]
    split
    · rfl
    · exact ih _

theorem follow_snoc (nodes : List Node) (p : List Bool) (b : Bool) (n : NodeIdx) :
    follow nodes (p ++ [b]) n =
      (follow nodes p n).bind fun m =>
        if childOf (nodeAt nodes m) b = Config.nil then none else some (childOf (nodeAt nodes m) b) := by
  rw [follow_append]; rfl

theorem follow_snoc_some {nodes : List Node} {p : List Bool} {b : Bool} {n m : NodeIdx} :
    follow nodes (p ++ [b]) n = some m ↔
      ∃ k, follow nodes p n = some k ∧ childOf (nodeAt nodes k) b = m ∧ m ≠ Config.nil := by
  rw [follow_snoc, Option.bind_eq_some_iff]
  constructor
  · rintro ⟨k, h1, h2⟩
    split at h2
    · simp at h2
    · next hc => simp only [Option.some.injEq] at h2; subst h2; exact ⟨k, h1, rfl, hc⟩
  · rintro ⟨k, h1, rfl, h3⟩
    exact ⟨k, h1, by rw [if_neg h3]⟩

/-- What the walks rely on: the children are owned (R40), the root is nobody's child, and a LEAF has no child. -/
structure Walkable (nodes : List Node) (root : NodeIdx) : Prop where
  owned : Owned nodes root
  length_le : nodes.length ≤ Config.nodeCap
  root_lt : root.toNat < nodes.length
  root_free : ∀ i < nodes.length, ∀ bit, childOf (nodeNo nodes i) bit ≠ root
  leaf_childless : ∀ i < nodes.length, (nodeNo nodes i).kind = .leaf → ∀ bit, childOf (nodeNo nodes i) bit = Config.nil

theorem nodeAt_of_ge {nodes : List Node} {n : NodeIdx} (h : nodes.length ≤ n.toNat) : nodeAt nodes n = Node.freeRecord := by
  rw [nodeAt, List.getD_eq_default _ _ h]

theorem childOf_freeRecord (b : Bool) : childOf Node.freeRecord b = Config.nil := by cases b <;> rfl

theorem Walkable.child_lt {nodes : List Node} {root n : NodeIdx} (h : Walkable nodes root) {b : Bool}
    (hc : childOf (nodeAt nodes n) b ≠ Config.nil) :
    n.toNat < nodes.length ∧ (childOf (nodeAt nodes n) b).toNat < nodes.length := by
  by_cases hn : n.toNat < nodes.length
  · refine ⟨hn, ?_⟩
    have := h.owned.child_allocated n.toNat hn b
    rw [nodeNo_toNat] at this
    exact this hc
  · rw [nodeAt_of_ge (by omega), childOf_freeRecord] at hc
    exact absurd rfl hc

theorem Walkable.follow_lt {nodes : List Node} {root : NodeIdx} (h : Walkable nodes root) {p : List Bool} {m : NodeIdx}
    (hf : follow nodes p root = some m) : m.toNat < nodes.length := by
  rcases List.eq_nil_or_concat p with rfl | ⟨p, b, rfl⟩
  · simp only [follow_nil, Option.some.injEq] at hf; subst hf; exact h.root_lt
  · rw [List.concat_eq_append] at hf
    obtain ⟨k, -, rfl, hne⟩ := follow_snoc_some.mp hf
    exact (h.child_lt hne).2

/-- A node has one path from the root (R40: exclusive ownership, no cycle). -/
theorem Walkable.path_unique {nodes : List Node} {root : NodeIdx} (h : Walkable nodes root) {p q : List Bool} {m : NodeIdx}
    (hp : follow nodes p root = some m) (hq : follow nodes q root = some m) : p = q := by
  induction p using List.reverseRecOn generalizing q m with
  | nil =>
    simp only [follow_nil, Option.some.injEq] at hp
    subst hp
    rcases List.eq_nil_or_concat q with rfl | ⟨q, b, rfl⟩
    · rfl
    · rw [List.concat_eq_append] at hq
      obtain ⟨k, -, hk, hne⟩ := follow_snoc_some.mp hq
      have hl := (h.child_lt (n := k) (b := b) (by rw [hk]; exact hne)).1
      have := h.root_free k.toNat hl b
      rw [nodeNo_toNat] at this
      exact absurd hk this
  | append_singleton p b ih =>
    obtain ⟨k, hk, hkm, hne⟩ := follow_snoc_some.mp hp
    have hkl := (h.child_lt (n := k) (b := b) (by rw [hkm]; exact hne)).1
    rcases List.eq_nil_or_concat q with rfl | ⟨q, b', rfl⟩
    · simp only [follow_nil, Option.some.injEq] at hq
      subst hq
      have := h.root_free k.toNat hkl b
      rw [nodeNo_toNat] at this
      exact absurd hkm this
    · rw [List.concat_eq_append] at hq ⊢
      obtain ⟨j, hj, hjm, -⟩ := follow_snoc_some.mp hq
      have hjl := (h.child_lt (n := j) (b := b') (by rw [hjm]; exact hne)).1
      have := h.owned.one_parent k.toNat hkl j.toNat hjl b b'
      rw [nodeNo_toNat, nodeNo_toNat, hkm, hjm] at this
      obtain ⟨h1, rfl⟩ := this hne rfl
      have h1 : k = j := BitVec.eq_of_toNat_eq h1
      subst h1
      rw [ih hk hj]

theorem Walkable.follow_leaf {nodes : List Node} {root n : NodeIdx} (h : Walkable nodes root) {q : List Bool}
    (hl : (nodeAt nodes n).kind = .leaf) (hq : q ≠ []) : follow nodes q n = none := by
  cases q with
  | nil => exact absurd rfl hq
  | cons b q =>
    have hn : n.toNat < nodes.length := by
      by_contra hc
      rw [nodeAt_of_ge (by omega)] at hl
      simp [Node.freeRecord] at hl
    have := h.leaf_childless n.toNat hn
    rw [nodeNo_toNat] at this
    rw [follow, if_pos (this hl b)]

/-- No leaf hangs below another (R155). -/
theorem Walkable.leaf_not_below {nodes : List Node} {root : NodeIdx} (h : Walkable nodes root) {p q : List Bool} {k l : Nat}
    (hp : leafAt nodes root p k) (hq : leafAt nodes root q l) (hpq : p <+: q) : p = q := by
  obtain ⟨r, rfl⟩ := hpq
  obtain ⟨n, hn, hk, -⟩ := hp
  obtain ⟨m, hm, -, -⟩ := hq
  rw [follow_append, hn] at hm
  simp only [Option.bind_some] at hm
  by_cases hr : r = []
  · simp [hr]
  · rw [h.follow_leaf hk hr] at hm; simp at hm

/-- Symbols name leaves: no two LEAF records hold one symbol. -/
def leafSymsDiffer (nodes : List Node) : Prop :=
  ∀ i < nodes.length, ∀ j < nodes.length, (nodeNo nodes i).kind = .leaf → (nodeNo nodes j).kind = .leaf →
    (nodeNo nodes i).sym = (nodeNo nodes j).sym → i = j

theorem Walkable.leaf_path_unique {nodes : List Node} {root : NodeIdx} (h : Walkable nodes root) (hd : leafSymsDiffer nodes)
    {p q : List Bool} {k : Nat} (hp : leafAt nodes root p k) (hq : leafAt nodes root q k) : p = q := by
  obtain ⟨n, hn, hnk, hns⟩ := hp
  obtain ⟨m, hm, hmk, hms⟩ := hq
  have := hd n.toNat (h.follow_lt hn) m.toNat (h.follow_lt hm)
  rw [nodeNo_toNat, nodeNo_toNat] at this
  have he : n = m := BitVec.eq_of_toNat_eq (this hnk hmk (BitVec.eq_of_toNat_eq (by rw [hns, hms])))
  subst he
  exact h.path_unique hn hm

theorem Walkable.leaf_sym_unique {nodes : List Node} {root : NodeIdx}
    {p : List Bool} {k l : Nat} (hp : leafAt nodes root p k) (hq : leafAt nodes root p l) : k = l := by
  obtain ⟨n, hn, -, hns⟩ := hp
  obtain ⟨m, hm, -, hms⟩ := hq
  rw [hn, Option.some.injEq] at hm
  subst hm
  rw [← hns, ← hms]

/-! ### Built trees -/

theorem BuiltShape.length_le {nodes : List Node} {root : NodeIdx} {n : Nat} (h : BuiltShape nodes root n) :
    nodes.length ≤ 255 := by
  have hc := h.count_le
  rcases Nat.lt_or_ge n 2 with h2 | h2
  · obtain rfl | rfl : n = 0 ∨ n = 1 := by omega
    · rw [(h.empty rfl).1]; simp
    · obtain ⟨s, f, hn, -⟩ := h.single rfl
      rw [hn]; simp
  · rw [h.length h2]; omega

/-- The internal records come after the leaves and their children before them (R43). -/
theorem BuiltShape.cases {nodes : List Node} {root : NodeIdx} {n : Nat} (h : BuiltShape nodes root n) {i : Nat}
    (hi : i < nodes.length) :
    (i < n ∧ ∃ sym f, nodeNo nodes i = mkLeaf sym f) ∨
      (n ≤ i ∧ ∃ l r f, nodeNo nodes i = mkInternal l r f ∧
        ∀ bit, childOf (nodeNo nodes i) bit ≠ Config.nil → (childOf (nodeNo nodes i) bit).toNat < i) := by
  rcases Nat.lt_or_ge i n with hin | hin
  · exact .inl ⟨hin, h.leaf i hin⟩
  · refine .inr ⟨hin, ?_⟩
    rcases Nat.lt_or_ge n 2 with h2 | h2
    · obtain rfl | rfl : n = 0 ∨ n = 1 := by omega
      · rw [(h.empty rfl).1] at hi; simp at hi
      · obtain ⟨s, f, hn, -⟩ := h.single rfl
        rw [hn] at hi ⊢
        simp only [List.length_cons, List.length_nil] at hi
        obtain rfl : i = 1 := by omega
        refine ⟨0, Config.nil, f, rfl, fun bit hb => ?_⟩
        cases bit
        · show (0 : NodeIdx).toNat < 1
          decide
        · exact absurd rfl hb
    · obtain ⟨l, r, f, h1, h3, h4⟩ := h.internal h2 i hin (by rw [h.length h2] at hi; exact hi)
      refine ⟨l, r, f, h1, fun bit _ => ?_⟩
      rw [h1]
      cases bit
      · exact h3
      · exact h4

theorem BuiltShape.walkable {nodes : List Node} {root : NodeIdx} {n : Nat} (h : BuiltShape nodes root n) (hn : n ≠ 0) :
    Walkable nodes root := by
  have hl := h.length_le
  have hroot : root.toNat + 1 = nodes.length := by
    rcases Nat.lt_or_ge n 2 with h2 | h2
    · obtain rfl : n = 1 := by omega
      obtain ⟨s, f, hn, rfl⟩ := h.single rfl
      rw [hn]; rfl
    · rw [h.length h2, h.root_last h2]; omega
  refine ⟨h.owned, hl.trans (by decide), by omega, fun i hi bit he => ?_, fun i hi hk bit => ?_⟩
  · have hne : childOf (nodeNo nodes i) bit ≠ Config.nil := by
      rw [he]; intro h0; rw [h0] at hroot; simp [Config.nil] at hroot; omega
    rcases h.cases hi with ⟨-, s, f, hc⟩ | ⟨-, l, r, f, hc, hd⟩
    · rw [hc, childOf_mkLeaf] at hne; exact hne rfl
    · have := hd bit hne
      rw [he] at this; omega
  · rcases h.cases hi with ⟨-, s, f, hc⟩ | ⟨-, l, r, f, hc, -⟩
    · rw [hc, childOf_mkLeaf]
    · rw [hc] at hk; simp at hk

theorem BuiltShape.leafSymsDiffer {nodes : List Node} {root : NodeIdx} {n : Nat} (h : BuiltShape nodes root n) :
    leafSymsDiffer nodes := by
  intro i hi j hj hki hkj hs
  have key : ∀ {m}, m < nodes.length → (nodeNo nodes m).kind = .leaf → m < n := by
    intro m hm hk
    rcases h.cases hm with ⟨h1, -⟩ | ⟨-, l, r, f, hc, -⟩
    · exact h1
    · rw [hc] at hk; simp at hk
  rcases Nat.lt_trichotomy i j with hlt | rfl | hgt
  · have := h.ascending i j hlt (key hj hkj); rw [hs] at this; omega
  · rfl
  · have := h.ascending j i hgt (key hi hki); rw [hs] at this; omega

/-- A walk of `p` bits from node `i` stays on internal records but for its last, so it has at most `i + 1 - S` bits
(R137, R154). -/
theorem BuiltShape.walk_length {nodes : List Node} {root : NodeIdx} {n : Nat} (h : BuiltShape nodes root n) {p : List Bool}
    {i m : NodeIdx} (hf : follow nodes p i = some m) : p = [] ∨ p.length + n ≤ i.toNat + 1 := by
  induction p generalizing i with
  | nil => exact .inl rfl
  | cons b p ih =>
    refine .inr ?_
    rw [follow] at hf
    split at hf
    · simp at hf
    · next hc =>
      have hi : i.toNat < nodes.length := by
        by_contra hge
        rw [nodeAt_of_ge (by omega), childOf_freeRecord] at hc
        exact hc rfl
      rcases h.cases hi with ⟨-, s, f, hl⟩ | ⟨hge, l, r, f, hl, hd⟩
      · rw [nodeNo_toNat] at hl
        rw [hl, childOf_mkLeaf] at hc; exact absurd rfl hc
      · have hd := hd b
        rw [nodeNo_toNat] at hd
        have hd := hd hc
        rcases ih hf with rfl | hle
        · simp; omega
        · simp only [List.length_cons]; omega

theorem BuiltShape.path_le {nodes : List Node} {root : NodeIdx} {n : Nat} (h : BuiltShape nodes root n) {p : List Bool}
    {m : NodeIdx} (hf : follow nodes p root = some m) : p.length ≤ 127 := by
  have hc := h.count_le
  rcases h.walk_length hf with rfl | hle
  · simp
  · rcases Nat.lt_or_ge n 2 with h2 | h2
    · obtain rfl | rfl : n = 0 ∨ n = 1 := by omega
      · have he := (h.empty rfl).2
        subst he
        cases p with
        | nil => simp
        | cons b p =>
          rw [follow, (h.empty rfl).1] at hf
          cases b <;> simp [nodeAt, Node.freeRecord] at hf
      · obtain ⟨s, f, -, rfl⟩ := h.single rfl
        simp at hle; omega
    · rw [h.root_last h2] at hle; omega

/-- The root of a built tree is no LEAF, so no path to a leaf is empty (R154). -/
theorem BuiltShape.leaf_path_ne_nil {nodes : List Node} {root : NodeIdx} {n : Nat} (h : BuiltShape nodes root n)
    {p : List Bool} {k : Nat} (hp : leafAt nodes root p k) : p ≠ [] := by
  rintro rfl
  obtain ⟨m, hm, hk, -⟩ := hp
  simp only [follow_nil, Option.some.injEq] at hm
  subst hm
  rcases Nat.lt_or_ge n 2 with h2 | h2
  · obtain rfl | rfl : n = 0 ∨ n = 1 := by omega
    · rw [(h.empty rfl).1] at hk; simp [nodeAt, Node.freeRecord] at hk
    · obtain ⟨s, f, hn, rfl⟩ := h.single rfl
      rw [hn] at hk; simp [nodeAt, mkInternal] at hk
  · obtain ⟨l, r, f, hc, -⟩ := h.internal h2 root.toNat (by rw [h.root_last h2]; omega) (by rw [h.root_last h2]; omega)
    rw [nodeNo_toNat] at hc
    rw [hc] at hk; simp at hk

/-- Every record of a built tree hangs below the root (R40, R137). -/
theorem BuiltShape.reachable {nodes : List Node} {root : NodeIdx} {n : Nat} (h : BuiltShape nodes root n) {i : Nat}
    (hi : i < nodes.length) : ∃ p, follow nodes p root = some (BitVec.ofNat 15 i) := by
  have hl := h.length_le
  obtain ⟨d, hd⟩ : ∃ d, d = nodes.length - i := ⟨_, rfl⟩
  induction d using Nat.strong_induction_on generalizing i with
  | _ d ih =>
    by_cases hr : i = root.toNat
    · exact ⟨[], by subst hr; simp⟩
    · obtain ⟨j, hj, bit, hc⟩ := h.owned.has_parent i hi hr
      have hne : BitVec.ofNat 15 i ≠ Config.nil := idx_ne_nil (by omega)
      have hij : i < j := by
        rcases h.cases hj with ⟨-, s, f, hn⟩ | ⟨-, l, r, f, hn, hd⟩
        · rw [hn, childOf_mkLeaf] at hc; exact absurd hc.symm hne
        · have := hd bit (by rw [hc]; exact hne)
          rw [hc, idx_toNat (by omega)] at this
          exact this
      obtain ⟨p, hp⟩ := ih (nodes.length - j) (by omega) hj rfl
      exact ⟨p ++ [bit], follow_snoc_some.mpr ⟨_, hp, hc, hne⟩⟩

end Sys2Proof.Machine
end

