-- ==== Sys2Proof/Laws/Assign.lean ====
section
/-! SUPPORT. The laws of the code assigner (spec/43_code_assign.md R152 to R157): the CODE table holds, for each symbol,
the field of the path to its leaf. -/

namespace Sys2Proof.Machine

theorem codeAt_codeZero (k : Nat) : codeAt codeZero k = 0 := by
  unfold codeAt codeZero
  rw [Vector.getElem?_replicate]
  split <;> rfl

theorem codeAt_setCode (t : Vector CodeField 128) (sym : Sym) (field : CodeField) (k : Nat) :
    codeAt (setCode t sym field) k = if k = sym.toNat then field else codeAt t k := by
  have hs := sym.isLt
  unfold codeAt setCode
  rw [Vector.getElem?_setIfInBounds]
  by_cases h : sym.toNat = k
  · subst h
    rw [if_pos rfl, if_pos rfl, if_pos (by simpa using hs)]
    rfl
  · rw [if_neg h, if_neg (Ne.symm h)]

/-- Two CODE tables with the same 128 entries are the same table. -/
theorem code_ext {t t' : Vector CodeField 128} (h : ∀ k < 128, codeAt t k = codeAt t' k) : t = t' := by
  apply Vector.ext
  intro i hi
  have := h i hi
  unfold codeAt at this
  rwa [Vector.getElem?_eq_getElem hi, Vector.getElem?_eq_getElem hi] at this

/-- The leaves below node `n` with their paths, in the order of the traversal (R152). -/
def leavesBelow (nodes : List Node) : Nat → NodeIdx → List (List Bool × Sym)
  | 0, _ => []
  | depth + 1, n =>
    if (nodeAt nodes n).kind = .leaf then [([], (nodeAt nodes n).sym)]
    else
      (if (nodeAt nodes n).left ≠ Config.nil then
        (leavesBelow nodes depth (nodeAt nodes n).left).map fun e => (false :: e.1, e.2) else []) ++
      (if (nodeAt nodes n).right ≠ Config.nil then
        (leavesBelow nodes depth (nodeAt nodes n).right).map fun e => (true :: e.1, e.2) else [])

/-- Every path below `n` is shorter than `depth`. -/
def shallow (nodes : List Node) (depth : Nat) (n : NodeIdx) : Prop :=
  ∀ p, (follow nodes p n).isSome → p.length < depth

theorem shallow.child {nodes : List Node} {depth : Nat} {n : NodeIdx} (h : shallow nodes (depth + 1) n) {b : Bool}
    (hb : childOf (nodeAt nodes n) b ≠ Config.nil) : shallow nodes depth (childOf (nodeAt nodes n) b) := by
  intro p hp
  have := h (b :: p) (by rw [follow, if_neg hb]; exact hp)
  simpa using this

/-- The traversal writes the code of each leaf below `n` (R152). -/
theorem visit_eq {nodes : List Node} {depth : Nat} {n : NodeIdx} (h : shallow nodes depth n) (path : List Bool)
    (t : Vector CodeField 128) :
    visit nodes depth n path t =
      .ok ((leavesBelow nodes depth n).foldl (fun t e => setCode t e.2 (fieldOf (path ++ e.1))) t) := by
  induction depth generalizing n path t with
  | zero => have := h [] rfl; simp at this
  | succ depth ih =>
    unfold visit leavesBelow
    split
    · simp
    · have hl : ∀ t, (if (nodeAt nodes n).left ≠ Config.nil then visit nodes depth (nodeAt nodes n).left (path ++ [false]) t
          else .ok t) = .ok ((if (nodeAt nodes n).left ≠ Config.nil then
            (leavesBelow nodes depth (nodeAt nodes n).left).map fun e => (false :: e.1, e.2) else []).foldl
            (fun t e => setCode t e.2 (fieldOf (path ++ e.1))) t) := by
        intro t
        split
        · next hne =>
          rw [ih (n := (nodeAt nodes n).left) (h.child (b := false) hne), List.foldl_map]
          simp
        · rfl
      have hr : ∀ t, (if (nodeAt nodes n).right ≠ Config.nil then visit nodes depth (nodeAt nodes n).right (path ++ [true]) t
          else .ok t) = .ok ((if (nodeAt nodes n).right ≠ Config.nil then
            (leavesBelow nodes depth (nodeAt nodes n).right).map fun e => (true :: e.1, e.2) else []).foldl
            (fun t e => setCode t e.2 (fieldOf (path ++ e.1))) t) := by
        intro t
        split
        · next hne =>
          rw [ih (n := (nodeAt nodes n).right) (h.child (b := true) hne), List.foldl_map]
          simp
        · rfl
      rw [hl, ok_bind, hr, List.foldl_append]

theorem mem_leavesBelow {nodes : List Node} {depth : Nat} {n : NodeIdx} (h : shallow nodes depth n)
    (hc : ∀ m, (nodeAt nodes m).kind = .leaf → ∀ b, childOf (nodeAt nodes m) b = Config.nil) {p : List Bool} {s : Sym} :
    (p, s) ∈ leavesBelow nodes depth n ↔
      ∃ m, follow nodes p n = some m ∧ (nodeAt nodes m).kind = .leaf ∧ (nodeAt nodes m).sym = s := by
  induction depth generalizing n p with
  | zero => have := h [] rfl; simp at this
  | succ depth ih =>
    unfold leavesBelow
    split
    · next hk =>
      constructor
      · intro hm
        simp only [List.mem_singleton, Prod.mk.injEq] at hm
        obtain ⟨rfl, rfl⟩ := hm
        exact ⟨n, rfl, hk, rfl⟩
      · rintro ⟨m, hm, -, hs⟩
        cases p with
        | nil => simp only [follow_nil, Option.some.injEq] at hm; subst hm; subst hs; simp
        | cons b p => rw [follow, if_pos (hc n hk b)] at hm; simp at hm
    · next hk =>
      have side : ∀ b, (p, s) ∈ (if childOf (nodeAt nodes n) b ≠ Config.nil then
            (leavesBelow nodes depth (childOf (nodeAt nodes n) b)).map fun e => (b :: e.1, e.2) else []) ↔
          ∃ q, p = b :: q ∧ ∃ m, follow nodes p n = some m ∧ (nodeAt nodes m).kind = .leaf ∧ (nodeAt nodes m).sym = s := by
        intro b
        split
        · next hne =>
          simp only [List.mem_map, Prod.mk.injEq, Prod.exists]
          constructor
          · rintro ⟨q, s', hm, rfl, rfl⟩
            refine ⟨q, rfl, ?_⟩
            rw [follow, if_neg hne]
            exact (ih (h.child hne)).mp hm
          · rintro ⟨q, rfl, hm⟩
            rw [follow, if_neg hne] at hm
            exact ⟨q, s, (ih (h.child hne)).mpr hm, rfl, rfl⟩
        · next hne =>
          simp only [ne_eq, not_not] at hne
          constructor
          · intro hm; simp at hm
          · rintro ⟨q, rfl, m, hm, -⟩
            rw [follow, if_pos hne] at hm; simp at hm
      rw [List.mem_append, ← childOf_false (nodeAt nodes n), ← childOf_true (nodeAt nodes n), side false, side true]
      constructor
      · rintro (⟨_, _, h⟩ | ⟨_, _, h⟩) <;> exact h
      · rintro ⟨m, hm, hmk, hms⟩
        cases p with
        | nil => simp only [follow_nil, Option.some.injEq] at hm; subst hm; exact absurd hmk (by simpa using hk)
        | cons b q => cases b
                      · exact .inl ⟨q, rfl, m, hm, hmk, hms⟩
                      · exact .inr ⟨q, rfl, m, hm, hmk, hms⟩

/-- Entries for different symbols do not disturb each other (R157). -/
theorem codeAt_foldl (l : List (List Bool × Sym)) (t : Vector CodeField 128)
    (hd : ∀ e ∈ l, ∀ e' ∈ l, e.2 = e'.2 → e.1 = e'.1) :
    (∀ e ∈ l, codeAt (l.foldl (fun t e => setCode t e.2 (fieldOf e.1)) t) e.2.toNat = fieldOf e.1) ∧
      ∀ k, (∀ e ∈ l, e.2.toNat ≠ k) → codeAt (l.foldl (fun t e => setCode t e.2 (fieldOf e.1)) t) k = codeAt t k := by
  induction l using List.reverseRecOn with
  | nil => simp
  | append_singleton l e ih =>
    obtain ⟨ih1, ih2⟩ := ih (fun e he e' he' => hd e (List.mem_append_left _ he) e' (List.mem_append_left _ he'))
    simp only [List.foldl_append, List.foldl_cons, List.foldl_nil, codeAt_setCode]
    refine ⟨fun x hx => ?_, fun k hk => ?_⟩
    · split
      · next he =>
        rw [hd x hx e (by simp) (BitVec.eq_of_toNat_eq he)]
      · next hne =>
        rcases List.mem_append.mp hx with hx | hx
        · exact ih1 x hx
        · simp only [List.mem_singleton] at hx; subst hx; exact absurd rfl hne
    · rw [if_neg (fun h => hk e (by simp) h.symm), ih2 k fun x hx => hk x (List.mem_append_left _ hx)]

theorem BuiltShape.treeCodes_ok {nodes : List Node} {root : NodeIdx} {n : Nat} (h : BuiltShape nodes root n) :
    ∃ t, treeCodes nodes root = .ok t ∧ CodesOfTree nodes root t := by
  unfold treeCodes
  by_cases hn : n = 0
  · obtain ⟨rfl, rfl⟩ := h.empty hn
    refine ⟨codeZero, if_neg (by simp), fun p k hp => ?_, fun k _ => codeAt_codeZero k⟩
    obtain ⟨m, hm, hk, -⟩ := hp
    simp [nodeAt, Node.freeRecord] at hk
  · have hw := h.walkable hn
    have hne : root ≠ Config.nil := by
      intro h0
      have h1 := hw.root_lt
      have h2 := h.length_le
      rw [h0] at h1
      simp [Config.nil] at h1; omega
    have hs : shallow nodes (Config.maxCodeLen + 1) root := by
      intro p hp
      obtain ⟨m, hm⟩ := Option.isSome_iff_exists.mp hp
      have := h.path_le hm
      simp only [Config.maxCodeLen]; omega
    have hc : ∀ m, (nodeAt nodes m).kind = .leaf → ∀ b, childOf (nodeAt nodes m) b = Config.nil := by
      intro m hk b
      by_cases hm : m.toNat < nodes.length
      · have := hw.leaf_childless m.toNat hm
        rw [nodeNo_toNat] at this
        exact this hk b
      · rw [nodeAt_of_ge (by omega), childOf_freeRecord]
    rw [if_pos hne, visit_eq hs]
    have hmem : ∀ {p : List Bool} {s : Sym}, (p, s) ∈ leavesBelow nodes (Config.maxCodeLen + 1) root ↔
        leafAt nodes root p s.toNat := by
      intro p s
      rw [mem_leavesBelow hs hc]
      unfold leafAt
      constructor
      · rintro ⟨m, h1, h2, rfl⟩; exact ⟨m, h1, h2, rfl⟩
      · rintro ⟨m, h1, h2, h3⟩; exact ⟨m, h1, h2, BitVec.eq_of_toNat_eq h3⟩
    obtain ⟨k1, k2⟩ := codeAt_foldl (leavesBelow nodes (Config.maxCodeLen + 1) root) codeZero (by
      rintro ⟨p, s⟩ he ⟨q, s'⟩ he' hss
      dsimp only at hss; subst hss
      exact hw.leaf_path_unique h.leafSymsDiffer (hmem.mp he) (hmem.mp he'))
    refine ⟨_, rfl, fun p k hp => ?_, fun k hk => ?_⟩
    · obtain ⟨m, hm, hmk, rfl⟩ := hp
      exact k1 (p, (nodeAt nodes m).sym) (hmem.mpr ⟨m, hm, hmk, rfl⟩)
    · simp only [List.nil_append]
      rw [k2 k, codeAt_codeZero]
      rintro ⟨p, s⟩ he rfl
      exact hk p (hmem.mp he)

/-- A code of a tree is at least one and at most 127 bits long (R154). -/
theorem CodesOfTree.bits {nodes : List Node} {root : NodeIdx} {n : Nat} {t : Vector CodeField 128}
    (h : BuiltShape nodes root n) (hc : CodesOfTree nodes root t) {p : List Bool} {k : Nat} (hp : leafAt nodes root p k) :
    codeBits (codeAt t k) = p ∧ codeAt t k ≠ 0 ∧ 1 ≤ p.length ∧ p.length ≤ 127 := by
  have h127 : p.length ≤ 127 := by obtain ⟨m, hm, -⟩ := hp; exact h.path_le hm
  rw [hc.code_of_leaf p k hp]
  exact ⟨codeBits_of_fieldOf h127, fieldOf_ne_zero h127, List.length_pos_iff.mpr (h.leaf_path_ne_nil hp), h127⟩

theorem CodesOfTree.leaf_of_ne_zero {nodes : List Node} {root : NodeIdx} {t : Vector CodeField 128}
    (hc : CodesOfTree nodes root t) {k : Nat} (hk : codeAt t k ≠ 0) : ∃ p, leafAt nodes root p k := by
  by_contra hn
  exact hk (hc.no_leaf k fun p hp => hn ⟨p, hp⟩)

/-- Leaf `i` of a built tree hangs somewhere below the root (R137). -/
theorem BuiltShape.leaf_reachable {nodes : List Node} {root : NodeIdx} {n : Nat} (h : BuiltShape nodes root n) {i : Nat}
    (hi : i < n) : ∃ p, leafAt nodes root p (nodeNo nodes i).sym.toNat := by
  have hlen : i < nodes.length := by
    rcases Nat.lt_or_ge n 2 with h2 | h2
    · obtain rfl : n = 1 := by omega
      obtain ⟨s, f, hn, -⟩ := h.single rfl
      rw [hn]; simp; omega
    · rw [h.length h2]; omega
  obtain ⟨p, hp⟩ := h.reachable hlen
  obtain ⟨s, f, hn⟩ := h.leaf i hi
  exact ⟨p, _, hp, by rw [← nodeNo, hn]; rfl, rfl⟩

/-- The ASG stage on a built tree (R152). -/
theorem asgStage_ok {s : State} {n : Nat} (h1 : s.treeSrc = .built) (h : BuiltShape s.nodes s.root n) :
    ∃ t, asgStage s = .ok { s with code := t, codesValid := true } ∧ treeCodes s.nodes s.root = .ok t ∧
      CodesOfTree s.nodes s.root t := by
  obtain ⟨t, ht, hc⟩ := h.treeCodes_ok
  refine ⟨t, ?_, ht, hc⟩
  rw [asgStage, require_true h1, ok_bind, ht, ok_bind]

theorem asgStage_notBuilt {s : State} (h : s.treeSrc ≠ .built) : asgStage s = raise .sequenceError 4 := by
  rw [asgStage, require_false h, raise_bind]

/-- Everything the ASG stage can do. -/
theorem asgStage_cases {s t : State} (h : asgStage s = .ok t) :
    s.treeSrc = .built ∧ ∃ c, treeCodes s.nodes s.root = .ok c ∧ t = { s with code := c, codesValid := true } := by
  unfold asgStage at h
  simp only [bind_ok_iff, require_ok_iff] at h
  obtain ⟨-, h1, c, h2, h3⟩ := h
  simp only [Except.ok.injEq] at h3
  exact ⟨h1, c, h2, h3.symm⟩

end Sys2Proof.Machine
end

