-- ==== Sys2Proof/Laws/Build.lean ====
section
/-! SUPPORT. The laws of the tree builder (spec/42_tree_build.md R131 to R139): the leaves, the invariant of the merge, and
the shape of the tree it leaves. -/

namespace Sys2Proof.Machine

/-! ### The priority structure (R133) -/

theorem prioLe_trans {x y z : QElem} (h : prioLe x y) (h' : prioLe y z) : prioLe x z := by
  unfold prioLe at *; omega

theorem prioLe_total (x y : QElem) : prioLe x y ∨ prioLe y x := by
  unfold prioLe; omega

theorem enqueue_perm (x : QElem) (q : Queue) : (enqueue x q).Perm (x :: q) := List.perm_orderedInsert _ _ _

/-- Q stays in priority order. -/
theorem enqueue_sorted {x : QElem} {q : Queue} (h : q.Pairwise prioLe) : (enqueue x q).Pairwise prioLe := by
  induction q with
  | nil => simp [enqueue]
  | cons y q ih =>
    have ⟨h1, h2⟩ := List.pairwise_cons.mp h
    unfold enqueue
    rw [List.orderedInsert_cons]
    split
    · next hxy =>
      refine List.pairwise_cons.mpr ⟨fun z hz => ?_, h⟩
      rcases List.mem_cons.mp hz with rfl | hz
      · exact hxy
      · exact prioLe_trans hxy (h1 z hz)
    · next hxy =>
      refine List.pairwise_cons.mpr ⟨fun z hz => ?_, ih h2⟩
      rcases List.mem_cons.mp ((enqueue_perm x q).subset hz) with rfl | hz
      · exact (prioLe_total z y).resolve_left hxy
      · exact h1 z hz

/-! ### The invariant of the merge -/

/-- What holds of the records and of Q after the leaves and after every round. -/
structure BuildInv (total count : Nat) (b : Build) : Prop where
  seq_eq : b.seq = b.nodes.length
  size : b.nodes.length + b.q.length = 2 * count
  count_le : count ≤ 128
  length_ge : count ≤ b.nodes.length
  sorted : b.q.Pairwise prioLe
  nodup : (b.q.map QElem.seq).Nodup
  elem : ∀ x ∈ b.q, x.idx = BitVec.ofNat 15 x.seq ∧ x.seq < b.nodes.length ∧ (nodeNo b.nodes x.seq).freq.toNat = x.freq
  sum : (b.q.map QElem.freq).sum = total
  total_lt : total < 2 ^ 32
  live : ∀ i < b.nodes.length,
    (i ∈ b.q.map QElem.seq ↔ ∀ k, count ≤ k → k < b.nodes.length → ¬ childIs b.nodes k i)
  greedy : ∀ j, count ≤ j → j < b.nodes.length → GreedyAt b.nodes count j

theorem keyLt_congr {nodes nodes' : List Node} {i j : Nat} (hi : nodeNo nodes' i = nodeNo nodes i)
    (hj : nodeNo nodes' j = nodeNo nodes j) : keyLt nodes' i j ↔ keyLt nodes i j := by
  unfold keyLt; rw [hi, hj]

theorem childIs_congr {nodes nodes' : List Node} {k i : Nat} (hk : nodeNo nodes' k = nodeNo nodes k) :
    childIs nodes' k i ↔ childIs nodes k i := by
  unfold childIs; rw [hk]

/-- A node made earlier keeps its place when records below `j` and `j` itself do not change. -/
theorem GreedyAt.congr {nodes nodes' : List Node} {count j : Nat} (h : GreedyAt nodes count j)
    (hn : ∀ i ≤ j, nodeNo nodes' i = nodeNo nodes i) : GreedyAt nodes' count j := by
  obtain ⟨l, r, f, h1, h2, h3, h4, h5, h6, h7⟩ := h
  have hl := hn l.toNat (by omega)
  have hr := hn r.toNat (by omega)
  refine ⟨l, r, f, ?_, h2, h3, ?_, ?_, ?_, ?_⟩
  · rw [hn j (by omega), h1]
  · rw [← nodeNo_toNat, ← nodeNo_toNat nodes', hl, hr, nodeNo_toNat, nodeNo_toNat, h4]
  · exact (keyLt_congr hl hr).mpr h5
  · intro k hk hkj
    have := h6 k hk hkj
    rwa [childIs_congr (hn k (by omega)), childIs_congr (hn k (by omega))]
  · intro m hm hml hmr hmk
    refine (keyLt_congr hr (hn m (by omega))).mpr (h7 m hm hml hmr fun k hk hkj => ?_)
    rw [← childIs_congr (hn k (by omega))]
    exact hmk k hk hkj

/-- One round of the merge keeps the invariant (R134). -/
theorem BuildInv.round {total count : Nat} {nodes : List Node} {x y : QElem} {q : Queue} {seq : Nat}
    (h : BuildInv total count { nodes := nodes, q := x :: y :: q, seq := seq }) :
    BuildInv total count
      { nodes := nodes ++ [mkInternal x.idx y.idx (BitVec.ofNat 32 (x.freq + y.freq))]
        q := enqueue { freq := x.freq + y.freq, seq := seq, idx := nextIdx nodes } q
        seq := seq + 1 } := by
  have hseq : seq = nodes.length := h.seq_eq
  have hsize := h.size
  have hc := h.count_le
  have hge := h.length_ge
  simp only [List.length_cons] at hsize hge
  have hlen : nodes.length ≤ 254 := by omega
  have ⟨hx1, hx2, hx3⟩ := h.elem x (by simp)
  have ⟨hy1, hy2, hy3⟩ := h.elem y (by simp)
  simp only at hx2 hx3 hy2 hy3
  have hnd := h.nodup
  simp only [List.map_cons, List.nodup_cons, List.mem_cons, not_or] at hnd
  have hsum := h.sum
  simp only [List.map_cons, List.sum_cons] at hsum
  have hT := h.total_lt
  have ⟨hs1, hs2⟩ := List.pairwise_cons.mp h.sorted
  have ⟨hs3, hs4⟩ := List.pairwise_cons.mp hs2
  set n : Node := mkInternal x.idx y.idx (BitVec.ofNat 32 (x.freq + y.freq)) with hn
  set z : QElem := { freq := x.freq + y.freq, seq := seq, idx := nextIdx nodes } with hz
  have hxi : x.idx.toNat = x.seq := by rw [hx1, idx_toNat (by omega)]
  have hyi : y.idx.toNat = y.seq := by rw [hy1, idx_toNat (by omega)]
  have old : ∀ i < nodes.length, nodeNo (nodes ++ [n]) i = nodeNo nodes i := fun i hi => nodeNo_alloc_lt hi (by omega)
  have new : nodeNo (nodes ++ [n]) nodes.length = n := nodeNo_alloc_eq (by omega)
  have hperm := enqueue_perm z q
  have hpm : ((enqueue z q).map QElem.seq).Perm (seq :: q.map QElem.seq) := by
    simpa using hperm.map QElem.seq
  have hold : ∀ w ∈ q, w.seq < nodes.length := fun w hw => (h.elem w (by simp [hw])).2.1
  have hlt : ∀ w : QElem, prioLe y w → w.seq < nodes.length → (nodeNo nodes w.seq).freq.toNat = w.freq → w.seq ≠ y.seq →
      keyLt nodes y.seq w.seq := by
    intro w hw _ hwf hne
    unfold prioLe at hw; unfold keyLt; rw [hwf, hy3]; omega
  have childNew : ∀ i, childIs (nodes ++ [n]) nodes.length i ↔ i = x.seq ∨ i = y.seq := by
    intro i; unfold childIs; rw [new, hn]; simp only [mkInternal_left, mkInternal_right, hxi, hyi]; omega
  have hcx : ∀ k, count ≤ k → k < nodes.length → ¬ childIs nodes k x.seq := (h.live x.seq hx2).mp (by simp)
  have hcy : ∀ k, count ≤ k → k < nodes.length → ¬ childIs nodes k y.seq := (h.live y.seq hy2).mp (by simp)
  constructor
  · simp [hseq]
  · have := hperm.length_eq; simp only [List.length_append, List.length_cons, List.length_nil] at this ⊢; omega
  · exact hc
  · simp only [List.length_append]; omega
  · exact enqueue_sorted hs4
  · refine (hpm.nodup_iff).mpr (List.nodup_cons.mpr ⟨?_, hnd.2.2⟩)
    intro hmem
    obtain ⟨w, hw, hwe⟩ := List.mem_map.mp hmem
    have := hold w hw
    omega
  · intro w hw
    rcases List.mem_cons.mp (hperm.subset hw) with rfl | hw
    · refine ⟨by simp [hz, nextIdx, hseq], by simp [hz, hseq], ?_⟩
      show (nodeNo _ seq).freq.toNat = _
      rw [hseq, new, hn, mkInternal_freq, BitVec.toNat_ofNat]
      exact Nat.mod_eq_of_lt (by omega)
    · have ⟨e1, e2, e3⟩ := h.elem w (by simp [hw])
      simp only at e2 e3
      refine ⟨e1, by simp; omega, ?_⟩
      show (nodeNo _ w.seq).freq.toNat = _
      rw [old _ e2, e3]
  · show ((enqueue z q).map QElem.freq).sum = total
    rw [(hperm.map QElem.freq).sum_eq, List.map_cons, List.sum_cons]
    show x.freq + y.freq + _ = total
    omega
  · exact hT
  · intro i hi
    simp only [List.length_append, List.length_cons, List.length_nil] at hi ⊢
    rw [hpm.mem_iff, List.mem_cons]
    by_cases hin : i = nodes.length
    · subst hin
      simp only [hseq, true_or, true_iff]
      intro k hk hk2
      by_cases hkn : k = nodes.length
      · subst hkn; rw [childNew]; omega
      · rw [childIs_congr (old k (by omega))]
        obtain ⟨l, r, f, g1, g2, g3, -⟩ := h.greedy k hk (by simp only; omega)
        simp only at g1
        unfold childIs; rw [g1]
        simp only [mkInternal_left, mkInternal_right]; omega
    · have hio : i < nodes.length := by omega
      have hl := h.live i hio
      simp only [List.map_cons, List.mem_cons] at hl
      constructor
      · rintro (hi' | hmem)
        · omega
        · intro k hk hk2
          by_cases hkn : k = nodes.length
          · subst hkn; rw [childNew]
            rintro (rfl | rfl)
            · exact hnd.1.2 hmem
            · exact hnd.2.1 hmem
          · rw [childIs_congr (old k (by omega))]
            exact hl.mp (.inr (.inr hmem)) k hk (by omega)
      · intro hall
        have h1 : ¬ (i = x.seq ∨ i = y.seq) := by
          rw [← childNew]; exact hall nodes.length hge (by omega)
        have h2 := hl.mpr fun k hk hk2 => by
          rw [← childIs_congr (old k hk2)]; exact hall k hk (by omega)
        rcases h2 with h2 | h2 | h2
        · exact absurd (.inl h2) h1
        · exact absurd (.inr h2) h1
        · exact .inr h2
  · intro j hj hj2
    simp only [List.length_append, List.length_cons, List.length_nil] at hj2
    by_cases hjn : j = nodes.length
    · subst hjn
      refine ⟨x.idx, y.idx, BitVec.ofNat 32 (x.freq + y.freq), new, by omega, by omega, ?_, ?_, ?_, ?_⟩
      · rw [← nodeNo_toNat, ← nodeNo_toNat, hxi, hyi, old _ hx2, old _ hy2, hx3, hy3, BitVec.toNat_ofNat]
        exact Nat.mod_eq_of_lt (by omega)
      · rw [hxi, hyi, keyLt_congr (old _ hx2) (old _ hy2)]
        have := hs1 y (by simp)
        have hne := hnd.1.1
        unfold prioLe at this; unfold keyLt; rw [hx3, hy3]; omega
      · intro k hk hk2
        rw [hxi, hyi, childIs_congr (old k hk2), childIs_congr (old k hk2)]
        exact ⟨hcx k hk hk2, hcy k hk hk2⟩
      · intro m hm hmx hmy hmk
        rw [hxi] at hmx
        rw [hyi] at hmy ⊢
        rw [keyLt_congr (old _ hy2) (old _ hm)]
        have hmem := (h.live m hm).mpr fun k hk hk2 => by
          rw [← childIs_congr (old k hk2)]; exact hmk k hk hk2
        simp only [List.map_cons, List.mem_cons] at hmem
        rcases hmem with h2 | h2 | h2
        · exact absurd h2 hmx
        · exact absurd h2 hmy
        · obtain ⟨w, hw, rfl⟩ := List.mem_map.mp h2
          exact hlt w (hs3 w hw) (hold w hw) (h.elem w (by simp [hw])).2.2 hmy
    · exact (h.greedy j hj (by simp only; omega)).congr fun i hi => old i (by omega)

/-- The merge keeps the invariant and leaves one element in Q (R134, R135). -/
theorem merge_inv {total count rounds : Nat} {b : Build} (h : BuildInv total count b) (hr : b.q.length ≤ rounds + 1) :
    BuildInv total count (merge rounds b) ∧ (merge rounds b).q.length ≤ 1 ∧ (1 ≤ b.q.length → 1 ≤ (merge rounds b).q.length) ∧
      ∀ i < b.nodes.length, nodeNo (merge rounds b).nodes i = nodeNo b.nodes i := by
  induction rounds generalizing b with
  | zero => exact ⟨h, by simpa [merge] using hr, id, fun _ _ => rfl⟩
  | succ rounds ih =>
    obtain ⟨nodes, q, seq⟩ := b
    match q with
    | [] => exact ⟨by simpa [merge] using h, by simp [merge], by simp, fun _ _ => by simp [merge]⟩
    | [x] => exact ⟨by simpa [merge] using h, by simp [merge], by simp [merge], fun _ _ => by simp [merge]⟩
    | x :: y :: q =>
      have hb := h.round
      have hp := (enqueue_perm { freq := x.freq + y.freq, seq := seq, idx := nextIdx nodes } q).length_eq
      simp only [List.length_cons] at hp hr
      have hge := h.length_ge
      have hsize := h.size
      have hc := h.count_le
      simp only [List.length_cons] at hsize hge
      obtain ⟨i1, i2, i3, i4⟩ := ih hb (by simp only; omega)
      rw [merge]
      refine ⟨i1, i2, fun _ => i3 (by simp only; omega), fun i hi => ?_⟩
      rw [i4 i (by simp only [List.length_append]; simp only at hi; omega)]
      simp only at hi
      exact nodeNo_alloc_lt hi (by omega)

/-! ### The leaves (R132) -/

/-- What holds after the symbols below `m` have been gone through. -/
structure LeafInv (f : Vector Word 128) (m : Nat) (b : Build) : Prop where
  nodes : b.nodes = (presentSyms f m).map fun k => mkLeaf (BitVec.ofNat 7 k) (freqAt f k)
  seq_eq : b.seq = b.nodes.length
  sorted : b.q.Pairwise prioLe
  seqs : (b.q.map QElem.seq).Perm (List.range b.nodes.length)
  elem : ∀ x ∈ b.q, x.idx = BitVec.ofNat 15 x.seq ∧ (nodeNo b.nodes x.seq).freq.toNat = x.freq
  sum : (b.q.map QElem.freq).sum = ((List.range m).map fun k => (freqAt f k).toNat).sum

theorem presentSyms_length_le (f : Vector Word 128) (m : Nat) : (presentSyms f m).length ≤ m := by
  unfold presentSyms
  exact (List.length_filter_le _ _).trans (by simp)

theorem LeafInv.addLeaf {f : Vector Word 128} {m : Nat} {b : Build} (h : LeafInv f m b) (hm : m < 128) :
    LeafInv f (m + 1) (addLeaf f b m) := by
  unfold Machine.addLeaf
  have hpre : presentSyms f (m + 1) = presentSyms f m ++ if freqAt f m = 0 then [] else [m] := by
    unfold presentSyms
    rw [List.range_succ, List.filter_append]
    congr 1
    by_cases h0 : freqAt f m = 0
    · simp [h0]
    · rw [if_neg h0, List.filter_cons_of_pos (by simpa using h0)]; rfl
  split
  · next h0 =>
    refine ⟨by rw [hpre, if_pos h0, List.append_nil, h.nodes], h.seq_eq, h.sorted, h.seqs, h.elem, ?_⟩
    rw [h.sum, List.range_succ, List.map_append, List.sum_append]
    simp [h0]
  · next h0 =>
    have hlen : b.nodes.length ≤ 127 := by
      rw [h.nodes, List.length_map]
      have := presentSyms_length_le f m
      omega
    set z : QElem := { freq := (freqAt f m).toNat, seq := b.seq, idx := nextIdx b.nodes } with hz
    have hperm := enqueue_perm z b.q
    refine ⟨by simp only [hpre, if_neg h0, List.map_append, h.nodes]; rfl, by simp [h.seq_eq], enqueue_sorted h.sorted, ?_, ?_, ?_⟩
    · simp only [List.length_append, List.length_cons, List.length_nil, List.range_succ]
      refine (hperm.map QElem.seq).trans ?_
      rw [List.map_cons]
      refine (List.perm_append_comm (l₁ := [z.seq]) (l₂ := b.q.map QElem.seq)).trans ?_
      rw [hz, h.seq_eq]
      exact List.Perm.append_right _ h.seqs
    · intro x hx
      rcases List.mem_cons.mp (hperm.subset hx) with rfl | hx
      · refine ⟨by simp [hz, nextIdx, h.seq_eq], ?_⟩
        show (nodeNo _ b.seq).freq.toNat = _
        rw [h.seq_eq, nodeNo_alloc_eq (by omega), mkLeaf_freq]
      · have ⟨e1, e2⟩ := h.elem x hx
        have e3 : x.seq < b.nodes.length := by
          have := h.seqs.subset (List.mem_map_of_mem (f := QElem.seq) hx)
          simpa using this
        refine ⟨e1, ?_⟩
        show (nodeNo _ x.seq).freq.toNat = _
        rw [nodeNo_alloc_lt e3 (by omega), e2]
    · show ((enqueue z b.q).map QElem.freq).sum = _
      rw [(hperm.map QElem.freq).sum_eq, List.map_cons, List.sum_cons, h.sum, List.range_succ, List.map_append,
        List.sum_append]
      simp [hz]; omega

theorem leaves_inv (f : Vector Word 128) : LeafInv f 128 (leaves f) := by
  have : ∀ m ≤ 128, LeafInv f m ((List.range m).foldl (addLeaf f) { nodes := [], q := [], seq := 0 }) := by
    intro m hm
    induction m with
    | zero => exact ⟨rfl, rfl, by simp, by simp, by simp, rfl⟩
    | succ m ih =>
      rw [List.range_succ, List.foldl_append]
      exact (ih (by omega)).addLeaf (by omega)
  exact this 128 (by omega)

theorem symCount_le (f : Vector Word 128) : symCount f ≤ 128 := presentSyms_length_le f 128

theorem leaves_nodes_length (f : Vector Word 128) : (leaves f).nodes.length = symCount f := by
  rw [(leaves_inv f).nodes, List.length_map, symCount]

theorem leaves_seq (f : Vector Word 128) : (leaves f).seq = symCount f := by
  rw [(leaves_inv f).seq_eq, leaves_nodes_length]

theorem leaves_q_length (f : Vector Word 128) : (leaves f).q.length = symCount f := by
  have := (leaves_inv f).seqs.length_eq
  rw [List.length_map, List.length_range, leaves_nodes_length] at this
  exact this

/-- Leaf `i` is the one of the `i`-th symbol with a nonzero FREQ (R132). -/
theorem leaves_node {f : Vector Word 128} {i : Nat} (h : i < symCount f) :
    nodeNo (leaves f).nodes i =
      mkLeaf (BitVec.ofNat 7 ((presentSyms f 128).getD i 0)) (freqAt f ((presentSyms f 128).getD i 0)) := by
  have hs := symCount_le f
  rw [nodeNo_eq_getElem (by rw [leaves_nodes_length]; exact h) (by rw [leaves_nodes_length]; omega)]
  have h2 : i < (presentSyms f 128).length := h
  rw [List.getD_eq_getElem _ _ h2]
  simp only [(leaves_inv f).nodes, List.getElem_map]

theorem leaves_buildInv {f : Vector Word 128} (ht : freqTotal f < 2 ^ 32) :
    BuildInv (freqTotal f) (symCount f) (leaves f) := by
  have h := leaves_inv f
  have hl := leaves_nodes_length f
  refine ⟨h.seq_eq, by rw [leaves_q_length, hl]; omega, symCount_le f, by rw [hl], h.sorted, ?_, ?_, h.sum, ht, ?_, ?_⟩
  · exact h.seqs.nodup_iff.mpr List.nodup_range
  · intro x hx
    have ⟨e1, e2⟩ := h.elem x hx
    have := h.seqs.subset (List.mem_map_of_mem (f := QElem.seq) hx)
    exact ⟨e1, by simpa using this, e2⟩
  · intro i hi
    rw [h.seqs.mem_iff, List.mem_range]
    exact ⟨fun _ k hk hk2 => by omega, fun _ => hi⟩
  · intro j hj hj2; omega

theorem presentSyms_mem {f : Vector Word 128} {k : Nat} : k ∈ presentSyms f 128 ↔ k < 128 ∧ freqAt f k ≠ 0 := by
  simp [presentSyms]

theorem presentSyms_sorted (f : Vector Word 128) (m : Nat) : (presentSyms f m).Pairwise (· < ·) :=
  List.Pairwise.filter _ List.pairwise_lt_range

theorem presentSyms_lt {f : Vector Word 128} {i j : Nat} (h : i < j) (hj : j < symCount f) :
    (presentSyms f 128).getD i 0 < (presentSyms f 128).getD j 0 := by
  have h2 : j < (presentSyms f 128).length := hj
  rw [List.getD_eq_getElem _ _ (by omega), List.getD_eq_getElem _ _ h2]
  exact List.pairwise_iff_getElem.mp (presentSyms_sorted f 128) i j (by omega) h2 h

theorem presentSyms_bound {f : Vector Word 128} {i : Nat} (h : i < symCount f) :
    (presentSyms f 128).getD i 0 < 128 ∧ freqAt f ((presentSyms f 128).getD i 0) ≠ 0 := by
  have h2 : i < (presentSyms f 128).length := h
  rw [List.getD_eq_getElem _ _ h2]
  exact presentSyms_mem.mp (List.getElem_mem h2)

/-! ### The tree (R43, R134 to R137) -/

theorem buildTree_zero {f : Vector Word 128} (h : symCount f = 0) : buildTree f = ([], Config.nil) := by
  have hs := leaves_seq f
  rw [h] at hs
  unfold buildTree
  simp only [hs]

theorem buildTree_one {f : Vector Word 128} (h : symCount f = 1) :
    buildTree f = ((leaves f).nodes ++ [mkInternal 0 Config.nil (nodeAt (leaves f).nodes 0).freq], nextIdx (leaves f).nodes) := by
  have hs := leaves_seq f
  rw [h] at hs
  unfold buildTree
  simp only [hs]

theorem buildTree_many {f : Vector Word 128} (h : 2 ≤ symCount f) :
    buildTree f = ((merge (leaves f).q.length (leaves f)).nodes,
      match (merge (leaves f).q.length (leaves f)).q with
      | r :: _ => r.idx
      | [] => Config.nil) := by
  have hs := leaves_seq f
  unfold buildTree
  dsimp only
  rw [hs]
  match hc : symCount f with
  | 0 => omega
  | 1 => omega
  | n + 2 => rfl

/-- What BLD builds from two symbols or more (R134, R135). -/
structure MergedTree (f : Vector Word 128) (nodes : List Node) (root : NodeIdx) : Prop where
  length : nodes.length = 2 * symCount f - 1
  root_last : root.toNat = 2 * symCount f - 2
  leaf : ∀ i < symCount f, nodeNo nodes i =
    mkLeaf (BitVec.ofNat 7 ((presentSyms f 128).getD i 0)) (freqAt f ((presentSyms f 128).getD i 0))
  greedy : ∀ j, symCount f ≤ j → j < 2 * symCount f - 1 → GreedyAt nodes (symCount f) j
  root_freq : (nodeAt nodes root).freq.toNat = freqTotal f
  owned : ∀ i < 2 * symCount f - 2, ∃ k, symCount f ≤ k ∧ k < 2 * symCount f - 1 ∧ childIs nodes k i

theorem buildTree_merged {f : Vector Word 128} (ht : freqTotal f < 2 ^ 32) (h : 2 ≤ symCount f) :
    MergedTree f (buildTree f).1 (buildTree f).2 := by
  have hs := symCount_le f
  have hb := leaves_buildInv ht
  obtain ⟨m1, m2, m3, m4⟩ := merge_inv hb (rounds := (leaves f).q.length) (by omega)
  rw [leaves_q_length] at m1 m2 m3 m4
  rw [buildTree_many h, leaves_q_length]
  have hone := m3 (by omega)
  have hsize := m1.size
  have hlen : (merge (symCount f) (leaves f)).nodes.length = 2 * symCount f - 1 := by omega
  obtain ⟨x, hq⟩ : ∃ x, (merge (symCount f) (leaves f)).q = [x] := by
    match hq : (merge (symCount f) (leaves f)).q with
    | [] => simp [hq] at hone
    | [x] => exact ⟨x, rfl⟩
    | x :: y :: q => simp [hq] at m2
  have ⟨e1, e2, e3⟩ := m1.elem x (by simp [hq])
  -- the one element left is the last record: every other index has a parent or is not alive
  have hlast : ∀ i < (merge (symCount f) (leaves f)).nodes.length, (i = x.seq ↔
      ∀ k, symCount f ≤ k → k < (merge (symCount f) (leaves f)).nodes.length →
        ¬ childIs (merge (symCount f) (leaves f)).nodes k i) := by
    intro i hi
    rw [← m1.live i hi, hq]; simp
  have hxs : x.seq = 2 * symCount f - 2 := by
    have := (hlast (2 * symCount f - 2) (by omega)).mpr ?_
    · exact this.symm
    · intro k hk hk2
      obtain ⟨l, r, g, g1, g2, g3, -⟩ := m1.greedy k hk hk2
      unfold childIs; rw [g1]
      simp only [mkInternal_left, mkInternal_right]; omega
  have hroot : x.idx.toNat = 2 * symCount f - 2 := by rw [e1, idx_toNat (by omega), hxs]
  rw [hq]
  refine ⟨hlen, hroot, ?_, ?_, ?_, ?_⟩
  · intro i hi
    rw [m4 i (by rw [leaves_nodes_length]; exact hi), leaves_node hi]
  · intro j hj hj2
    exact m1.greedy j hj (by omega)
  · show (nodeAt _ x.idx).freq.toNat = _
    rw [← nodeNo_toNat, hroot, ← hxs, e3]
    have := m1.sum
    rw [hq] at this
    simpa using this
  · intro i hi
    by_contra hno
    push Not at hno
    have := (hlast i (by omega)).mpr (fun k hk hk2 => hno k hk (by omega))
    omega

/-- The tree of two symbols or more is owned top-down (R40). -/
theorem MergedTree.isOwned {f : Vector Word 128} {nodes : List Node} {root : NodeIdx} (h : MergedTree f nodes root)
    (h2 : 2 ≤ symCount f) : Owned nodes root := by
  have hs := symCount_le f
  have hlen := h.length
  have hchild : ∀ i < nodes.length, ∀ bit, childOf (nodeNo nodes i) bit ≠ Config.nil →
      symCount f ≤ i ∧ ∃ l r g, nodeNo nodes i = mkInternal l r g ∧ l.toNat < i ∧ r.toNat < i ∧ l.toNat ≠ r.toNat := by
    intro i hi bit hne
    rcases Nat.lt_or_ge i (symCount f) with hlt | hge
    · rw [h.leaf i hlt, childOf_mkLeaf] at hne; exact absurd rfl hne
    · obtain ⟨l, r, g, g1, g2, g3, -, g5, -⟩ := h.greedy i hge (by omega)
      exact ⟨hge, l, r, g, g1, g2, g3, by unfold keyLt at g5; intro he; rw [he] at g5; omega⟩
  have hdist : ∀ i < nodes.length, ∀ j < nodes.length, i < j → ∀ bit bit', childOf (nodeNo nodes i) bit ≠ Config.nil →
      childOf (nodeNo nodes i) bit ≠ childOf (nodeNo nodes j) bit' := by
    intro i hi j hj hij bit bit' hne he
    obtain ⟨hi1, l, r, g, g1, -⟩ := hchild i hi bit hne
    obtain ⟨l', r', g', k1, -, -, -, -, k6, -⟩ := h.greedy j (by omega) (by omega)
    have := k6 i hi1 hij
    unfold childIs at this
    rw [g1] at this he
    rw [k1] at he
    have he := congrArg BitVec.toNat he
    cases bit <;> cases bit' <;> simp at he this <;> omega
  refine ⟨fun i hi bit hne => ?_, fun i hi j hj bit bit' hne he => ?_, fun i hi hr => ?_⟩
  · obtain ⟨-, l, r, g, g1, g2, g3, -⟩ := hchild i hi bit hne
    rw [g1]; cases bit <;> simp <;> omega
  · rcases Nat.lt_trichotomy i j with hlt | rfl | hgt
    · exact absurd he (hdist i hi j hj hlt bit bit' hne)
    · refine ⟨rfl, ?_⟩
      obtain ⟨-, l, r, g, g1, g2, g3, g4⟩ := hchild i hi bit hne
      rw [g1] at he
      have he := congrArg BitVec.toNat he
      cases bit <;> cases bit' <;> simp at he ⊢ <;> omega
    · exact absurd he.symm (hdist j hj i hi hgt bit' bit (by rw [← he]; exact hne))
  · obtain ⟨k, k1, k2, k3⟩ := h.owned i (by have := h.root_last; omega)
    obtain ⟨l, r, g, g1, -⟩ := h.greedy k k1 k2
    refine ⟨k, by omega, ?_⟩
    unfold childIs at k3
    rw [g1] at k3 ⊢
    rcases k3 with k3 | k3
    · exact ⟨false, BitVec.eq_of_toNat_eq (by rw [idx_toNat (by omega)]; exact k3)⟩
    · exact ⟨true, BitVec.eq_of_toNat_eq (by rw [idx_toNat (by omega)]; exact k3)⟩

theorem single_isOwned (sym : Sym) (f : Word) : Owned [mkLeaf sym f, mkInternal 0 Config.nil f] 1 := by
  have h0 : nodeNo [mkLeaf sym f, mkInternal 0 Config.nil f] 0 = mkLeaf sym f := rfl
  have h1 : nodeNo [mkLeaf sym f, mkInternal 0 Config.nil f] 1 = mkInternal 0 Config.nil f := rfl
  refine ⟨fun i hi bit hne => ?_, fun i hi j hj bit bit' hne he => ?_, fun i hi hr => ?_⟩
  · simp only [List.length_cons, List.length_nil] at hi ⊢
    obtain rfl | rfl : i = 0 ∨ i = 1 := by omega
    · rw [h0, childOf_mkLeaf] at hne; exact absurd rfl hne
    · rw [h1] at hne ⊢
      cases bit <;> simp at hne ⊢
  · simp only [List.length_cons, List.length_nil] at hi hj
    obtain rfl | rfl : i = 0 ∨ i = 1 := by omega
    · rw [h0, childOf_mkLeaf] at hne; exact absurd rfl hne
    · obtain rfl | rfl : j = 0 ∨ j = 1 := by omega
      · rw [h0, childOf_mkLeaf] at he; exact absurd he hne
      · rw [h1] at he hne
        refine ⟨rfl, ?_⟩
        cases bit <;> cases bit' <;> first | rfl | (simp [Config.nil] at he hne)
  · simp only [List.length_cons, List.length_nil] at hi
    obtain rfl | rfl : i = 0 ∨ i = 1 := by omega
    · exact ⟨1, by simp, false, by rw [h1]; rfl⟩
    · exact absurd rfl hr

theorem buildTree_owned {f : Vector Word 128} (ht : freqTotal f < 2 ^ 32) : Owned (buildTree f).1 (buildTree f).2 := by
  match hc : symCount f with
  | 0 =>
    rw [buildTree_zero hc]
    exact ⟨fun i hi => by simp at hi, fun i hi => by simp at hi, fun i hi => by simp at hi⟩
  | 1 =>
    have hl := leaves_nodes_length f
    rw [hc] at hl
    obtain ⟨x, hx⟩ := List.length_eq_one_iff.mp hl
    have h0 := leaves_node (f := f) (i := 0) (by omega)
    rw [hx] at h0
    change x = _ at h0
    rw [buildTree_one hc, hx, nextIdx]
    subst h0
    exact single_isOwned _ _
  | n + 2 => exact (buildTree_merged ht (by omega)).isOwned (by omega)

theorem buildTree_shape {f : Vector Word 128} (ht : freqTotal f < 2 ^ 32) :
    BuiltShape (buildTree f).1 (buildTree f).2 (symCount f) := by
  have hs := symCount_le f
  have hleaf1 : symCount f = 1 → (leaves f).nodes = [nodeNo (leaves f).nodes 0] := by
    intro h1
    have hl := leaves_nodes_length f
    rw [h1] at hl
    obtain ⟨x, hx⟩ := List.length_eq_one_iff.mp hl
    rw [hx]; rfl
  have hsym : ∀ i < symCount f, (nodeNo (leaves f).nodes i).sym.toNat = (presentSyms f 128).getD i 0 := by
    intro i hi
    rw [leaves_node hi, mkLeaf_sym, BitVec.toNat_ofNat]
    exact Nat.mod_eq_of_lt (presentSyms_bound hi).1
  have hnode : ∀ i < symCount f, nodeNo (buildTree f).1 i = nodeNo (leaves f).nodes i := by
    intro i hi
    rcases Nat.lt_or_ge (symCount f) 2 with h2 | h2
    · have h1 : symCount f = 1 := by omega
      rw [buildTree_one h1]
      exact nodeNo_alloc_lt (by rw [leaves_nodes_length]; exact hi) (by rw [leaves_nodes_length]; omega)
    · rw [(buildTree_merged ht h2).leaf i hi, leaves_node hi]
  refine ⟨buildTree_owned ht, hs, fun h0 => by rw [buildTree_zero h0]; exact ⟨rfl, rfl⟩, fun h1 => ?_, fun h2 => (buildTree_merged ht h2).length,
    fun h2 => (buildTree_merged ht h2).root_last, ?_, ?_, ?_⟩
  · rw [buildTree_one h1]
    have hn := hleaf1 h1
    have hl := leaves_node (f := f) (i := 0) (by omega)
    refine ⟨BitVec.ofNat 7 ((presentSyms f 128).getD 0 0), freqAt f ((presentSyms f 128).getD 0 0), ?_, ?_⟩
    · show (leaves f).nodes ++ [mkInternal 0 Config.nil (nodeNo (leaves f).nodes 0).freq] = _
      rw [hl, hn, hl]; rfl
    · rw [nextIdx, leaves_nodes_length, h1]; rfl
  · intro i hi
    rw [hnode i hi, leaves_node hi]; exact ⟨_, _, rfl⟩
  · intro i j hij hj
    rw [hnode i (by omega), hnode j hj, hsym i (by omega), hsym j hj]
    exact presentSyms_lt hij hj
  · intro h2 i hi hi2
    obtain ⟨l, r, g, g1, g2, g3, -⟩ := (buildTree_merged ht h2).greedy i hi hi2
    exact ⟨l, r, g, g1, g2, g3⟩

theorem nsym_toNat (f : Vector Word 128) : (BitVec.ofNat 8 (leaves f).seq).toNat = symCount f := by
  have := symCount_le f
  rw [leaves_seq, BitVec.toNat_ofNat]
  exact Nat.mod_eq_of_lt (by omega)

/-- Everything the BLD stage can do. -/
theorem bldStage_ok {s : State} (h : freqTotal s.freq < 2 ^ 32) :
    bldStage s = .ok
      { s with
        nodes := (buildTree s.freq).1
        root := (buildTree s.freq).2
        code := codeZero
        codesValid := false
        nsym := BitVec.ofNat 8 (leaves s.freq).seq
        treeSrc := .built } := by
  rw [bldStage, require_true h, ok_bind]

theorem bldStage_overflow {s : State} (h : 2 ^ 32 ≤ freqTotal s.freq) : bldStage s = raise .freqOverflowError 0 := by
  rw [bldStage, require_false (by omega), raise_bind]

end Sys2Proof.Machine
end

