-- ==== Sys2Proof/Laws/Output.lean ====
section
/-! SUPPORT. The laws of the windows and of `Emit` (spec/20_memory.md R64 to R67, R79): the state after a list of bytes has
been emitted, and what the source window reads as meanwhile. -/

namespace Sys2Proof.Machine

/-! ### Writing a list of bytes -/

/-- Memory with the bytes of a list written from address `a` upward. -/
def putBytes (m : Memory) (a : Nat) : List Byte → Memory
  | [] => m
  | v :: vs => putBytes (memWrite m a v) (a + 1) vs

theorem putBytes_append (m : Memory) (a : Nat) (bs : List Byte) (v : Byte) :
    putBytes m a (bs ++ [v]) = memWrite (putBytes m a bs) (a + bs.length) v := by
  induction bs generalizing m a with
  | nil => rfl
  | cons b bs ih =>
    simp only [List.cons_append, putBytes, ih, List.length_cons]
    congr 1; omega

/-- Bytes written from `a` upward read back in order, every other byte as before. -/
theorem memRead_putBytes (m : Memory) (a : Nat) (bs : List Byte) (x : Nat) :
    memRead (putBytes m a bs) x = if a ≤ x then bs.getD (x - a) (memRead m x) else memRead m x := by
  induction bs generalizing m a with
  | nil => simp [putBytes]
  | cons b bs ih =>
    rw [putBytes, ih, memRead_memWrite]
    by_cases hx : x = a
    · subst hx; simp
    · by_cases h : a ≤ x
      · obtain ⟨d, rfl⟩ : ∃ d, x = a + 1 + d := ⟨x - (a + 1), by omega⟩
        have h1 : a + 1 + d - a = d + 1 := by omega
        simp [h1, show a ≤ a + 1 + d by omega, show ¬ (a + 1 + d = a) by omega]
      · rw [if_neg (by omega), if_neg hx, if_neg h]

theorem memHolds_putBytes (m : Memory) (a : Nat) (bs : List Byte) : memHolds (putBytes m a bs) a bs := by
  intro k h
  rw [memRead_putBytes, if_pos (by omega), Nat.add_sub_cancel_left, List.getD_eq_getElem _ _ h]

theorem putBytes_sameOutside (m : Memory) (a : Nat) (bs : List Byte) : memSameOutside m (putBytes m a bs) a bs.length := by
  intro x hx
  rw [memRead_putBytes]
  split
  · rw [List.getD_eq_default _ _ (by omega)]
  · rfl

theorem putBytes_wf {m : Memory} (h : m.wf) {a : Nat} {bs : List Byte} (hb : a + bs.length ≤ 2 ^ 32) :
    Memory.wf (putBytes m a bs) := by
  induction bs generalizing m a with
  | nil => exact h
  | cons b bs ih =>
    simp only [List.length_cons] at hb
    exact ih (memWrite_wf h (by omega) b) (by omega)

/-! ### The windows -/

theorem checkSrc_ok {s : State} (h : srcInRange s) : checkSrc s = .ok () := require_true h _ _

theorem checkSrc_ok_iff {s : State} {u : Unit} : checkSrc s = .ok u ↔ srcInRange s := require_ok_iff

theorem checkSrc_raise {s : State} (h : ¬ srcInRange s) : checkSrc s = raise .windowError 0 := require_false h _ _

theorem checkBoth_ok {s : State} (h : windowsLegal s) : checkBoth s = .ok () := by
  unfold checkBoth
  rw [checkSrc_ok h.1, ok_bind, require_true h.2.1, ok_bind, require_true h.2.2]

theorem checkBoth_ok_iff {s : State} {u : Unit} : checkBoth s = .ok u ↔ windowsLegal s := by
  unfold checkBoth windowsLegal
  simp [bind_ok_iff, checkSrc_ok_iff, require_ok_iff]

theorem checkBoth_src {s : State} (h : ¬ srcInRange s) : checkBoth s = raise .windowError 0 := by
  unfold checkBoth
  rw [checkSrc_raise h, raise_bind]

theorem checkBoth_dst {s : State} (h : srcInRange s) (h' : ¬ dstInRange s) : checkBoth s = raise .windowError 1 := by
  unfold checkBoth
  rw [checkSrc_ok h, ok_bind, require_false h', raise_bind]

theorem checkBoth_overlap {s : State} (h : srcInRange s) (h' : dstInRange s) (h2 : windowsOverlap s) :
    checkBoth s = raise .windowError 2 := by
  unfold checkBoth
  rw [checkSrc_ok h, ok_bind, require_true h', ok_bind, require_false (by simpa using h2)]

/-- How a window check can end early. -/
theorem checkBoth_error {s : State} {e : Stop} (h : checkBoth s = .error e) : ∃ v, e = .raised .windowError v := by
  unfold checkBoth checkSrc at h
  simp only [bind_error_iff, require_error_iff] at h
  obtain ⟨-, rfl⟩ | ⟨-, -, ⟨-, rfl⟩ | ⟨-, -, -, rfl⟩⟩ := h <;> exact ⟨_, rfl⟩

theorem checkSrc_error {s : State} {e : Stop} (h : checkSrc s = .error e) : e = .raised .windowError 0 :=
  (require_error_iff.mp h).2

/-! ### Emit -/

/-- The state after the bytes of a list have been emitted from the start of the destination window (R67). -/
def emitted (s : State) (bs : List Byte) : State :=
  { s with mem := putBytes s.mem s.dstBase.toNat bs, dstLen := BitVec.ofNat 32 bs.length }

theorem emitted_nil (s : State) : emitted s [] = { s with dstLen := 0 } := rfl

theorem emitted_dstLen {s : State} {bs : List Byte} (h : bs.length ≤ s.dstCap.toNat) :
    (emitted s bs).dstLen.toNat = bs.length := by
  have := s.dstCap.isLt
  show (BitVec.ofNat 32 bs.length).toNat = _
  rw [BitVec.toNat_ofNat]; exact Nat.mod_eq_of_lt (by omega)

theorem emit_emitted {s : State} {bs : List Byte} (v : Byte) (h : bs.length < s.dstCap.toNat) :
    emit v (emitted s bs) = .ok (emitted s (bs ++ [v])) := by
  have hc := s.dstCap.isLt
  have hl : (BitVec.ofNat 32 bs.length).toNat = bs.length := by
    rw [BitVec.toNat_ofNat]; exact Nat.mod_eq_of_lt (by omega)
  unfold emit
  rw [if_neg]
  · simp only [emitted, hl, putBytes_append, List.length_append, List.length_cons, List.length_nil]
    congr 3
    apply BitVec.eq_of_toNat_eq
    simp [BitVec.toNat_ofNat]
  · intro he
    have := congrArg BitVec.toNat he
    simp only [emitted, hl] at this
    omega

theorem emit_full {s : State} {bs : List Byte} (v : Byte) (h : bs.length = s.dstCap.toNat) :
    emit v (emitted s bs) = raise .dstOverflowError s.dstCap.toNat := by
  unfold emit
  rw [if_pos]
  · rfl
  · simp [emitted, h]

/-- A list of bytes that fits is emitted whole. -/
theorem emitAll_emitted {s : State} {bs vs : List Byte} (h : bs.length + vs.length ≤ s.dstCap.toNat) :
    emitAll vs (emitted s bs) = .ok (emitted s (bs ++ vs)) := by
  induction vs generalizing bs with
  | nil => simp [emitAll]
  | cons v vs ih =>
    simp only [List.length_cons] at h
    rw [emitAll, emit_emitted v (by omega), ok_bind, ih (by simp; omega)]
    simp

/-- A list of bytes that does not fit raises DstOverflowError (R67). -/
theorem emitAll_overflow {s : State} {bs vs : List Byte} (h0 : bs.length ≤ s.dstCap.toNat)
    (h : s.dstCap.toNat < bs.length + vs.length) :
    emitAll vs (emitted s bs) = raise .dstOverflowError s.dstCap.toNat := by
  induction vs generalizing bs with
  | nil => simp at h; omega
  | cons v vs ih =>
    simp only [List.length_cons] at h
    rw [emitAll]
    by_cases hf : bs.length = s.dstCap.toNat
    · rw [emit_full v hf, raise_bind]
    · rw [emit_emitted v (by omega), ok_bind, ih (by simp; omega) (by simp; omega)]

/-- HTB never reads what it writes: the windows are disjoint (R64, R73 a). -/
theorem srcByte_emitted {s : State} {bs : List Byte} (hw : ¬ windowsOverlap s) (hb : bs.length ≤ s.dstCap.toNat) {i : Nat}
    (hi : i < s.srcLen.toNat) : srcByte (emitted s bs) i = srcByte s i := by
  show memRead (putBytes _ _ _) _ = _
  rw [memRead_putBytes]
  split
  · next h =>
    rw [List.getD_eq_default]
    · rfl
    · apply Nat.le_of_not_lt
      intro hlt
      apply hw
      refine ⟨?_, ?_, ?_, ?_⟩
      · omega
      · omega
      · have : s.srcBase.toNat + i < s.dstBase.toNat + s.dstCap.toNat := by
          simp only [emitted] at *
          omega
        omega
      · simp only [emitted] at h
        omega
  · rfl

end Sys2Proof.Machine
end

