-- ==== Sys2Proof/Laws/Count.lean ====
section
/-! SUPPORT. The laws of the frequency counter (spec/41_frequency_count.md R121 to R124). -/

namespace Sys2Proof.Machine

theorem freqAt_replicate (k : Nat) : freqAt freqZero k = 0 := by
  unfold freqAt freqZero
  rw [Vector.getElem?_replicate]
  split <;> rfl

theorem freqAt_bump {f : Vector Word 128} {b k : Nat} (hk : k < 128) :
    freqAt (bump f b) k = if k = b then freqAt f b + 1 else freqAt f k := by
  unfold bump freqAt
  rw [Vector.getElem?_setIfInBounds]
  by_cases h : b = k
  · subst h; simp [hk]
  · simp [h, Ne.symm h]

theorem occurrences_succ (s : State) (k i n : Nat) :
    occurrences s k i (n + 1) = (if (srcByte s i).toNat = k then 1 else 0) + occurrences s k (i + 1) n := by
  unfold occurrences
  rw [List.range_succ_eq_map, List.countP_cons, List.countP_map, Nat.add_comm]
  simp only [Nat.add_zero, decide_eq_true_eq]
  congr 1
  congr 1
  funext j
  simp only [Function.comp_apply]
  rw [show i + j.succ = i + 1 + j by omega]

theorem occurrences_le (s : State) (k i n : Nat) : occurrences s k i n ≤ n := by
  unfold occurrences
  exact (List.countP_le_length).trans (by simp)

/-- The count when every byte is a symbol: each FREQ grows by the number of its occurrences (R121, R123, R124). -/
theorem countFrom_ok {s : State} {n i : Nat} {f : Vector Word 128} (hb : ∀ j < n, (srcByte s (i + j)).toNat < 128)
    (hf : ∀ k < 128, (freqAt f k).toNat + n < 2 ^ 32) :
    ∃ f', countFrom s n i f = .ok f' ∧
      ∀ k < 128, (freqAt f' k).toNat = (freqAt f k).toNat + occurrences s k i n := by
  induction n generalizing i f with
  | zero => exact ⟨f, rfl, fun k _ => by simp [occurrences]⟩
  | succ n ih =>
    have h0 : (srcByte s i).toNat < 128 := by simpa using hb 0 (by omega)
    have hbump : ∀ k < 128, (freqAt (bump f (srcByte s i).toNat) k).toNat =
        (freqAt f k).toNat + if (srcByte s i).toNat = k then 1 else 0 := by
      intro k hk
      rw [freqAt_bump hk]
      by_cases h : k = (srcByte s i).toNat
      · rw [if_pos h, if_pos h.symm, ← h, BitVec.toNat_add]
        have := hf k hk
        simp; omega
      · rw [if_neg h, if_neg (Ne.symm h), Nat.add_zero]
    obtain ⟨f', h1, h2⟩ := ih (i := i + 1) (f := bump f (srcByte s i).toNat)
      (fun j hj => by rw [show i + 1 + j = i + (j + 1) by omega]; exact hb (j + 1) (by omega))
      (fun k hk => by have := hf k hk; rw [hbump k hk]; split <;> omega)
    refine ⟨f', ?_, fun k hk => ?_⟩
    · rw [countFrom, require_true (by exact h0), ok_bind, h1]
    · rw [h2 k hk, hbump k hk, occurrences_succ]; omega

/-- The count at the first byte that is no symbol (R122). -/
theorem countFrom_bad {s : State} {n more i : Nat} {f : Vector Word 128} (hb : ∀ j < n, (srcByte s (i + j)).toNat < 128)
    (hbad : 128 ≤ (srcByte s (i + n)).toNat) :
    countFrom s (n + 1 + more) i f = raise .unsupportedSymbolError (i + n) := by
  induction n generalizing i f with
  | zero =>
    rw [show 0 + 1 + more = more + 1 by omega, countFrom, require_false, raise_bind, Nat.add_zero]
    simp only [Nat.add_zero] at hbad
    show ¬ _ < 128
    omega
  | succ n ih =>
    have h0 : (srcByte s i).toNat < 128 := by simpa using hb 0 (by omega)
    rw [show n + 1 + 1 + more = n + 1 + more + 1 by omega, countFrom, require_true (by exact h0), ok_bind,
      ih (fun j hj => by rw [show i + 1 + j = i + (j + 1) by omega]; exact hb (j + 1) (by omega))
        (by rwa [show i + 1 + n = i + (n + 1) by omega]), show i + 1 + n = i + (n + 1) by omega]

theorem countFrom_error {s : State} {n i : Nat} {f : Vector Word 128} {e : Stop} (h : countFrom s n i f = .error e) :
    ∃ v, e = .raised .unsupportedSymbolError v := by
  induction n generalizing i f with
  | zero => simp [countFrom] at h
  | succ n ih =>
    rw [countFrom, bind_error_iff] at h
    rcases h with h | ⟨_, _, h⟩
    · exact ⟨_, (require_error_iff.mp h).2⟩
    · exact ih h

/-- The sum of the occurrences of all symbols is the number of bytes (R123). -/
theorem sum_occurrences {s : State} {i n : Nat} (hb : ∀ j < n, (srcByte s (i + j)).toNat < 128) :
    ((List.range 128).map fun k => occurrences s k i n).sum = n := by
  induction n generalizing i with
  | zero => simp [occurrences]
  | succ n ih =>
    have h0 : (srcByte s i).toNat < 128 := by simpa using hb 0 (by omega)
    have h1 := ih (i := i + 1) (fun j hj => by rw [show i + 1 + j = i + (j + 1) by omega]; exact hb (j + 1) (by omega))
    simp only [occurrences_succ]
    rw [List.sum_map_add, h1]
    have : ∀ m b, ((List.range m).map fun k => if b = k then 1 else 0).sum = if b < m then 1 else 0 := by
      intro m b
      induction m with
      | zero => simp
      | succ m ih => rw [List.range_succ, List.map_append, List.sum_append, ih]; simp; split_ifs <;> omega
    rw [this, if_pos h0, Nat.add_comm]

/-- What the CNT stage does when the window and every byte are legal. -/
theorem cntStage_ok {s : State} (hw : srcInRange s) (hb : ∀ j < s.srcLen.toNat, (srcByte s j).toNat < 128) :
    ∃ f, cntStage s = .ok { s with freq := f } ∧ ∀ k < 128, (freqAt f k).toNat = occurrences s k 0 s.srcLen.toNat := by
  obtain ⟨f, h1, h2⟩ := countFrom_ok (s := s) (n := s.srcLen.toNat) (i := 0) (f := freqZero)
    (fun j hj => by simpa using hb j hj) (fun k _ => by
      rw [freqAt_replicate]; have := s.srcLen.isLt; simpa using this)
  refine ⟨f, ?_, fun k hk => ?_⟩
  · rw [cntStage, checkSrc_ok hw, ok_bind, h1, ok_bind]
  · rw [h2 k hk, freqAt_replicate]; simp

/-- Everything the CNT stage can do. -/
theorem cntStage_cases (s : State) :
    (∃ f, cntStage s = .ok { s with freq := f }) ∨
      ∃ e v, cntStage s = .error (.raised e v) ∧ (e = .windowError ∨ e = .unsupportedSymbolError) := by
  unfold cntStage
  cases h1 : checkSrc s with
  | error e => exact .inr ⟨_, _, by rw [checkSrc_error h1]; rfl, .inl rfl⟩
  | ok u =>
    cases h2 : countFrom s s.srcLen.toNat 0 freqZero with
    | error e =>
      obtain ⟨v, rfl⟩ := countFrom_error h2
      exact .inr ⟨_, v, rfl, .inr rfl⟩
    | ok f => exact .inl ⟨f, rfl⟩

end Sys2Proof.Machine
end

