-- ==== Sys2Proof/Laws/Payload.lean ====
section
/-! SUPPORT. The laws of the bitstream decoder (spec/46_decode.md R200 to R208): the DCP stage is one walk over the bits of the
payload. -/

namespace Sys2Proof.Machine

/-- How a walk over bits ends. -/
inductive RunEnd where
  /-- The bits are used up: the walk position and the symbols given out. -/
  | ended (cur : NodeIdx) (out : List Byte)
  /-- Bit number `k` leads to a missing child (R206). -/
  | missing (k : Nat)
  /-- A symbol does not fit (R208). -/
  | full
  deriving DecidableEq, Repr

/-- The walk (R204) over bits, the first of them number `k`, with room for `cap` symbols in all. -/
def runBits (nodes : List Node) (root : NodeIdx) (cap : Nat) : List Bool → Nat → NodeIdx → List Byte → RunEnd
  | [], _, cur, out => .ended cur out
  | bit :: bits, k, cur, out =>
    let c := childOf (nodeAt nodes cur) bit
    if c = Config.nil then .missing k
    else if (nodeAt nodes c).kind = .leaf then
      if out.length = cap then .full
      else runBits nodes root cap bits (k + 1) root (out ++ [(nodeAt nodes c).sym.setWidth 8])
    else runBits nodes root cap bits (k + 1) c out

theorem runBits_append (nodes : List Node) (root : NodeIdx) (cap : Nat) (p q : List Bool) (k : Nat) (cur : NodeIdx)
    (out : List Byte) :
    runBits nodes root cap (p ++ q) k cur out =
      match runBits nodes root cap p k cur out with
      | .ended cur' out' => runBits nodes root cap q (k + p.length) cur' out'
      | r => r := by
  induction p generalizing k cur out with
  | nil => rfl
  | cons b p ih =>
    simp only [List.cons_append, runBits]
    split
    · rfl
    · split
      · split
        · rfl
        · rw [ih, show k + 1 + p.length = k + (b :: p).length by simp; omega]
      · rw [ih, show k + 1 + p.length = k + (b :: p).length by simp; omega]

/-- What a walk that has ended so makes of a stage whose payload is at offset `off`. -/
def runResult (s : State) (off : Nat) : RunEnd → Except Stop (NodeIdx × State)
  | .ended cur out => .ok (cur, emitted s out)
  | .missing k => raise .formatError (off + k / 8)
  | .full => raise .dstOverflowError s.dstCap.toNat

theorem runBits_out_le {nodes : List Node} {root : NodeIdx} {cap : Nat} {bits : List Bool} {k : Nat} {cur cur' : NodeIdx}
    {out out' : List Byte} (h : runBits nodes root cap bits k cur out = .ended cur' out') (hc : out.length ≤ cap) :
    out'.length ≤ cap := by
  induction bits generalizing k cur out with
  | nil => simp only [runBits, RunEnd.ended.injEq] at h; rw [← h.2]; exact hc
  | cons b bits ih =>
    simp only [runBits] at h
    split at h
    · simp at h
    · split at h
      · split at h
        · simp at h
        · exact ih h (by simp; omega)
      · exact ih h hc

/-- The walk over the bits of one payload byte. -/
theorem walkBits_run {s : State} {off i k : Nat} {bits : List Bool} {cur : NodeIdx} {out : List Byte}
    (hk : ∀ j < bits.length, off + (k + j) / 8 = i) (hc : out.length ≤ s.dstCap.toNat) :
    walkBits i bits cur (emitted s out) = runResult s off (runBits s.nodes s.root s.dstCap.toNat bits k cur out) := by
  induction bits generalizing k cur out with
  | nil => rfl
  | cons b bits ih =>
    have hrest : ∀ j < bits.length, off + (k + 1 + j) / 8 = i := by
      intro j hj
      have := hk (j + 1) (by simp; omega)
      rwa [show k + (j + 1) = k + 1 + j by omega] at this
    have h0 := hk 0 (by simp)
    simp only [walkBits, runBits]
    rw [show (emitted s out).nodes = s.nodes from rfl, show (emitted s out).root = s.root from rfl]
    by_cases hn : childOf (nodeAt s.nodes cur) b = Config.nil
    · rw [require_false (by simpa using hn), raise_bind, if_pos hn]
      rw [Nat.add_zero] at h0
      rw [runResult, h0]
    · rw [require_true hn, ok_bind, if_neg hn]
      split
      · split
        · next hf => rw [emit_full _ hf, raise_bind]; rfl
        · next hf =>
          rw [emit_emitted _ (by omega), ok_bind]
          exact ih hrest (by simp; omega)
      · exact ih hrest hc

theorem usedBits_emitted {s : State} {bs : List Byte} (hw : ¬ windowsOverlap s) (hb : bs.length ≤ s.dstCap.toNat)
    {pad p1 i : Nat} (hi : i < s.srcLen.toNat) : usedBits (emitted s bs) pad p1 i = usedBits s pad p1 i := by
  unfold usedBits
  rw [srcByte_emitted hw hb hi]

theorem usedBits_length (s : State) (pad p1 i : Nat) :
    (usedBits s pad p1 i).length = if i + 1 = p1 then 8 - pad else 8 := by
  unfold usedBits
  rw [List.length_take, byteBits_length]
  split <;> omega

/-- The used bits of the `n` payload bytes from offset `i`. -/
def bitsOfBytes (s : State) (pad p1 i n : Nat) : List Bool :=
  (List.range n).flatMap fun m => usedBits s pad p1 (i + m)

theorem bitsOfBytes_succ (s : State) (pad p1 i n : Nat) :
    bitsOfBytes s pad p1 i (n + 1) = usedBits s pad p1 i ++ bitsOfBytes s pad p1 (i + 1) n := by
  unfold bitsOfBytes
  rw [List.range_succ_eq_map, List.flatMap_cons, List.flatMap_map, Nat.add_zero]
  congr 2
  funext m
  congr 1
  omega

/-- The walk over the payload bytes. -/
theorem walkBytes_run {s : State} (hw : ¬ windowsOverlap s) {pad p1 off m n : Nat} {cur : NodeIdx} {out : List Byte}
    (h1 : off + m + n = p1) (h2 : p1 ≤ s.srcLen.toNat) (hc : out.length ≤ s.dstCap.toNat) :
    walkBytes pad p1 n (off + m) cur (emitted s out) =
      runResult s off (runBits s.nodes s.root s.dstCap.toNat (bitsOfBytes s pad p1 (off + m) n) (8 * m) cur out) := by
  induction n generalizing m cur out with
  | zero => rfl
  | succ n ih =>
    have hl := usedBits_length s pad p1 (off + m)
    rw [walkBytes, usedBits_emitted hw hc (by omega), bitsOfBytes_succ, runBits_append,
      walkBits_run (off := off) (k := 8 * m) (by
        intro j hj
        have : j < 8 := by rw [hl] at hj; split at hj <;> omega
        omega) hc]
    cases hr : runBits s.nodes s.root s.dstCap.toNat (usedBits s pad p1 (off + m)) (8 * m) cur out with
    | missing k => rfl
    | full => rfl
    | ended cur' out' =>
      rw [runResult, ok_bind]
      dsimp only
      rw [show off + m + 1 = off + (m + 1) by omega, ih (by omega) (runBits_out_le hr hc)]
      by_cases hlast : off + m + 1 = p1
      · obtain rfl : n = 0 := by omega
        rfl
      · rw [hl, if_neg hlast, show 8 * (m + 1) = 8 * m + 8 by ring]

/-! ### Codes -/

section
variable {nodes : List Node} {root : NodeIdx}

/-- A walk that does not reach a LEAF, or reaches one with its last bit (R204). -/
theorem runBits_path (hlc : ∀ m, (nodeAt nodes m).kind = .leaf → ∀ b, childOf (nodeAt nodes m) b = Config.nil) {cap : Nat}
    {p : List Bool} {k : Nat} {cur m : NodeIdx} {out : List Byte} (hp : p ≠ []) (hf : follow nodes p cur = some m) :
    runBits nodes root cap p k cur out =
      if (nodeAt nodes m).kind = .leaf then
        if out.length = cap then .full else .ended root (out ++ [(nodeAt nodes m).sym.setWidth 8])
      else .ended m out := by
  induction p generalizing k cur with
  | nil => exact absurd rfl hp
  | cons b p ih =>
    rw [follow] at hf
    split at hf
    · simp at hf
    · next hn =>
      simp only [runBits]
      rw [if_neg hn]
      by_cases hp' : p = []
      · subst hp'
        simp only [follow_nil, Option.some.injEq] at hf
        subst hf
        split
        · split <;> rfl
        · rfl
      · have hcl : (nodeAt nodes (childOf (nodeAt nodes cur) b)).kind ≠ .leaf := by
          intro hk
          cases p with
          | nil => exact hp' rfl
          | cons b' p' => rw [follow, if_pos (hlc _ hk b')] at hf; simp at hf
        rw [if_neg hcl, ih hp' hf]

/-- A walk over the codes of symbols gives out the symbols and ends at the root (R204, R207). -/
theorem runBits_codes (hlc : ∀ m, (nodeAt nodes m).kind = .leaf → ∀ b, childOf (nodeAt nodes m) b = Config.nil)
    (hroot : (nodeAt nodes root).kind ≠ .leaf) {cap : Nat} {bits : List Bool} {syms out : List Byte} {k : Nat}
    (h : codesOf nodes root bits syms) (hc : out.length + syms.length ≤ cap) :
    runBits nodes root cap bits k root out = .ended root (out ++ syms) := by
  obtain ⟨paths, rfl, hf⟩ := h
  induction hf generalizing out k with
  | nil => simp [runBits]
  | @cons p b paths syms hp _ ih =>
    simp only [List.length_cons] at hc
    obtain ⟨m, hm, hk, hs⟩ := hp
    have hne : p ≠ [] := by
      rintro rfl
      simp only [follow_nil, Option.some.injEq] at hm
      subst hm; exact hroot hk
    have hb : (nodeAt nodes m).sym.setWidth 8 = b := by
      apply BitVec.eq_of_toNat_eq
      have := (nodeAt nodes m).sym.isLt
      rw [BitVec.toNat_setWidth, hs]
      exact Nat.mod_eq_of_lt b.isLt
    rw [List.flatten_cons, runBits_append, runBits_path hlc hne hm, if_pos hk, if_neg (by omega)]
    dsimp only
    rw [ih (by simp; omega), hb]
    simp

/-- A walk over the codes of more symbols than fit (R208). -/
theorem runBits_codes_full (hlc : ∀ m, (nodeAt nodes m).kind = .leaf → ∀ b, childOf (nodeAt nodes m) b = Config.nil)
    (hroot : (nodeAt nodes root).kind ≠ .leaf) {cap : Nat} {bits more : List Bool} {syms out : List Byte} {k : Nat}
    (h : codesOf nodes root bits syms) (h0 : out.length ≤ cap) (hc : cap < out.length + syms.length) :
    runBits nodes root cap (bits ++ more) k root out = .full := by
  obtain ⟨paths, rfl, hf⟩ := h
  induction hf generalizing out k with
  | nil => simp at hc; omega
  | @cons p b paths syms hp _ ih =>
    simp only [List.length_cons] at hc
    obtain ⟨m, hm, hk, hs⟩ := hp
    have hne : p ≠ [] := by
      rintro rfl
      simp only [follow_nil, Option.some.injEq] at hm
      subst hm; exact hroot hk
    rw [List.flatten_cons, List.append_assoc, runBits_append, runBits_path hlc hne hm, if_pos hk]
    by_cases hfull : out.length = cap
    · rw [if_pos hfull]
    · rw [if_neg hfull]
      dsimp only
      exact ih (by simp; omega) (by simp; omega)

end

theorem Walkable.leaf_childless_at {nodes : List Node} {root : NodeIdx} (h : Walkable nodes root) (m : NodeIdx)
    (hk : (nodeAt nodes m).kind = .leaf) (b : Bool) : childOf (nodeAt nodes m) b = Config.nil := by
  by_cases hm : m.toNat < nodes.length
  · have := h.leaf_childless m.toNat hm
    rw [nodeNo_toNat] at this
    exact this hk b
  · rw [nodeAt_of_ge (by omega), childOf_freeRecord]

theorem ReconShape.walkable {nodes : List Node} {root : NodeIdx} {n : Nat} (h : ReconShape nodes root n) :
    Walkable nodes root := by
  have h0 := h.root_zero
  have hl := h.length_le
  simp only [Config.nodeCap] at hl
  subst h0
  refine ⟨h.owned, h.length_le, h.length_pos, fun i hi bit he => ?_, fun i hi hk bit => ?_⟩
  · have := (h.child_larger i hi bit (by rw [he]; decide)).1
    rw [he] at this; simp at this
  · rw [nodeNo_eq_getElem hi (by omega)] at hk ⊢
    rcases h.record _ (List.getElem_mem hi) with ⟨s, hs⟩ | ⟨l, r, hs⟩
    · rw [hs, childOf_mkLeaf]
    · rw [hs] at hk; simp at hk

/-! ### The stage -/

/-- The walk of the DCP stage. -/
def dcpRun (s : State) : RunEnd :=
  runBits s.nodes s.root s.dstCap.toNat (walkedBits s) 0 s.root []

theorem dcpStage_of_fits {s : State} (h1 : s.treeSrc = .recon) (hw : windowsLegal s) (hp : payloadFits s) :
    dcpStage s =
      match dcpRun s with
      | .ended cur out => if cur = s.root then .ok (emitted s out) else raise .formatError (s.srcLen.toNat - 1)
      | .missing k => raise .formatError (payloadOff s + k / 8)
      | .full => raise .dstOverflowError s.dstCap.toNat := by
  obtain ⟨p1, p2, p3⟩ := hp
  have hoff : payloadOff s = 1 + 17 * s.nsym.toNat := rfl
  have hrun := walkBytes_run hw.2.2 (pad := filePad s) (p1 := s.srcLen.toNat - 1) (off := payloadOff s) (m := 0)
    (n := s.srcLen.toNat - 1 - payloadOff s) (cur := s.root) (out := []) (by omega) (by omega) (by simp)
  unfold dcpStage
  rw [require_true h1, ok_bind, checkBoth_ok hw, ok_bind]
  simp only []
  rw [require_true (show Config.entryBytes * s.nsym.toNat + 2 ≤ s.srcLen.toNat from p1), ok_bind]
  rw [show srcByte { s with dstLen := 0 } (s.srcLen.toNat - 1) = srcByte s (s.srcLen.toNat - 1) from rfl]
  rw [require_true (show (srcByte s (s.srcLen.toNat - 1)).toNat ≤ 7 from p2), ok_bind]
  rw [require_true (show ¬ (1 + Config.entryBytes * s.nsym.toNat = s.srcLen.toNat - 1 ∧
    (srcByte s (s.srcLen.toNat - 1)).toNat ≠ 0) from p3), ok_bind]
  rw [show walkBytes (srcByte s (s.srcLen.toNat - 1)).toNat (s.srcLen.toNat - 1)
      (s.srcLen.toNat - 1 - (1 + Config.entryBytes * s.nsym.toNat)) (1 + Config.entryBytes * s.nsym.toNat) s.root
      { s with dstLen := 0 } = runResult s (payloadOff s) (dcpRun s) from hrun]
  cases hd : dcpRun s with
  | missing k => rfl
  | full => rfl
  | ended cur out =>
    rw [runResult, ok_bind]
    dsimp only
    rw [show (emitted s out).root = s.root from rfl]
    split
    · next hc => rw [require_true hc, ok_bind]
    · next hc => rw [require_false hc, raise_bind]

theorem dcpStage_notRecon {s : State} (h : s.treeSrc ≠ .recon) : dcpStage s = raise .sequenceError 7 := by
  rw [dcpStage, require_false h, raise_bind]

theorem dcpStage_window {s : State} {x : Stop} (h1 : s.treeSrc = .recon) (hw : checkBoth s = .error x) :
    dcpStage s = .error x := by
  rw [dcpStage, require_true h1, ok_bind, hw, error_bind]

theorem dcpStage_short {s : State} (h1 : s.treeSrc = .recon) (hw : windowsLegal s)
    (h : ¬ 17 * s.nsym.toNat + 2 ≤ s.srcLen.toNat) : dcpStage s = raise .formatError s.srcLen.toNat := by
  unfold dcpStage
  rw [require_true h1, ok_bind, checkBoth_ok hw, ok_bind]
  simp only []
  rw [require_false (show ¬ Config.entryBytes * s.nsym.toNat + 2 ≤ s.srcLen.toNat from h), raise_bind]

theorem dcpStage_badPad {s : State} (h1 : s.treeSrc = .recon) (hw : windowsLegal s)
    (h : 17 * s.nsym.toNat + 2 ≤ s.srcLen.toNat) (hp : ¬ payloadFits s) :
    dcpStage s = raise .formatError (s.srcLen.toNat - 1) := by
  unfold dcpStage
  rw [require_true h1, ok_bind, checkBoth_ok hw, ok_bind]
  simp only []
  rw [require_true (show Config.entryBytes * s.nsym.toNat + 2 ≤ s.srcLen.toNat from h), ok_bind]
  rw [show srcByte { s with dstLen := 0 } (s.srcLen.toNat - 1) = srcByte s (s.srcLen.toNat - 1) from rfl]
  by_cases h7 : filePad s ≤ 7
  · rw [require_true (show (srcByte s (s.srcLen.toNat - 1)).toNat ≤ 7 from h7), ok_bind]
    rw [require_false, raise_bind]
    rw [not_not]
    by_contra hc
    exact hp ⟨h, h7, hc⟩
  · rw [require_false (show ¬ (srcByte s (s.srcLen.toNat - 1)).toNat ≤ 7 from h7), raise_bind]

/-- Everything the DCP stage can do. -/
theorem dcpStage_cases (s : State) :
    (s.treeSrc = .recon ∧ windowsLegal s ∧ ∃ out, dcpStage s = .ok (emitted s out) ∧ out.length ≤ s.dstCap.toNat) ∨
      ∃ e v, dcpStage s = .error (.raised e v) ∧ e ∈ faultsOf .dcp ∧
        ((e = .sequenceError ∨ e = .windowError) ∨ windowsLegal s) := by
  by_cases h1 : s.treeSrc = .recon
  · by_cases hw : windowsLegal s
    · by_cases hs : 17 * s.nsym.toNat + 2 ≤ s.srcLen.toNat
      · by_cases hp : payloadFits s
        · rw [dcpStage_of_fits h1 hw hp]
          cases hd : dcpRun s with
          | missing k => exact .inr ⟨_, _, rfl, by simp [faultsOf], .inr hw⟩
          | full => exact .inr ⟨_, _, rfl, by simp [faultsOf], .inr hw⟩
          | ended cur out =>
            dsimp only
            split
            · exact .inl ⟨h1, hw, out, rfl, runBits_out_le hd (by simp)⟩
            · exact .inr ⟨_, _, rfl, by simp [faultsOf], .inr hw⟩
        · rw [dcpStage_badPad h1 hw hs hp]
          exact .inr ⟨_, _, rfl, by simp [faultsOf], .inr hw⟩
      · rw [dcpStage_short h1 hw hs]
        exact .inr ⟨_, _, rfl, by simp [faultsOf], .inr hw⟩
    · cases hc : checkBoth s with
      | ok u => exact absurd (checkBoth_ok_iff.mp hc) hw
      | error x =>
        obtain ⟨v, rfl⟩ := checkBoth_error hc
        rw [dcpStage_window h1 hc]
        exact .inr ⟨_, _, rfl, by simp [faultsOf], .inl (.inr rfl)⟩
  · rw [dcpStage_notRecon h1]
    exact .inr ⟨_, _, rfl, by simp [faultsOf], .inl (.inl rfl)⟩

end Sys2Proof.Machine
end

