-- ==== Sys2Proof/Laws/Serialize.lean ====
section
/-! SUPPORT. The laws of the serializer (spec/44_serialize.md R160 to R168): the bit buffer, the payload loop and the file
it writes. -/

namespace Sys2Proof.Machine

/-! ### Packing bits into bytes (R95, R166, R167) -/

/-- The full bytes of a bit string. -/
def fullBytes (bits : List Bool) : List Byte := (List.range (bits.length / 8)).map (payloadByte bits)

/-- The bits of a bit string after its full bytes: the bit buffer between two source bytes (R166). -/
def leftBits (bits : List Bool) : List Bool := bits.drop (8 * (bits.length / 8))

@[simp] theorem fullBytes_length (bits : List Bool) : (fullBytes bits).length = bits.length / 8 := by simp [fullBytes]

@[simp] theorem leftBits_length (bits : List Bool) : (leftBits bits).length = bits.length % 8 := by
  simp [leftBits]; omega

theorem payloadByte_eq_take {bits : List Bool} {m : Nat} (h : 8 * m + 8 ≤ bits.length) :
    payloadByte bits m = byteOfBits ((bits.drop (8 * m)).take 8) := by
  unfold payloadByte
  congr 1
  apply List.ext_getElem (by simp; omega)
  intro j h1 h2
  have hj : j < 8 := by simpa using h1
  simp only [List.getElem_map, List.getElem_range, List.getElem_take, List.getElem_drop]
  rw [List.getD_eq_getElem _ _ (by omega)]

theorem payloadByte_drop (bits : List Bool) (k m : Nat) : payloadByte (bits.drop (8 * k)) m = payloadByte bits (k + m) := by
  unfold payloadByte
  congr 1
  apply List.map_congr_left
  intro j _
  simp only [List.getD_eq_getElem?_getD, List.getElem?_drop]
  congr 2; ring

theorem payloadByte_append {bits more : List Bool} {m : Nat} (h : 8 * m + 8 ≤ bits.length) :
    payloadByte (bits ++ more) m = payloadByte bits m := by
  unfold payloadByte
  congr 1
  apply List.map_congr_left
  intro j hj
  have hj : j < 8 := by simpa using hj
  simp only [List.getD_eq_getElem?_getD]
  rw [List.getElem?_append_left (by omega)]

theorem fullBytes_append (bits more : List Bool) :
    fullBytes (bits ++ more) = fullBytes bits ++ fullBytes (leftBits bits ++ more) := by
  have hlen : (leftBits bits ++ more).length / 8 = (bits ++ more).length / 8 - bits.length / 8 := by
    simp only [List.length_append, leftBits_length]; omega
  unfold fullBytes
  rw [hlen]
  have hle : bits.length / 8 ≤ (bits ++ more).length / 8 := by simp only [List.length_append]; omega
  obtain ⟨d, hd⟩ := Nat.exists_eq_add_of_le hle
  rw [hd, Nat.add_sub_cancel_left, List.range_add, List.map_append, List.map_map]
  congr 1
  · apply List.map_congr_left
    intro m hm
    have hm : m < bits.length / 8 := by simpa using hm
    exact payloadByte_append (by omega)
  · apply List.map_congr_left
    intro m _
    simp only [Function.comp_apply]
    rw [← payloadByte_drop, List.drop_append_of_le_length (by omega)]
    rfl

theorem leftBits_append (bits more : List Bool) : leftBits (bits ++ more) = leftBits (leftBits bits ++ more) := by
  have h1 : (leftBits bits ++ more).length = bits.length % 8 + more.length := by simp
  have h2 : leftBits bits ++ more = (bits ++ more).drop (8 * (bits.length / 8)) := by
    rw [List.drop_append_of_le_length (by omega)]; rfl
  conv_lhs => rw [leftBits]
  conv_rhs => rw [leftBits, h1, h2, List.drop_drop]
  congr 1
  simp only [List.length_append]; omega

theorem fullBytes_of_short {bits : List Bool} (h : bits.length < 8) : fullBytes bits = [] := by
  simp [fullBytes, Nat.div_eq_of_lt h]

theorem leftBits_of_short {bits : List Bool} (h : bits.length < 8) : leftBits bits = bits := by
  simp [leftBits, Nat.div_eq_of_lt h]

theorem fullBytes_of_long {bits : List Bool} (h : 8 ≤ bits.length) :
    fullBytes bits = byteOfBits (bits.take 8) :: fullBytes (bits.drop 8) := by
  have h1 := payloadByte_eq_take (bits := bits) (m := 0) (by omega)
  simp only [Nat.mul_zero, List.drop_zero] at h1
  rw [← h1]
  unfold fullBytes
  have hl : bits.length / 8 = (bits.drop 8).length / 8 + 1 := by simp; omega
  rw [hl, List.range_succ_eq_map, List.map_cons, List.map_map]
  congr 1
  apply List.map_congr_left
  intro m _
  simp only [Function.comp_apply]
  have := payloadByte_drop bits 1 m
  rw [Nat.add_comm] at this
  exact this.symm

theorem leftBits_of_long {bits : List Bool} (h : 8 ≤ bits.length) : leftBits bits = leftBits (bits.drop 8) := by
  unfold leftBits
  rw [List.drop_drop]
  congr 1
  simp; omega

/-- The payload is the full bytes and, if bits are left, one byte more (R95, R167). -/
theorem packBits_tail (bits : List Bool) :
    fullBytes bits ++ tailBytes (leftBits bits) = packBits bits ++ [BitVec.ofNat 8 (padCount bits.length)] := by
  unfold tailBytes
  rw [leftBits_length]
  split
  · next h =>
    have h1 : (bits.length + 7) / 8 = bits.length / 8 + 1 := by omega
    have h2 : padCount bits.length = 8 - bits.length % 8 := by unfold padCount; omega
    rw [packBits, h1, h2, List.range_succ, List.map_append, List.append_assoc]
    congr 1
    simp only [List.map_cons, List.map_nil, List.cons_append, List.nil_append]
    congr 1
    unfold payloadByte
    congr 1
    apply List.ext_getElem (by simp; omega)
    intro j h3 h4
    have hj : j < 8 := by simpa using h4
    simp only [List.getElem_map, List.getElem_range]
    by_cases hlt : j < bits.length % 8
    · rw [List.getElem_append_left (by simpa using hlt), List.getD_eq_getElem _ _ (by omega)]
      simp [leftBits]
    · rw [List.getElem_append_right (by simpa using hlt), List.getD_eq_default _ _ (by omega)]
      simp
  · next h =>
    have h1 : (bits.length + 7) / 8 = bits.length / 8 := by omega
    have h2 : padCount bits.length = 0 := by unfold padCount; omega
    rw [packBits, h1, h2]; rfl

@[simp] theorem packBits_length (bits : List Bool) : (packBits bits).length = (bits.length + 7) / 8 := by simp [packBits]

/-! ### The inner loop -/

theorem flush_emitted {s : State} {bs : List Byte} {n : Nat} {acc : List Bool} (hn : acc.length ≤ 8 * n + 7)
    (h : bs.length + acc.length / 8 ≤ s.dstCap.toNat) :
    flush n acc (emitted s bs) = .ok (leftBits acc, emitted s (bs ++ fullBytes acc)) := by
  induction n generalizing acc bs with
  | zero => rw [flush, leftBits_of_short (by omega), fullBytes_of_short (by omega), List.append_nil]
  | succ n ih =>
    rw [flush]
    split
    · next h8 =>
      rw [emit_emitted _ (by omega), ok_bind, ih (by simp; omega) (by simp; omega), ← leftBits_of_long h8,
        fullBytes_of_long h8]
      simp
    · rw [leftBits_of_short (by omega), fullBytes_of_short (by omega), List.append_nil]

theorem flush_overflow {s : State} {bs : List Byte} {n : Nat} {acc : List Bool} (hn : acc.length ≤ 8 * n + 7)
    (h0 : bs.length ≤ s.dstCap.toNat) (h : s.dstCap.toNat < bs.length + acc.length / 8) :
    flush n acc (emitted s bs) = raise .dstOverflowError s.dstCap.toNat := by
  induction n generalizing acc bs with
  | zero => omega
  | succ n ih =>
    rw [flush, if_pos (by omega)]
    by_cases hf : bs.length = s.dstCap.toNat
    · rw [emit_full _ hf, raise_bind]
    · rw [emit_emitted _ (by omega), ok_bind, ih (by simp; omega) (by simp; omega) (by simp; omega)]

/-! ### The payload loop -/

theorem bitsFrom_succ (s : State) (i n : Nat) :
    bitsFrom s i (n + 1) = codeBits (codeAt s.code (srcByte s i).toNat) ++ bitsFrom s (i + 1) n := by
  unfold bitsFrom
  rw [List.range_succ_eq_map, List.flatMap_cons, List.flatMap_map]
  simp only [Nat.add_zero]
  congr 2
  funext k
  rw [show i + (k + 1) = i + 1 + k by omega]

theorem bitsFrom_zero (s : State) : bitsFrom s 0 s.srcLen.toNat = sourceBits s := by
  simp [bitsFrom, sourceBits]

theorem payloadFrom_emitted {s : State} (hw : ¬ windowsOverlap s) {n i : Nat} {hdr : List Byte} {bits : List Bool}
    (hi : i + n ≤ s.srcLen.toNat) (hg : ∀ k, i ≤ k → k < i + n → encodable s k)
    (h : hdr.length + (bits ++ bitsFrom s i n).length / 8 ≤ s.dstCap.toNat) :
    payloadFrom n i (leftBits bits) (emitted s (hdr ++ fullBytes bits)) =
      .ok (leftBits (bits ++ bitsFrom s i n), emitted s (hdr ++ fullBytes (bits ++ bitsFrom s i n))) := by
  induction n generalizing i bits with
  | zero => simp [payloadFrom, bitsFrom]
  | succ n ih =>
    have hle : (hdr ++ fullBytes bits).length ≤ s.dstCap.toNat := by
      simp only [List.length_append, fullBytes_length] at h ⊢; omega
    have hb := srcByte_emitted hw hle (i := i) (by omega)
    have hc : (emitted s (hdr ++ fullBytes bits)).code = s.code := rfl
    have ⟨g1, g2⟩ := hg i (by omega) (by omega)
    rw [payloadFrom, hb, hc, require_true (by exact g1), ok_bind, require_true g2, ok_bind]
    rw [bitsFrom_succ, ← List.append_assoc] at h ⊢
    generalize hcb : codeBits (codeAt s.code (srcByte s i).toNat) = cb at h ⊢
    dsimp only
    rw [flush_emitted (by omega) (by
      simp only [List.length_append, fullBytes_length, leftBits_length] at h ⊢; omega), ok_bind]
    dsimp only
    rw [List.append_assoc, ← fullBytes_append, ← leftBits_append]
    exact ih (by omega) (fun k h1 h2 => hg k (by omega) (by omega)) h

/-- The payload loop when a byte does not fit (R67), whatever the source bytes after the `n` first are. -/
theorem payloadFrom_overflow {s : State} (hw : ¬ windowsOverlap s) {n i more : Nat} {hdr : List Byte} {bits : List Bool}
    (hi : i + n + more ≤ s.srcLen.toNat) (hg : ∀ k, i ≤ k → k < i + n → encodable s k)
    (h0 : hdr.length + bits.length / 8 ≤ s.dstCap.toNat)
    (h : s.dstCap.toNat < hdr.length + (bits ++ bitsFrom s i n).length / 8) :
    payloadFrom (n + more) i (leftBits bits) (emitted s (hdr ++ fullBytes bits)) =
      raise .dstOverflowError s.dstCap.toNat := by
  induction n generalizing i bits with
  | zero => simp [bitsFrom] at h; omega
  | succ n ih =>
    have hle : (hdr ++ fullBytes bits).length ≤ s.dstCap.toNat := by
      simp only [List.length_append, fullBytes_length]; omega
    have hb := srcByte_emitted hw hle (i := i) (by omega)
    have hc : (emitted s (hdr ++ fullBytes bits)).code = s.code := rfl
    have ⟨g1, g2⟩ := hg i (by omega) (by omega)
    rw [show n + 1 + more = n + more + 1 by omega, payloadFrom, hb, hc, require_true (by exact g1), ok_bind, require_true g2,
      ok_bind]
    rw [bitsFrom_succ, ← List.append_assoc] at h
    generalize hcb : codeBits (codeAt s.code (srcByte s i).toNat) = cb at h ⊢
    dsimp only
    by_cases hf : hdr.length + (bits ++ cb).length / 8 ≤ s.dstCap.toNat
    · rw [flush_emitted (by omega) (by
        simp only [List.length_append, fullBytes_length, leftBits_length] at hf ⊢; omega), ok_bind]
      dsimp only
      rw [List.append_assoc, ← fullBytes_append, ← leftBits_append]
      exact ih (by omega) (fun k h1 h2 => hg k (by omega) (by omega)) hf h
    · rw [flush_overflow (by omega) hle (by
        simp only [List.length_append, fullBytes_length, leftBits_length] at hf ⊢; omega), raise_bind]

/-- The payload loop at the first source byte that has no code, at offset `i + n` (R165). -/
theorem payloadFrom_bad {s : State} (hw : ¬ windowsOverlap s) {n i more : Nat} {hdr : List Byte} {bits : List Bool}
    (hi : i + n + 1 + more ≤ s.srcLen.toNat) (hg : ∀ k, i ≤ k → k < i + n → encodable s k) (hbad : ¬ encodable s (i + n))
    (h : hdr.length + (bits ++ bitsFrom s i n).length / 8 ≤ s.dstCap.toNat) :
    payloadFrom (n + 1 + more) i (leftBits bits) (emitted s (hdr ++ fullBytes bits)) =
      if (srcByte s (i + n)).toNat < 128 then raise .noCodeError (i + n) else raise .unsupportedSymbolError (i + n) := by
  induction n generalizing i bits with
  | zero =>
    have hle : (hdr ++ fullBytes bits).length ≤ s.dstCap.toNat := by
      simp only [List.length_append, fullBytes_length] at h ⊢; omega
    have hb := srcByte_emitted hw hle (i := i) (by omega)
    have hc : (emitted s (hdr ++ fullBytes bits)).code = s.code := rfl
    simp only [Nat.add_zero] at hbad ⊢
    rw [show 0 + 1 + more = more + 1 by omega, payloadFrom, hb, hc]
    by_cases h1 : (srcByte s i).toNat < 128
    · rw [if_pos h1, require_true (by exact h1), ok_bind, require_false, raise_bind]
      intro h2; exact hbad ⟨h1, h2⟩
    · rw [if_neg h1, require_false (by exact h1), raise_bind]
  | succ n ih =>
    have hle : (hdr ++ fullBytes bits).length ≤ s.dstCap.toNat := by
      simp only [List.length_append, fullBytes_length] at h ⊢; omega
    have hb := srcByte_emitted hw hle (i := i) (by omega)
    have hc : (emitted s (hdr ++ fullBytes bits)).code = s.code := rfl
    have ⟨g1, g2⟩ := hg i (by omega) (by omega)
    rw [show n + 1 + 1 + more = n + 1 + more + 1 by omega, payloadFrom, hb, hc, require_true (by exact g1), ok_bind,
      require_true g2, ok_bind]
    rw [bitsFrom_succ, ← List.append_assoc] at h
    generalize hcb : codeBits (codeAt s.code (srcByte s i).toNat) = cb at h ⊢
    dsimp only
    rw [flush_emitted (by omega) (by
      simp only [List.length_append, fullBytes_length, leftBits_length] at h ⊢; omega), ok_bind]
    dsimp only
    rw [List.append_assoc, ← fullBytes_append, ← leftBits_append, show i + (n + 1) = i + 1 + n by omega]
    exact ih (by omega) (fun k h1 h2 => hg k (by omega) (by omega)) (by rwa [show i + (n + 1) = i + 1 + n by omega] at hbad) h

/-! ### The SER stage -/

theorem compressedFile_eq (s : State) :
    compressedFile s = headerBytes s ++ (fullBytes (sourceBits s) ++ tailBytes (leftBits (sourceBits s))) := by
  rw [packBits_tail, compressedFile, List.append_assoc]

theorem headerBytes_withLen (s : State) (n : Word) : headerBytes { s with dstLen := n } = headerBytes s := rfl

/-- What the SER stage does when every source byte has a code and the file fits (R160, R168). -/
theorem serStage_ok {s : State} (h1 : s.treeSrc = .built) (h2 : s.codesValid = true) (hw : windowsLegal s)
    (hg : ∀ k < s.srcLen.toNat, encodable s k) (hc : (compressedFile s).length ≤ s.dstCap.toNat) :
    serStage s = .ok (emitted s (compressedFile s)) := by
  have hlen : (headerBytes s).length + (fullBytes (sourceBits s)).length + (tailBytes (leftBits (sourceBits s))).length
      ≤ s.dstCap.toNat := by
    rw [compressedFile_eq] at hc; simp only [List.length_append] at hc ⊢; omega
  unfold serStage
  rw [require_true ⟨h1, h2⟩, ok_bind, checkBoth_ok hw, ok_bind]
  rw [← emitted_nil, emitAll_emitted (by simp only [List.length_nil]; omega), ok_bind, List.nil_append]
  have hp := payloadFrom_emitted (s := s) hw.2.2 (n := s.srcLen.toNat) (i := 0) (hdr := headerBytes s) (bits := [])
    (by omega) (fun k _ hk => hg k (by omega)) (by
      rw [List.nil_append, bitsFrom_zero]; rw [fullBytes_length] at hlen; omega)
  rw [List.nil_append, bitsFrom_zero] at hp
  have h3 : leftBits [] = [] := rfl
  have h4 : headerBytes s ++ fullBytes [] = headerBytes s := by rw [show fullBytes [] = [] from rfl, List.append_nil]
  rw [h3, h4] at hp
  have h5 : (emitted s (headerBytes s)).srcLen = s.srcLen := rfl
  rw [h5, hp, ok_bind]
  dsimp only
  rw [emitAll_emitted (by simp only [List.length_append]; omega), compressedFile_eq, List.append_assoc]

/-- What the SER stage does when every source byte has a code and the file does not fit (R67, R169 f). -/
theorem serStage_overflow {s : State} (h1 : s.treeSrc = .built) (h2 : s.codesValid = true) (hw : windowsLegal s)
    (hg : ∀ k < s.srcLen.toNat, encodable s k) (hc : s.dstCap.toNat < (compressedFile s).length) :
    serStage s = raise .dstOverflowError s.dstCap.toNat := by
  have hlen : s.dstCap.toNat <
      (headerBytes s).length + (fullBytes (sourceBits s)).length + (tailBytes (leftBits (sourceBits s))).length := by
    rw [compressedFile_eq] at hc; simp only [List.length_append] at hc ⊢; omega
  unfold serStage
  rw [require_true ⟨h1, h2⟩, ok_bind, checkBoth_ok hw, ok_bind]
  rw [← emitted_nil]
  by_cases hh : (headerBytes s).length ≤ s.dstCap.toNat
  · rw [emitAll_emitted (by simp only [List.length_nil]; omega), ok_bind, List.nil_append]
    have h3 : leftBits [] = [] := rfl
    have h4 : headerBytes s ++ fullBytes [] = headerBytes s := by
      rw [show fullBytes [] = [] from rfl, List.append_nil]
    have h5 : (emitted s (headerBytes s)).srcLen = s.srcLen := rfl
    by_cases hp : (headerBytes s).length + (fullBytes (sourceBits s)).length ≤ s.dstCap.toNat
    · have hp' := payloadFrom_emitted (s := s) hw.2.2 (n := s.srcLen.toNat) (i := 0) (hdr := headerBytes s) (bits := [])
        (by omega) (fun k _ hk => hg k (by omega)) (by
          rw [List.nil_append, bitsFrom_zero]; rw [fullBytes_length] at hp; omega)
      rw [List.nil_append, bitsFrom_zero, h3, h4] at hp'
      rw [h5, hp', ok_bind]
      exact emitAll_overflow (by simp only [List.length_append]; omega) (by simp only [List.length_append]; omega)
    · have hp' := payloadFrom_overflow (s := s) hw.2.2 (n := s.srcLen.toNat) (i := 0) (more := 0) (hdr := headerBytes s)
        (bits := []) (by omega) (fun k _ hk => hg k (by omega)) (by simpa using hh) (by
          rw [List.nil_append, bitsFrom_zero]; rw [fullBytes_length] at hp; omega)
      rw [h3, h4, Nat.add_zero] at hp'
      rw [h5, hp', raise_bind]
  · rw [emitAll_overflow (by simp) (by simp only [List.length_nil]; omega), raise_bind]

/-- What the SER stage does when the output up to source offset `i` does not fit (R67): no later source byte is looked at. -/
theorem serStage_overflowAt {s : State} (h1 : s.treeSrc = .built) (h2 : s.codesValid = true) (hw : windowsLegal s) {i : Nat}
    (hi : i ≤ s.srcLen.toNat) (hg : ∀ k < i, encodable s k)
    (hc : s.dstCap.toNat < (headerBytes s).length + (bitsFrom s 0 i).length / 8) :
    serStage s = raise .dstOverflowError s.dstCap.toNat := by
  unfold serStage
  rw [require_true ⟨h1, h2⟩, ok_bind, checkBoth_ok hw, ok_bind]
  rw [← emitted_nil]
  by_cases hh : (headerBytes s).length ≤ s.dstCap.toNat
  · rw [emitAll_emitted (by simp only [List.length_nil]; omega), ok_bind, List.nil_append]
    have h3 : leftBits [] = [] := rfl
    have h4 : headerBytes s ++ fullBytes [] = headerBytes s := by
      rw [show fullBytes [] = [] from rfl, List.append_nil]
    have h5 : (emitted s (headerBytes s)).srcLen = s.srcLen := rfl
    have hp' := payloadFrom_overflow (s := s) hw.2.2 (n := i) (i := 0) (more := s.srcLen.toNat - i) (hdr := headerBytes s)
      (bits := []) (by omega) (fun k _ hk => hg k (by omega)) (by simpa using hh) (by rw [List.nil_append]; exact hc)
    rw [h3, h4, show i + (s.srcLen.toNat - i) = s.srcLen.toNat by omega] at hp'
    rw [h5, hp', raise_bind]
  · rw [emitAll_overflow (by simp) (by simp only [List.length_nil]; omega), raise_bind]

/-- What the SER stage does at the first source byte without a code, when the output up to it fits (R165). -/
theorem serStage_bad {s : State} (h1 : s.treeSrc = .built) (h2 : s.codesValid = true) (hw : windowsLegal s) {i : Nat}
    (hi : i < s.srcLen.toNat) (hg : ∀ k < i, encodable s k) (hbad : ¬ encodable s i)
    (hc : (headerBytes s).length + (bitsFrom s 0 i).length / 8 ≤ s.dstCap.toNat) :
    serStage s =
      if (srcByte s i).toNat < 128 then raise .noCodeError i else raise .unsupportedSymbolError i := by
  unfold serStage
  rw [require_true ⟨h1, h2⟩, ok_bind, checkBoth_ok hw, ok_bind]
  rw [← emitted_nil, emitAll_emitted (by simp only [List.length_nil]; omega), ok_bind, List.nil_append]
  have hp := payloadFrom_bad (s := s) hw.2.2 (n := i) (i := 0) (more := s.srcLen.toNat - i - 1) (hdr := headerBytes s)
    (bits := []) (by omega) (fun k _ hk => hg k (by omega)) (by simpa using hbad) (by rw [List.nil_append]; exact hc)
  have h3 : leftBits [] = [] := rfl
  have h4 : headerBytes s ++ fullBytes [] = headerBytes s := by rw [show fullBytes [] = [] from rfl, List.append_nil]
  have h5 : (emitted s (headerBytes s)).srcLen = s.srcLen := rfl
  rw [h3, h4, Nat.zero_add, show i + 1 + (s.srcLen.toNat - i - 1) = s.srcLen.toNat by omega] at hp
  rw [h5, hp]
  split <;> rfl

theorem serStage_noCodes {s : State} (h : ¬ (s.treeSrc = .built ∧ s.codesValid = true)) :
    serStage s = raise .sequenceError 5 := by
  rw [serStage, require_false h, raise_bind]

theorem serStage_window {s : State} {x : Stop} (h : s.treeSrc = .built ∧ s.codesValid = true) (hw : checkBoth s = .error x) :
    serStage s = .error x := by
  rw [serStage, require_true h, ok_bind, hw, error_bind]

/-- Everything the SER stage can do. -/
theorem serStage_cases (s : State) :
    (s.treeSrc = .built ∧ s.codesValid = true ∧ windowsLegal s ∧ (∀ k < s.srcLen.toNat, encodable s k) ∧
      (compressedFile s).length ≤ s.dstCap.toNat ∧ serStage s = .ok (emitted s (compressedFile s))) ∨
      ∃ e v, serStage s = .error (.raised e v) ∧ e ∈ faultsOf .ser ∧
        ((e = .sequenceError ∨ e = .windowError) ∨ windowsLegal s) := by
  by_cases h1 : s.treeSrc = .built ∧ s.codesValid = true
  · by_cases hw : windowsLegal s
    · by_cases hg : ∀ k < s.srcLen.toNat, encodable s k
      · by_cases hc : (compressedFile s).length ≤ s.dstCap.toNat
        · exact .inl ⟨h1.1, h1.2, hw, hg, hc, serStage_ok h1.1 h1.2 hw hg hc⟩
        · rw [serStage_overflow h1.1 h1.2 hw hg (by omega)]
          exact .inr ⟨_, _, rfl, by simp [faultsOf], .inr hw⟩
      · right
        classical
        have hex : ∃ i, i < s.srcLen.toNat ∧ ¬ encodable s i := by
          by_contra hcon
          exact hg fun i hi => by_contra fun hb => hcon ⟨i, hi, hb⟩
        obtain ⟨hlt, hb⟩ := Nat.find_spec hex
        have hfirst : ∀ k < Nat.find hex, encodable s k := fun k hk => by
          by_contra hb'
          exact Nat.find_min hex hk ⟨by omega, hb'⟩
        by_cases hc : (headerBytes s).length + (bitsFrom s 0 (Nat.find hex)).length / 8 ≤ s.dstCap.toNat
        · rw [serStage_bad h1.1 h1.2 hw hlt hfirst hb hc]
          split
          · exact ⟨_, _, rfl, by simp [faultsOf], .inr hw⟩
          · exact ⟨_, _, rfl, by simp [faultsOf], .inr hw⟩
        · rw [serStage_overflowAt h1.1 h1.2 hw hlt.le hfirst (by omega)]
          exact ⟨_, _, rfl, by simp [faultsOf], .inr hw⟩
    · cases hc : checkBoth s with
      | ok u => exact absurd (checkBoth_ok_iff.mp hc) hw
      | error x =>
        obtain ⟨v, rfl⟩ := checkBoth_error hc
        rw [serStage_window h1 hc]
        exact .inr ⟨_, _, rfl, by simp [faultsOf], .inl (.inr rfl)⟩
  · rw [serStage_noCodes h1]
    exact .inr ⟨_, _, rfl, by simp [faultsOf], .inl (.inl rfl)⟩

end Sys2Proof.Machine
end

