-- ==== Sys2Proof/Laws/File.lean ====
section
/-! SUPPORT. The compressed file byte by byte (spec/30_encoding.md R90 to R96), and what its payload reads back as
(spec/46_decode.md R204, R205). -/

namespace Sys2Proof.Machine

@[simp] theorem entryBytes_length (s : State) (i : Nat) : (entryBytes s i).length = 17 := by simp [entryBytes]

@[simp] theorem entryOrder_length (nodes : List Node) (count : Nat) : (entryOrder nodes count).length = count := by
  rw [entryOrder, List.length_insertionSort, List.length_range]

theorem mem_entryOrder {nodes : List Node} {count j : Nat} : j ∈ entryOrder nodes count ↔ j < count := by
  rw [entryOrder, (List.perm_insertionSort _ _).mem_iff, List.mem_range]

theorem entryOrder_nodup (nodes : List Node) (count : Nat) : (entryOrder nodes count).Nodup :=
  (List.perm_insertionSort _ _).nodup_iff.mpr List.nodup_range

theorem headerBytes_length (s : State) : (headerBytes s).length = 1 + 17 * s.nsym.toNat := by
  have : ∀ l : List Nat, (l.flatMap (entryBytes s)).length = 17 * l.length := by
    intro l
    induction l with
    | nil => rfl
    | cons a l ih => rw [List.flatMap_cons, List.length_append, ih, entryBytes_length, List.length_cons]; ring
  unfold headerBytes
  rw [List.length_cons, this, entryOrder_length]
  omega

theorem compressedFile_length (s : State) :
    (compressedFile s).length = 1 + 17 * s.nsym.toNat + ((sourceBits s).length + 7) / 8 + 1 := by
  simp only [compressedFile, List.length_append, headerBytes_length, packBits_length, List.length_cons, List.length_nil]

theorem entriesFlat_getD (s : State) (l : List Nat) (rest : List Byte) {e j : Nat} (he : e < l.length) (hj : j < 17) :
    (l.flatMap (entryBytes s) ++ rest).getD (17 * e + j) 0 = (entryBytes s (l.getD e 0)).getD j 0 := by
  induction l generalizing e with
  | nil => simp at he
  | cons a l ih =>
    have hl := entryBytes_length s a
    rw [List.flatMap_cons, List.append_assoc]
    cases e with
    | zero => rw [List.getD_append _ _ _ _ (by omega)]; simp
    | succ e =>
      rw [List.getD_append_right _ _ _ _ (by omega), show 17 * (e + 1) + j - (entryBytes s a).length = 17 * e + j by omega,
        ih (by simpa using he)]
      simp

/-- Byte `j` of entry `e` of the file. -/
theorem file_entry (s : State) {e j : Nat} (he : e < s.nsym.toNat) (hj : j < 17) :
    (compressedFile s).getD (1 + 17 * e + j) 0 = (entryBytes s ((entryOrder s.nodes s.nsym.toNat).getD e 0)).getD j 0 := by
  unfold compressedFile headerBytes
  rw [List.append_assoc, List.cons_append, show 1 + 17 * e + j = (17 * e + j) + 1 by omega, List.getD_cons_succ]
  exact entriesFlat_getD _ _ _ (by rw [entryOrder_length]; exact he) hj

theorem packBits_getD {bits : List Bool} {m : Nat} (h : m < (bits.length + 7) / 8) :
    (packBits bits).getD m 0 = payloadByte bits m := by
  rw [List.getD_eq_getElem _ _ (by simpa using h)]; simp [packBits]

/-- Byte `m` of the payload in the file. -/
theorem file_payload (s : State) {m : Nat} (h : m < ((sourceBits s).length + 7) / 8) :
    (compressedFile s).getD (1 + 17 * s.nsym.toNat + m) 0 = payloadByte (sourceBits s) m := by
  have hdr := headerBytes_length s
  unfold compressedFile
  rw [List.append_assoc, List.getD_append_right _ _ _ _ (by omega), List.getD_append _ _ _ _ (by rw [packBits_length]; omega),
    show 1 + 17 * s.nsym.toNat + m - (headerBytes s).length = m by omega, packBits_getD h]

/-- The last byte of the file. -/
theorem file_pad (s : State) :
    (compressedFile s).getD ((compressedFile s).length - 1) 0 = BitVec.ofNat 8 (padCount (sourceBits s).length) := by
  unfold compressedFile
  rw [List.getD_append_right _ _ _ _ (by simp)]
  simp

theorem padCount_le (t : Nat) : padCount t ≤ 7 ∧ t + padCount t = 8 * ((t + 7) / 8) := by
  unfold padCount; omega

theorem payloadByte_bit (bits : List Bool) (m : Nat) {j : Nat} (h : j < 8) :
    (payloadByte bits m).getLsbD (7 - j) = bits.getD (8 * m + j) false := by
  have h8 : ((List.range 8).map fun j => bits.getD (8 * m + j) false).length = 8 := by simp
  have h2 := byteBits_byteOfBits h8
  have h3 := congrArg (fun l => l.getD j false) h2
  rw [List.getD_eq_getElem _ _ (by simpa using h), List.getD_eq_getElem _ _ (by simpa using h)] at h3
  simpa [byteBits, payloadByte] using h3

/-- The payload read back, without its pad bits, is the bit string (R95, R96, R205). -/
theorem unpack_bits (bits : List Bool) :
    ((List.range ((bits.length + 7) / 8)).flatMap fun m =>
      (byteBits (payloadByte bits m)).take (if m + 1 = (bits.length + 7) / 8 then 8 - padCount bits.length else 8)) = bits := by
  apply List.ext_getElem?
  intro i
  have key : ∀ n, n ≤ (bits.length + 7) / 8 → ((List.range n).flatMap fun m =>
      (byteBits (payloadByte bits m)).take (if m + 1 = (bits.length + 7) / 8 then 8 - padCount bits.length else 8)) =
        bits.take (8 * n) := by
    intro n
    induction n with
    | zero => intro _; simp
    | succ n ih =>
      intro hn
      have hp := padCount_le bits.length
      rw [List.range_succ, List.flatMap_append, ih (by omega), List.flatMap_cons, List.flatMap_nil, List.append_nil]
      have hb : byteBits (payloadByte bits n) = (List.range 8).map fun j => bits.getD (8 * n + j) false :=
        byteBits_byteOfBits (by simp)
      rw [hb]
      have h1 : bits.take (8 * (n + 1)) = bits.take (8 * n) ++ (bits.drop (8 * n)).take 8 := by
        rw [show 8 * (n + 1) = 8 * n + 8 by ring, List.take_add]
      rw [h1]
      congr 1
      apply List.ext_getElem
      · simp only [List.length_take, List.length_map, List.length_range, List.length_drop]
        split <;> omega
      · intro j h2 h3
        simp only [List.length_take, List.length_drop] at h3
        simp only [List.getElem_take, List.getElem_map, List.getElem_range, List.getElem_drop]
        rw [List.getD_eq_getElem _ _ (by omega)]
  rw [key _ le_rfl, List.take_of_length_le (by omega)]

end Sys2Proof.Machine
end

