-- ==== Sys2Proof/Laws/Link.lean ====
section
/-! SUPPORT. The laws of one step of RCN's walk (spec/45_reconstruct.md R185, R188): a new record linked below another, and a
record turned into a LEAF. -/

namespace Sys2Proof.Machine

/-- What holds of the records at every point of the RCN stage (R40, R44). -/
structure ReconBase (nodes : List Node) : Prop where
  pos : 1 ≤ nodes.length
  owned : Owned nodes 0
  root_internal : (nodeNo nodes 0).kind = .internal
  record : ∀ i < nodes.length, (∃ s, nodeNo nodes i = mkLeaf s 0) ∨ ∃ l r, nodeNo nodes i = mkInternal l r 0
  child_larger : ∀ i < nodes.length, ∀ bit, childOf (nodeNo nodes i) bit ≠ Config.nil →
    i < (childOf (nodeNo nodes i) bit).toNat

theorem ReconBase.walkable {nodes : List Node} (h : ReconBase nodes) (hl : nodes.length ≤ Config.nodeCap) :
    Walkable nodes 0 := by
  refine ⟨h.owned, hl, h.pos, fun i hi bit he => ?_, fun i hi hk bit => ?_⟩
  · have := h.child_larger i hi bit (by rw [he]; decide)
    rw [he] at this; simp at this
  · rcases h.record i hi with ⟨s, hs⟩ | ⟨l, r, hs⟩
    · rw [hs, childOf_mkLeaf]
    · rw [hs] at hk; simp at hk

/-- Every INTERNAL record other than the root and `cur` has a child (R44, R187). -/
def childrenBut (nodes : List Node) (cur : NodeIdx) : Prop :=
  ∀ i, 0 < i → i < nodes.length → i ≠ cur.toNat → (nodeNo nodes i).kind = .internal →
    ∃ bit, childOf (nodeNo nodes i) bit ≠ Config.nil

/-- The records after a childless record has been linked to `cur` (R185). -/
def linked (nodes : List Node) (cur : NodeIdx) (bit : Bool) : List Node :=
  setNode (nodes ++ [childless]) cur (withChild (nodeAt nodes cur) bit (nextIdx nodes))

@[simp] theorem linked_length (nodes : List Node) (cur : NodeIdx) (bit : Bool) :
    (linked nodes cur bit).length = nodes.length + 1 := by simp [linked]

theorem childOf_withChild (r : Node) (b b' : Bool) (n : NodeIdx) :
    childOf (withChild r b n) b' = if b' = b then n else childOf r b' := by
  cases b <;> cases b' <;> rfl

theorem withChild_kind (r : Node) (b : Bool) (n : NodeIdx) : (withChild r b n).kind = r.kind := by cases b <;> rfl
theorem withChild_sym (r : Node) (b : Bool) (n : NodeIdx) : (withChild r b n).sym = r.sym := by cases b <;> rfl

theorem childOf_childless (b : Bool) : childOf childless b = Config.nil := by cases b <;> rfl

theorem nextIdx_toNat {nodes : List Node} (h : nodes.length < 32768) : (nextIdx nodes).toNat = nodes.length :=
  idx_toNat h

section link
variable {nodes : List Node} {cur : NodeIdx} {bit : Bool}

theorem nodeNo_linked (hc : cur.toNat < nodes.length) (hl : nodes.length < Config.nodeCap) {i : Nat} (hi : i < nodes.length + 1) :
    nodeNo (linked nodes cur bit) i =
      if i = cur.toNat then withChild (nodeAt nodes cur) bit (nextIdx nodes)
      else if i = nodes.length then childless else nodeNo nodes i := by
  simp only [Config.nodeCap] at hl
  rw [linked, nodeNo_setNode (by omega) (by simp; omega)]
  split
  · rfl
  · split
    · next h => subst h; exact nodeNo_alloc_eq (by omega)
    · exact nodeNo_alloc_lt (by omega) (by omega)

theorem childOf_linked (hc : cur.toNat < nodes.length) (hl : nodes.length < Config.nodeCap) {i : Nat} (hi : i < nodes.length)
    (b : Bool) :
    childOf (nodeNo (linked nodes cur bit) i) b =
      if i = cur.toNat ∧ b = bit then nextIdx nodes else childOf (nodeNo nodes i) b := by
  rw [nodeNo_linked hc hl (by omega)]
  by_cases h : i = cur.toNat
  · subst h
    rw [if_pos rfl, childOf_withChild, nodeNo_toNat]
    by_cases hb : b = bit <;> simp [hb]
  · rw [if_neg h, if_neg (by omega), if_neg (by tauto)]

theorem childOf_linked_new (hc : cur.toNat < nodes.length) (hl : nodes.length < Config.nodeCap) (b : Bool) :
    childOf (nodeNo (linked nodes cur bit) nodes.length) b = Config.nil := by
  rw [nodeNo_linked hc hl (by omega), if_neg (by omega), if_pos rfl, childOf_childless]

theorem kind_linked (hc : cur.toNat < nodes.length) (hl : nodes.length < Config.nodeCap) {i : Nat} (hi : i < nodes.length) :
    (nodeNo (linked nodes cur bit) i).kind = (nodeNo nodes i).kind ∧
      (nodeNo (linked nodes cur bit) i).sym = (nodeNo nodes i).sym := by
  rw [nodeNo_linked hc hl (by omega)]
  split
  · next h => subst h; rw [withChild_kind, withChild_sym, nodeNo_toNat]; exact ⟨rfl, rfl⟩
  · rw [if_neg (by omega)]; exact ⟨rfl, rfl⟩

theorem nextIdx_ne_nil (hl : nodes.length < Config.nodeCap) : nextIdx nodes ≠ Config.nil :=
  idx_ne_nil (by simp only [Config.nodeCap] at hl; omega)

theorem ReconBase.link (h : ReconBase nodes) (hc : cur.toNat < nodes.length) (hl : nodes.length < Config.nodeCap)
    (hk : (nodeAt nodes cur).kind = .internal) (hn : childOf (nodeAt nodes cur) bit = Config.nil) :
    ReconBase (linked nodes cur bit) := by
  have hl' := hl
  simp only [Config.nodeCap] at hl'
  have hnew := nextIdx_toNat (nodes := nodes) (by omega)
  have hchild : ∀ i < nodes.length, ∀ b, childOf (nodeNo (linked nodes cur bit) i) b ≠ nextIdx nodes ∨
      (i = cur.toNat ∧ b = bit) := by
    intro i hi b
    rw [childOf_linked hc hl hi]
    by_cases hcb : i = cur.toNat ∧ b = bit
    · exact .inr hcb
    · left
      rw [if_neg hcb]
      intro he
      have := h.owned.child_allocated i hi b (by rw [he]; exact nextIdx_ne_nil hl)
      rw [he, hnew] at this; omega
  refine ⟨by simp, ⟨fun i hi b hne => ?_, fun i hi j hj b b' hne he => ?_, fun i hi hr => ?_⟩, ?_, fun i hi => ?_,
    fun i hi b hne => ?_⟩
  · rw [linked_length] at hi ⊢
    rcases Nat.lt_or_ge i nodes.length with hi' | hi'
    · rw [childOf_linked hc hl hi'] at hne ⊢
      split at hne
      · next hcb => rw [if_pos hcb, hnew]; omega
      · next hcb => rw [if_neg hcb]; have := h.owned.child_allocated i hi' b hne; omega
    · obtain rfl : i = nodes.length := by omega
      rw [childOf_linked_new hc hl] at hne; exact absurd rfl hne
  · rw [linked_length] at hi hj
    rcases Nat.lt_or_ge i nodes.length with hi' | hi'
    · rcases Nat.lt_or_ge j nodes.length with hj' | hj'
      · rw [childOf_linked hc hl hi'] at hne he
        split at he
        · next hcb =>
          rcases hchild j hj' b' with h1 | ⟨h1, h2⟩
          · exact absurd he.symm h1
          · exact ⟨hcb.1.trans h1.symm, hcb.2.trans h2.symm⟩
        · next hcb =>
          rw [if_neg hcb] at hne
          rw [childOf_linked hc hl hj'] at he
          split at he
          · have := h.owned.child_allocated i hi' b hne
            rw [he, hnew] at this; omega
          · exact h.owned.one_parent i hi' j hj' b b' hne he
      · obtain rfl : j = nodes.length := by omega
        rw [childOf_linked_new hc hl] at he; exact absurd he hne
    · obtain rfl : i = nodes.length := by omega
      rw [childOf_linked_new hc hl] at hne; exact absurd rfl hne
  · rw [linked_length] at hi
    rcases Nat.lt_or_ge i nodes.length with hi' | hi'
    · obtain ⟨j, hj, b, hb⟩ := h.owned.has_parent i hi' hr
      refine ⟨j, by simp; omega, b, ?_⟩
      rw [childOf_linked hc hl hj, if_neg, hb]
      rintro ⟨rfl, rfl⟩
      rw [nodeNo_toNat, hn] at hb
      exact idx_ne_nil (i := i) (by omega) hb.symm
    · obtain rfl : i = nodes.length := by omega
      refine ⟨cur.toNat, by simp; omega, bit, ?_⟩
      rw [childOf_linked hc hl hc, if_pos ⟨rfl, rfl⟩]; rfl
  · exact (kind_linked hc hl h.pos).1.trans h.root_internal
  · rw [linked_length] at hi
    rw [nodeNo_linked hc hl hi]
    split
    · rcases h.record cur.toNat hc with ⟨s, hs⟩ | ⟨l, r, hs⟩
      · rw [nodeNo_toNat] at hs; rw [hs] at hk; simp at hk
      · rw [nodeNo_toNat] at hs; rw [hs]
        right
        cases bit
        · exact ⟨nextIdx nodes, r, rfl⟩
        · exact ⟨l, nextIdx nodes, rfl⟩
    · split
      · exact .inr ⟨_, _, rfl⟩
      · exact h.record i (by omega)
  · rw [linked_length] at hi
    rcases Nat.lt_or_ge i nodes.length with hi' | hi'
    · rw [childOf_linked hc hl hi'] at hne ⊢
      split
      · rw [hnew]; omega
      · next hcb => rw [if_neg hcb] at hne; exact h.child_larger i hi' b hne
    · obtain rfl : i = nodes.length := by omega
      rw [childOf_linked_new hc hl] at hne; exact absurd rfl hne

/-- Linking adds one path and leaves every other path alone (R185: an existing branch is never overwritten). -/
theorem follow_linked (h : ReconBase nodes) (hl : nodes.length < Config.nodeCap) {q : List Bool}
    (hq : follow nodes q 0 = some cur) (hn : childOf (nodeAt nodes cur) bit = Config.nil) (p : List Bool) :
    follow (linked nodes cur bit) p 0 = if p = q ++ [bit] then some (nextIdx nodes) else follow nodes p 0 := by
  have hw := h.walkable hl.le
  have hc := hw.follow_lt hq
  have hl' := hl
  simp only [Config.nodeCap] at hl'
  have hold : follow nodes (q ++ [bit]) 0 = none := by rw [follow_snoc, hq]; simp [hn]
  induction p using List.reverseRecOn with
  | nil => simp
  | append_singleton p b ih =>
    rw [follow_snoc, ih]
    by_cases hp : p = q ++ [bit]
    · rw [if_pos hp, if_neg (by rw [hp]; intro h0; have := congrArg List.length h0; simp at this), follow_snoc, hp, hold]
      have := childOf_linked_new (bit := bit) hc hl b
      simp only [Option.bind_some, Option.bind_none]
      rw [nodeNo, show BitVec.ofNat 15 nodes.length = nextIdx nodes from rfl] at this
      rw [if_pos this]
    · rw [if_neg hp, follow_snoc]
      cases hf : follow nodes p 0 with
      | none =>
        simp only [Option.bind_none]
        rw [if_neg]
        intro he
        have := List.append_inj_left' he rfl
        subst this
        rw [hq] at hf; simp at hf
      | some n =>
        have hnl := hw.follow_lt hf
        have hch := childOf_linked (bit := bit) hc hl hnl b
        rw [nodeNo_toNat, nodeNo_toNat] at hch
        simp only [Option.bind_some, hch]
        by_cases hcb : n.toNat = cur.toNat ∧ b = bit
        · obtain ⟨h1, rfl⟩ := hcb
          have h1 : n = cur := BitVec.eq_of_toNat_eq h1
          subst h1
          have := hw.path_unique hf hq
          subst this
          rw [if_pos (c := n.toNat = n.toNat ∧ b = b) ⟨rfl, rfl⟩, if_neg (nextIdx_ne_nil hl), if_pos rfl]
        · rw [if_neg hcb, if_neg (c := p ++ [b] = q ++ [bit])]
          intro he
          have h1 := List.append_inj_left' he rfl
          have h2 := List.append_inj_right' he rfl
          subst h1
          rw [hq, Option.some.injEq] at hf
          subst hf
          exact hcb ⟨rfl, by simpa using h2⟩

theorem childrenBut.link (h : childrenBut nodes cur) (hc : cur.toNat < nodes.length) (hl : nodes.length < Config.nodeCap) :
    childrenBut (linked nodes cur bit) (nextIdx nodes) := by
  have hl' := hl
  simp only [Config.nodeCap] at hl'
  intro i h0 hi hne hk
  rw [linked_length] at hi
  rw [nextIdx_toNat (by omega)] at hne
  have hi' : i < nodes.length := by omega
  by_cases hic : i = cur.toNat
  · refine ⟨bit, ?_⟩
    rw [childOf_linked hc hl hi', if_pos ⟨hic, rfl⟩]
    exact nextIdx_ne_nil hl
  · obtain ⟨b, hb⟩ := h i h0 hi' hic ((kind_linked hc hl hi').1 ▸ hk)
    refine ⟨b, ?_⟩
    rw [childOf_linked hc hl hi', if_neg (fun h => hic h.1)]
    exact hb

theorem countP_linked (hc : cur.toNat < nodes.length) :
    (linked nodes cur bit).countP (fun n => n.kind = .leaf) = nodes.countP (fun n => n.kind = .leaf) := by
  have hc' : cur.toNat < (nodes ++ [childless]).length := by simp; omega
  unfold linked setNode
  rw [List.countP_set hc', List.countP_append, List.getElem_append_left hc]
  have hk : (withChild (nodeAt nodes cur) bit (nextIdx nodes)).kind = nodes[cur.toNat].kind := by
    rw [withChild_kind, nodeAt, List.getD_eq_getElem _ _ hc]
  rw [hk]
  have h0 : List.countP (fun n => decide (n.kind = Kind.leaf)) [childless] = 0 := by decide
  rw [h0]
  by_cases hleaf : nodes[cur.toNat].kind = .leaf
  · have : 0 < nodes.countP (fun n => n.kind = .leaf) :=
      List.countP_pos_iff.mpr ⟨_, List.getElem_mem hc, by simpa using hleaf⟩
    simp [hleaf]; omega
  · simp [hleaf]

end link

/-! ### Attaching a symbol (R188) -/

section attach
variable {nodes : List Node} {cur : NodeIdx} {sym : Sym}

theorem nodeNo_attach (hc : cur.toNat < nodes.length) (hl : nodes.length ≤ Config.nodeCap) {i : Nat} (hi : i < nodes.length) :
    nodeNo (setNode nodes cur (mkLeaf sym 0)) i = if i = cur.toNat then mkLeaf sym 0 else nodeNo nodes i :=
  nodeNo_setNode (by simp only [Config.nodeCap] at hl; omega) hc

theorem childOf_attach (hc : cur.toNat < nodes.length) (hl : nodes.length ≤ Config.nodeCap) (ha : attachable (nodeAt nodes cur))
    {i : Nat} (hi : i < nodes.length) (b : Bool) :
    childOf (nodeNo (setNode nodes cur (mkLeaf sym 0)) i) b = childOf (nodeNo nodes i) b := by
  rw [nodeNo_attach hc hl hi]
  split
  · next h =>
    subst h
    rw [childOf_mkLeaf, nodeNo_toNat]
    cases b
    · exact ha.2.1.symm
    · exact ha.2.2.symm
  · rfl

theorem ReconBase.attach (h : ReconBase nodes) (hc : cur.toNat < nodes.length) (hl : nodes.length ≤ Config.nodeCap)
    (ha : attachable (nodeAt nodes cur)) (h0 : cur ≠ 0) : ReconBase (setNode nodes cur (mkLeaf sym 0)) := by
  have h0 : cur.toNat ≠ 0 := fun h1 => h0 (BitVec.eq_of_toNat_eq h1)
  refine ⟨by simpa using h.pos, ⟨fun i hi b hne => ?_, fun i hi j hj b b' hne he => ?_, fun i hi hr => ?_⟩, ?_, fun i hi => ?_,
    fun i hi b hne => ?_⟩
  · rw [setNode_length] at hi ⊢
    rw [childOf_attach hc hl ha hi] at hne ⊢
    exact h.owned.child_allocated i hi b hne
  · rw [setNode_length] at hi hj
    rw [childOf_attach hc hl ha hi] at hne he
    rw [childOf_attach hc hl ha hj] at he
    exact h.owned.one_parent i hi j hj b b' hne he
  · rw [setNode_length] at hi
    obtain ⟨j, hj, b, hb⟩ := h.owned.has_parent i hi hr
    exact ⟨j, by simpa using hj, b, by rw [childOf_attach hc hl ha hj]; exact hb⟩
  · rw [nodeNo_attach hc hl h.pos, if_neg (Ne.symm h0)]; exact h.root_internal
  · rw [setNode_length] at hi
    rw [nodeNo_attach hc hl hi]
    split
    · exact .inl ⟨_, rfl⟩
    · exact h.record i hi
  · rw [setNode_length] at hi
    rw [childOf_attach hc hl ha hi] at hne ⊢
    exact h.child_larger i hi b hne

theorem follow_attach (hc : cur.toNat < nodes.length) (hl : nodes.length ≤ Config.nodeCap) (ha : attachable (nodeAt nodes cur))
    (p : List Bool) (n : NodeIdx) : follow (setNode nodes cur (mkLeaf sym 0)) p n = follow nodes p n := by
  have key : ∀ m b, childOf (nodeAt (setNode nodes cur (mkLeaf sym 0)) m) b = childOf (nodeAt nodes m) b := by
    intro m b
    by_cases hm : m.toNat < nodes.length
    · have := childOf_attach (sym := sym) hc hl ha hm b
      rwa [nodeNo_toNat, nodeNo_toNat] at this
    · rw [nodeAt_of_ge (by simp; omega), nodeAt_of_ge (by omega)]
  induction p generalizing n with
  | nil => rfl
  | cons b p ih => rw [follow, follow, key, ih]

theorem countP_attach (hc : cur.toNat < nodes.length) (ha : attachable (nodeAt nodes cur)) :
    (setNode nodes cur (mkLeaf sym 0)).countP (fun n => n.kind = .leaf) = nodes.countP (fun n => n.kind = .leaf) + 1 := by
  unfold setNode
  rw [List.countP_set hc]
  have : nodes[cur.toNat].kind = .internal := by
    have := ha.1
    rwa [nodeAt, List.getD_eq_getElem _ _ hc] at this
  simp [this]

end attach

end Sys2Proof.Machine
end

