-- ==== Sys2Proof/Laws/Reconstruct.lean ====
section
/-! SUPPORT. The laws of the tree reconstructor (spec/45_reconstruct.md R181 to R192): RCN accepts a list of entries exactly when
their symbols differ and their codes are prefix-free, and hangs each symbol at the path of its code. -/

namespace Sys2Proof.Machine

/-! ### The walk of one entry -/

/-- What the walk along `bits` from the node at path `q` leaves behind (R185). -/
structure Walked (nodes : List Node) (q bits : List Bool) (nodes' : List Node) (cur' : NodeIdx) : Prop where
  base : ReconBase nodes'
  length_ge : nodes.length ≤ nodes'.length
  length_le : nodes'.length ≤ nodes.length + bits.length
  here : follow nodes' (q ++ bits) 0 = some cur'
  kept : ∀ p n, follow nodes p 0 = some n → follow nodes' p 0 = some n
  added : ∀ p n, follow nodes' p 0 = some n → follow nodes p 0 = some n ∨ (nodes.length ≤ n.toNat ∧ p <+: q ++ bits)
  same_kind : ∀ i < nodes.length, (nodeNo nodes' i).kind = (nodeNo nodes i).kind ∧ (nodeNo nodes' i).sym = (nodeNo nodes i).sym
  new_kind : ∀ i, nodes.length ≤ i → i < nodes'.length → (nodeNo nodes' i).kind = .internal
  children : childrenBut nodes' cur'
  leaf_count : nodes'.countP (fun n => n.kind = .leaf) = nodes.countP (fun n => n.kind = .leaf)
  found : ∀ n, follow nodes (q ++ bits) 0 = some n → nodes' = nodes ∧ cur' = n
  made : follow nodes (q ++ bits) 0 = none → nodeAt nodes' cur' = childless

/-- The walk meets no LEAF before its last bit: it ends at the path of its bits (R185). -/
theorem walkEntry_ok {off : Nat} {nodes : List Node} {bits q : List Bool} {cur : NodeIdx} (h : ReconBase nodes)
    (hl : nodes.length + bits.length ≤ Config.nodeCap) (hq : follow nodes q 0 = some cur) (hc : childrenBut nodes cur)
    (hk : ∀ b, b <+: bits → b ≠ bits → ∀ n, follow nodes (q ++ b) 0 = some n → (nodeAt nodes n).kind ≠ .leaf) :
    ∃ cur' nodes', walkEntry off bits cur nodes = .ok (cur', nodes') ∧ Walked nodes q bits nodes' cur' := by
  induction bits generalizing nodes q cur with
  | nil =>
    refine ⟨cur, nodes, rfl, h, le_rfl, by simp, by simpa using hq, fun _ _ => id, fun p n hp => .inl hp, fun i _ => ⟨rfl, rfl⟩,
      fun i h1 h2 => by omega, hc, rfl, fun n hn => ⟨rfl, ?_⟩, fun hn => ?_⟩
    · rw [List.append_nil, hq] at hn; simpa using hn
    · rw [List.append_nil, hq] at hn; simp at hn
  | cons bit bits ih =>
    simp only [List.length_cons] at hl
    have hw := h.walkable (by omega)
    have hcl := hw.follow_lt hq
    have hkc : (nodeAt nodes cur).kind ≠ .leaf :=
      hk [] (List.nil_prefix) (by simp) cur (by simpa using hq)
    rw [walkEntry, require_true hkc, ok_bind]
    have hassoc : q ++ bit :: bits = (q ++ [bit]) ++ bits := by simp
    split
    · next hn =>
      have hkI : (nodeAt nodes cur).kind = .internal := by
        rcases h.record cur.toNat hcl with ⟨s, hs⟩ | ⟨l, r, hs⟩
        · rw [nodeNo_toNat] at hs; rw [hs] at hkc; exact absurd rfl hkc
        · rw [nodeNo_toNat] at hs; rw [hs]; rfl
      have hlt : nodes.length < Config.nodeCap := by omega
      have hb := h.link hcl hlt hkI hn
      have hf := follow_linked h hlt hq hn
      have hnone : follow nodes (q ++ [bit]) 0 = none := by rw [follow_snoc, hq]; simp [hn]
      have hbelow : ∀ b, b ≠ [] → follow (linked nodes cur bit) (q ++ [bit] ++ b) 0 = none := by
        intro b hb'
        rw [hf, if_neg (by intro h0; exact hb' (by simpa using h0)), follow_append, hnone]; rfl
      obtain ⟨cur', nodes', h1, h2⟩ := ih (nodes := linked nodes cur bit) (q := q ++ [bit]) (cur := nextIdx nodes) hb
        (by rw [linked_length]; omega) (by rw [hf, if_pos rfl]) (hc.link hcl hlt) (by
          intro b hbp hbne n hn'
          by_cases hbe : b = []
          · subst hbe
            rw [List.append_nil, hf, if_pos rfl, Option.some.injEq] at hn'
            subst hn'
            have := nodeNo_linked (bit := bit) hcl hlt (i := nodes.length) (by omega)
            rw [if_neg (by omega), if_pos rfl] at this
            rw [show nodeAt (linked nodes cur bit) (nextIdx nodes) = childless from this]
            decide
          · rw [hbelow b hbe] at hn'; simp at hn')
      refine ⟨cur', nodes', h1, h2.base, ?_, ?_, by rw [hassoc]; exact h2.here, fun p n hp => ?_, fun p n hp => ?_, fun i hi => ?_,
        fun i hi hi' => ?_, h2.children, by rw [h2.leaf_count, countP_linked hcl], fun n hn' => ?_, fun _ => ?_⟩
      · have := h2.length_ge; rw [linked_length] at this; omega
      · have := h2.length_le; rw [linked_length] at this; simp only [List.length_cons]; omega
      · apply h2.kept
        rw [hf, if_neg, hp]
        rintro rfl
        rw [hnone] at hp; simp at hp
      · rcases h2.added p n hp with hp' | ⟨hp1, hp2⟩
        · rw [hf] at hp'
          split at hp'
          · next he =>
            right
            simp only [Option.some.injEq] at hp'
            subst hp'
            have := nextIdx_toNat (nodes := nodes) (by simp only [Config.nodeCap] at hlt; omega)
            rw [this]
            exact ⟨le_rfl, by rw [he, hassoc]; exact List.prefix_append _ _⟩
          · exact .inl hp'
        · rw [linked_length] at hp1
          exact .inr ⟨by omega, by rw [hassoc]; exact hp2⟩
      · have h3 := h2.same_kind i (by rw [linked_length]; omega)
        have h4 := kind_linked (bit := bit) hcl hlt hi
        exact ⟨h3.1.trans h4.1, h3.2.trans h4.2⟩
      · rcases Nat.lt_or_ge i (linked nodes cur bit).length with hi2 | hi2
        · rw [(h2.same_kind i hi2).1, nodeNo_linked hcl hlt (by rw [linked_length] at hi2; omega), if_neg (by omega)]
          rw [linked_length] at hi2
          rw [if_pos (by omega)]; rfl
        · exact h2.new_kind i hi2 hi'
      · rw [hassoc, follow_append, hnone] at hn'; simp at hn'
      · rcases eq_or_ne bits [] with rfl | hne
        · obtain ⟨h3, h4⟩ := h2.found (nextIdx nodes) (by rw [List.append_nil, hf, if_pos rfl])
          subst h3; subst h4
          have := nodeNo_linked (bit := bit) hcl hlt (i := nodes.length) (by omega)
          rw [if_neg (by omega), if_pos rfl] at this
          exact this
        · exact h2.made (hbelow bits hne)
    · next hn =>
      have hq' : follow nodes (q ++ [bit]) 0 = some (childOf (nodeAt nodes cur) bit) :=
        follow_snoc_some.mpr ⟨cur, hq, rfl, hn⟩
      obtain ⟨cur', nodes', h1, h2⟩ := ih (nodes := nodes) (q := q ++ [bit]) (cur := childOf (nodeAt nodes cur) bit) h
        (by omega) hq' (by
          intro i h0 hi hne hki
          by_cases hic : i = cur.toNat
          · exact ⟨bit, by rw [hic, nodeNo_toNat]; exact hn⟩
          · exact hc i h0 hi hic hki) (by
          intro b hbp hbne n hn'
          exact hk (bit :: b) (by simpa using hbp) (by simpa using hbne) n (by simpa using hn'))
      refine ⟨cur', nodes', h1, h2.base, h2.length_ge, ?_, by rw [hassoc]; exact h2.here, h2.kept, fun p n hp => ?_, h2.same_kind,
        h2.new_kind, h2.children, h2.leaf_count, fun n hn' => h2.found n (by rw [hassoc] at hn'; exact hn'),
        fun hn' => h2.made (by rw [hassoc] at hn'; exact hn')⟩
      · have := h2.length_le; simp only [List.length_cons]; omega
      · rw [hassoc]; exact h2.added p n hp

/-- The walk meets a LEAF with a bit still to follow (R187 a). -/
theorem walkEntry_conflict {off : Nat} {nodes : List Node} {bits q : List Bool} {cur : NodeIdx} (h : ReconBase nodes)
    (hl : nodes.length ≤ Config.nodeCap) (hq : follow nodes q 0 = some cur) {b : List Bool} (hb : b <+: bits) (hne : b ≠ bits)
    {n : NodeIdx} (hf : follow nodes (q ++ b) 0 = some n) (hk : (nodeAt nodes n).kind = .leaf) :
    walkEntry off bits cur nodes = raise .formatError (off + 1) := by
  have hw := h.walkable hl
  induction bits generalizing q cur b with
  | nil => rw [List.prefix_nil] at hb; exact absurd hb hne
  | cons bit bits ih =>
    rw [walkEntry]
    by_cases hkc : (nodeAt nodes cur).kind = .leaf
    · rw [require_false (by simpa using hkc), raise_bind]
    · rw [require_true hkc, ok_bind]
      cases b with
      | nil =>
        rw [List.append_nil, hq, Option.some.injEq] at hf
        subst hf; exact absurd hk hkc
      | cons c b =>
        obtain ⟨rfl, hb'⟩ := List.cons_prefix_cons.mp hb
        have hf' : follow nodes (q ++ [c] ++ b) 0 = some n := by simpa using hf
        have hne' : childOf (nodeAt nodes cur) c ≠ Config.nil := by
          intro h0
          rw [follow_append, follow_snoc, hq] at hf'
          simp [h0] at hf'
        rw [if_neg hne']
        exact ih (follow_snoc_some.mpr ⟨cur, hq, rfl, hne'⟩) hb' (by simpa using hne) hf'

/-! ### The entries -/

/-- What holds after the entries `l`, symbols with their codes, have been accepted (R44, R188). -/
structure ReconInv (l : List (Sym × List Bool)) (r : Recon) : Prop where
  base : ReconBase r.nodes
  children : childrenBut r.nodes 0
  size : r.nodes.length ≤ 1 + 127 * l.length
  path : ∀ p n, follow r.nodes p 0 = some n → p = [] ∨ ∃ e ∈ l, p <+: e.2
  leaf : ∀ p k, leafAt r.nodes 0 p k ↔ ∃ e ∈ l, e.2 = p ∧ e.1.toNat = k
  code : ∀ e ∈ l, codeAt r.code e.1.toNat = fieldOf e.2
  no_code : ∀ k, (∀ e ∈ l, e.1.toNat ≠ k) → codeAt r.code k = 0
  code_length : ∀ e ∈ l, 1 ≤ e.2.length ∧ e.2.length ≤ 127
  leaf_count : r.nodes.countP (fun n => n.kind = .leaf) = l.length
  syms : leafSymsDiffer r.nodes

theorem reconInv_nil : ReconInv [] { nodes := [childless], code := codeZero } := by
  have h0 : nodeNo [childless] 0 = childless := rfl
  have hf : ∀ p n, follow [childless] p 0 = some n → p = [] ∧ n = 0 := by
    intro p n hp
    cases p with
    | nil => simp only [follow_nil, Option.some.injEq] at hp; exact ⟨rfl, hp.symm⟩
    | cons b p =>
      rw [follow, show nodeAt [childless] 0 = childless from rfl, if_pos (childOf_childless b)] at hp
      simp at hp
  refine ⟨⟨by simp, ⟨fun i hi b hne => ?_, fun i hi j hj b b' hne _ => ?_, fun i hi hr => ?_⟩, rfl, fun i hi => ?_, fun i hi b hne => ?_⟩,
    fun i h0 hi => ?_, by simp, fun p n hp => .inl (hf p n hp).1, fun p k => ⟨?_, by simp⟩, by simp, fun k _ => codeAt_codeZero k, by simp,
    rfl, ?_⟩
  · simp only [List.length_singleton] at hi
    obtain rfl : i = 0 := by omega
    rw [h0, childOf_childless] at hne; exact absurd rfl hne
  · simp only [List.length_singleton] at hi
    obtain rfl : i = 0 := by omega
    rw [h0, childOf_childless] at hne; exact absurd rfl hne
  · simp at hi hr; omega
  · simp only [List.length_singleton] at hi
    obtain rfl : i = 0 := by omega
    exact .inr ⟨_, _, rfl⟩
  · simp only [List.length_singleton] at hi
    obtain rfl : i = 0 := by omega
    rw [h0, childOf_childless] at hne; exact absurd rfl hne
  · simp at hi; omega
  · rintro ⟨n, hn, hk, -⟩
    obtain ⟨-, rfl⟩ := hf p n hn
    simp [nodeAt, childless, mkInternal] at hk
  · intro i hi j hj hk
    simp only [List.length_singleton] at hi
    obtain rfl : i = 0 := by omega
    exact absurd hk (by rw [h0]; decide)

/-- One entry whose symbol is new and whose code conflicts with none before it (R185, R188). -/
theorem ReconInv.step {l : List (Sym × List Bool)} {r : Recon} (h : ReconInv l r) (hlen : l.length < 128) (off : Nat)
    {sym : Sym} {bits : List Bool} (h1 : 1 ≤ bits.length) (h127 : bits.length ≤ 127)
    (hsym : ∀ e ∈ l, e.1 ≠ sym) (hfree : ∀ e ∈ l, prefixFree e.2 bits) :
    ∃ cur nodes, walkEntry off bits 0 r.nodes = .ok (cur, nodes) ∧ attachable (nodeAt nodes cur) ∧
      ReconInv (l ++ [(sym, bits)])
        { nodes := setNode nodes cur (mkLeaf sym 0), code := setCode r.code sym (fieldOf bits) } := by
  have hcap : r.nodes.length + bits.length ≤ Config.nodeCap := by have := h.size; simp only [Config.nodeCap]; omega
  obtain ⟨cur, nodes, hw, hd⟩ := walkEntry_ok (off := off) (bits := bits) (q := []) (cur := 0) h.base hcap rfl h.children (by
    intro b hb hne n hn hk
    obtain ⟨e, he, he2, -⟩ := (h.leaf ([] ++ b) _).mp ⟨n, hn, hk, rfl⟩
    rw [List.nil_append] at he2
    exact (hfree e he).1 (he2 ▸ hb))
  have hnone : follow r.nodes ([] ++ bits) 0 = none := by
    rw [List.nil_append]
    by_contra hne
    obtain ⟨n, hn⟩ := Option.ne_none_iff_exists'.mp hne
    rcases h.path bits n hn with h0 | ⟨e, he, hp⟩
    · rw [h0] at h1; simp at h1
    · exact (hfree e he).2 hp
  have hcl : nodeAt nodes cur = childless := hd.made hnone
  have ha : attachable (nodeAt nodes cur) := by rw [hcl]; exact ⟨rfl, rfl, rfl⟩
  have hnl : nodes.length ≤ Config.nodeCap := by have := hd.length_le; omega
  have hwk := hd.base.walkable hnl
  have hhere := hd.here
  rw [List.nil_append] at hhere
  have hcur := hwk.follow_lt hhere
  have hge : r.nodes.length ≤ cur.toNat := by
    rcases hd.added _ _ hhere with hx | hx
    · rw [List.nil_append] at hnone; rw [hnone] at hx; simp at hx
    · exact hx.1
  have hc0 : cur ≠ 0 := by
    rintro rfl
    have := h.base.pos
    have h00 : (0 : NodeIdx).toNat = 0 := rfl
    rw [h00] at hge; omega
  have hnl' := hnl
  simp only [Config.nodeCap] at hnl'
  -- LEAF records before and after
  have hkind : ∀ i < nodes.length, (nodeNo nodes i).kind = .leaf → i < r.nodes.length := by
    intro i hi hk
    by_contra hge'
    rw [hd.new_kind i (by omega) hi] at hk; simp at hk
  refine ⟨cur, nodes, hw, ha, hd.base.attach hcur hnl ha hc0, ?_, ?_, fun p n hp => ?_, fun p k => ⟨?_, ?_⟩, fun e he => ?_,
    fun k hk => ?_, ?_, ?_, ?_⟩
  · intro i h0 hi hne hk
    simp only [setNode_length] at hi
    dsimp only at hk ⊢
    rw [nodeNo_attach hcur hnl hi] at hk
    split at hk
    · simp at hk
    · next hic =>
      obtain ⟨b, hb⟩ := hd.children i h0 hi hic hk
      exact ⟨b, by rw [childOf_attach hcur hnl ha hi]; exact hb⟩
  · have h2 := hd.length_le
    have h3 := h.size
    simp only [setNode_length, List.length_append, List.length_cons, List.length_nil]
    omega
  · dsimp only at hp
    rw [follow_attach hcur hnl ha] at hp
    rcases hd.added p n hp with hp | ⟨-, hp⟩
    · rcases h.path p n hp with h0 | ⟨e, he, hpe⟩
      · exact .inl h0
      · exact .inr ⟨e, by simp [he], hpe⟩
    · exact .inr ⟨(sym, bits), by simp, hp⟩
  · rintro ⟨n, hn, hk, hs⟩
    dsimp only at hn hk hs
    rw [follow_attach hcur hnl ha] at hn
    have hnlt := hwk.follow_lt hn
    have hno := nodeNo_attach (sym := sym) hcur hnl hnlt
    rw [nodeNo_toNat] at hno
    rw [hno] at hk hs
    split at hk
    · next hnc =>
      rw [if_pos hnc] at hs
      have hnc : n = cur := BitVec.eq_of_toNat_eq hnc
      subst hnc
      exact ⟨(sym, bits), by simp, hwk.path_unique hhere hn, hs⟩
    · next hnc =>
      rw [if_neg hnc] at hs
      have hold := hkind _ hnlt hk
      have hsame := hd.same_kind _ hold
      rw [nodeNo_toNat, nodeNo_toNat] at hsame
      rw [nodeNo_toNat] at hk hs
      have hp : follow r.nodes p 0 = some n := by
        rcases hd.added p n hn with hx | hx
        · exact hx
        · omega
      obtain ⟨e, he, he2, he3⟩ := (h.leaf p k).mp ⟨n, hp, hsame.1 ▸ hk, by rw [← hsame.2]; exact hs⟩
      exact ⟨e, by simp [he], he2, he3⟩
  · rintro ⟨e, he, rfl, rfl⟩
    rcases List.mem_append.mp he with he | he
    · obtain ⟨n, hn, hk, hs⟩ := (h.leaf e.2 e.1.toNat).mpr ⟨e, he, rfl, rfl⟩
      have hnr := (h.base.walkable (by omega)).follow_lt hn
      have hn' := hd.kept _ _ hn
      have hsame := hd.same_kind _ hnr
      rw [nodeNo_toNat, nodeNo_toNat] at hsame
      have hno := nodeNo_attach (sym := sym) hcur hnl (i := n.toNat) (by have := hd.length_ge; omega)
      rw [if_neg (by omega), nodeNo_toNat, nodeNo_toNat] at hno
      exact ⟨n, by dsimp only; rw [follow_attach hcur hnl ha]; exact hn', by dsimp only; rw [hno, hsame.1]; exact hk,
        by dsimp only; rw [hno, hsame.2]; exact hs⟩
    · simp only [List.mem_singleton] at he
      subst he
      have hno := nodeNo_attach (sym := sym) hcur hnl hcur
      rw [if_pos rfl, nodeNo_toNat] at hno
      exact ⟨cur, by dsimp only; rw [follow_attach hcur hnl ha]; exact hhere, by dsimp only; rw [hno]; rfl, by dsimp only; rw [hno]; rfl⟩
  · rw [codeAt_setCode]
    rcases List.mem_append.mp he with he | he
    · rw [if_neg (fun h0 => hsym e he (BitVec.eq_of_toNat_eq h0))]
      exact h.code e he
    · simp only [List.mem_singleton] at he
      subst he
      rw [if_pos rfl]
  · rw [codeAt_setCode, if_neg (fun h0 => hk (sym, bits) (by simp) h0.symm)]
    exact h.no_code k fun e he => hk e (by simp [he])
  · intro e he
    rcases List.mem_append.mp he with he | he
    · exact h.code_length e he
    · simp only [List.mem_singleton] at he
      subst he; exact ⟨h1, h127⟩
  · dsimp only
    rw [countP_attach hcur ha, hd.leaf_count, h.leaf_count]; simp
  · intro i hi j hj hki hkj hs
    simp only [setNode_length] at hi hj
    dsimp only at hki hkj hs
    rw [nodeNo_attach hcur hnl hi] at hki hs
    rw [nodeNo_attach hcur hnl hj] at hkj hs
    -- a LEAF that was there holds a symbol of `l`
    have old : ∀ m < nodes.length, m ≠ cur.toNat → (nodeNo nodes m).kind = .leaf → (nodeNo nodes m).sym ≠ sym := by
      intro m hm hmc hkm he
      obtain ⟨p, hp⟩ : ∃ p, follow r.nodes p 0 = some (BitVec.ofNat 15 m) := by
        have hreach : ∀ m < r.nodes.length, ∃ p, follow r.nodes p 0 = some (BitVec.ofNat 15 m) := by
          intro m hm
          induction m using Nat.strong_induction_on with
          | _ m ih =>
            by_cases h0 : m = 0
            · exact ⟨[], by subst h0; rfl⟩
            · obtain ⟨j, hj, b, hb⟩ := h.base.owned.has_parent m hm (by simpa using h0)
              have hne : BitVec.ofNat 15 m ≠ Config.nil := idx_ne_nil (by simp only [Config.nodeCap] at hcap; omega)
              have := h.base.child_larger j hj b (by rw [hb]; exact hne)
              rw [hb, idx_toNat (by simp only [Config.nodeCap] at hcap; omega)] at this
              obtain ⟨p, hp⟩ := ih j this hj
              exact ⟨p ++ [b], follow_snoc_some.mpr ⟨_, hp, hb, hne⟩⟩
        exact hreach m (hkind m hm hkm)
      have hold := hkind m hm hkm
      have hsame := hd.same_kind m hold
      obtain ⟨e, hel, -, hes⟩ := (h.leaf p sym.toNat).mp ⟨_, hp, by rw [← nodeNo, ← hsame.1]; exact hkm,
        by rw [← nodeNo, ← hsame.2, he]⟩
      exact hsym e hel (BitVec.eq_of_toNat_eq hes)
    split at hki
    · next hic =>
      split at hkj
      · next hjc => rw [hic, hjc]
      · next hjc =>
        rw [if_pos hic, if_neg hjc] at hs
        exact absurd hs.symm (old j hj hjc hkj)
    · next hic =>
      split at hkj
      · next hjc =>
        rw [if_neg hic, if_pos hjc] at hs
        exact absurd hs (old i hi hic hki)
      · next hjc =>
        rw [if_neg hic, if_neg hjc] at hs
        have hi' := hkind i hi hki
        have hj' := hkind j hj hkj
        have hsi := hd.same_kind i hi'
        have hsj := hd.same_kind j hj'
        exact h.syms i hi' j hj' (hsi.1 ▸ hki) (hsj.1 ▸ hkj) (by rw [← hsi.2, ← hsj.2]; exact hs)

/-- One entry whose code conflicts with an earlier one (R187). -/
theorem ReconInv.conflict {l : List (Sym × List Bool)} {r : Recon} (h : ReconInv l r) (hlen : l.length < 128) (off : Nat)
    {bits : List Bool} (h1 : 1 ≤ bits.length) (h127 : bits.length ≤ 127) {e : Sym × List Bool} (he : e ∈ l)
    (hc : ¬ prefixFree e.2 bits) :
    walkEntry off bits 0 r.nodes = raise .formatError (off + 1) ∨
      ∃ cur nodes, walkEntry off bits 0 r.nodes = .ok (cur, nodes) ∧ ¬ attachable (nodeAt nodes cur) := by
  have hcap : r.nodes.length + bits.length ≤ Config.nodeCap := by have := h.size; simp only [Config.nodeCap]; omega
  by_cases hleaf : ∃ b, b <+: bits ∧ b ≠ bits ∧ ∃ n, follow r.nodes ([] ++ b) 0 = some n ∧ (nodeAt r.nodes n).kind = .leaf
  · obtain ⟨b, hb, hne, n, hn, hk⟩ := hleaf
    exact .inl (walkEntry_conflict h.base (by omega) rfl hb hne hn hk)
  · right
    obtain ⟨cur, nodes, hw, hd⟩ := walkEntry_ok (off := off) (bits := bits) (q := []) (cur := 0) h.base hcap rfl h.children (by
      intro b hb hne n hn hk
      exact hleaf ⟨b, hb, hne, n, hn, hk⟩)
    refine ⟨cur, nodes, hw, fun ha => ?_⟩
    obtain ⟨m, hm, hmk, -⟩ := (h.leaf e.2 e.1.toNat).mpr ⟨e, he, rfl, rfl⟩
    -- the walk ended on a record that was there
    have hbe : bits <+: e.2 := by
      by_cases hp : e.2 <+: bits
      · by_cases heq : e.2 = bits
        · rw [heq]
        · exact absurd ⟨e.2, hp, heq, m, by simpa using hm, hmk⟩ hleaf
      · by_contra hb
        exact hc ⟨hp, hb⟩
    obtain ⟨t, ht⟩ := hbe
    have hm' := hm
    rw [← ht, follow_append, Option.bind_eq_some_iff] at hm'
    obtain ⟨n, hn, hnt⟩ := hm'
    obtain ⟨rfl, rfl⟩ := hd.found n (by simpa using hn)
    cases t with
    | nil =>
      simp only [follow_nil, Option.some.injEq] at hnt
      subst hnt
      rw [ha.1] at hmk; simp at hmk
    | cons b t =>
      rw [follow] at hnt
      have h0 : childOf (nodeAt r.nodes cur) b = Config.nil := by
        cases b
        · exact ha.2.1
        · exact ha.2.2
      rw [if_pos h0] at hnt; simp at hnt

end Sys2Proof.Machine
end

