-- ==== Sys2Proof/Laws/Entries.lean ====
section
/-! SUPPORT. The laws of the RCN stage (spec/45_reconstruct.md R181 to R190): what it makes of the entries of a file, and where
it finds fault with them. -/

namespace Sys2Proof.Machine

/-- The first `n` entries of the file in the source window, as symbols with their codes. -/
def fileEntries (s : State) (n : Nat) : List (Sym × List Bool) :=
  (List.range n).map fun e => (BitVec.ofNat 7 (entrySym s e), entryCode s e)

@[simp] theorem fileEntries_length (s : State) (n : Nat) : (fileEntries s n).length = n := by simp [fileEntries]

theorem fileEntries_succ (s : State) (n : Nat) :
    fileEntries s (n + 1) = fileEntries s n ++ [(BitVec.ofNat 7 (entrySym s n), entryCode s n)] := by
  simp [fileEntries, List.range_succ]

theorem mem_fileEntries {s : State} {n : Nat} {x : Sym × List Bool} :
    x ∈ fileEntries s n ↔ ∃ e < n, (BitVec.ofNat 7 (entrySym s e), entryCode s e) = x := by
  simp [fileEntries]

theorem symByte_toNat {k : Nat} (h : k < 128) : (BitVec.ofNat 7 k : Sym).toNat = k := by
  rw [BitVec.toNat_ofNat]; exact Nat.mod_eq_of_lt h

theorem setWidth_sym (s : State) (e : Nat) :
    ((srcByte s (entryOff e)).setWidth 7 : Sym) = BitVec.ofNat 7 (entrySym s e) := by
  apply BitVec.eq_of_toNat_eq
  simp [entrySym]

theorem entryCode_length (s : State) (e : Nat) : (entryCode s e).length = codeLen (entryField s e) := by
  simp [entryCode]

theorem readEntry_eq (s : State) (e : Nat) (r : Recon) :
    readEntry s (1 + Config.entryBytes * e) r = (do
      require (entrySym s e < 128) .formatError (entryOff e)
      require (entryField s e ≠ 0) .formatError (entryOff e + 1)
      require (codeLen (entryField s e) ≠ 0) .formatError (entryOff e + 1)
      require (codeAt r.code (entrySym s e) = 0) .formatError (entryOff e)
      let x ← walkEntry (entryOff e) (entryCode s e) 0 r.nodes
      require (attachable (nodeAt x.2 x.1)) .formatError (entryOff e + 1)
      .ok { nodes := setNode x.2 x.1 (mkLeaf (BitVec.ofNat 7 (entrySym s e)) 0),
            code := setCode r.code (BitVec.ofNat 7 (entrySym s e)) (entryField s e) }) := by
  rw [← setWidth_sym]; rfl

section
variable {s : State} {e : Nat} {r : Recon}

theorem readEntry_badSym (h : ¬ entrySym s e < 128) :
    readEntry s (1 + Config.entryBytes * e) r = raise .formatError (entryOff e) := by
  rw [readEntry_eq, require_false h, raise_bind]

theorem readEntry_noSentinel (h : entrySym s e < 128) (h0 : entryField s e = 0) :
    readEntry s (1 + Config.entryBytes * e) r = raise .formatError (entryOff e + 1) := by
  rw [readEntry_eq, require_true h, ok_bind, require_false (by simpa using h0), raise_bind]

theorem readEntry_emptyCode (h : entrySym s e < 128) (h0 : entryField s e ≠ 0) (h1 : codeLen (entryField s e) = 0) :
    readEntry s (1 + Config.entryBytes * e) r = raise .formatError (entryOff e + 1) := by
  rw [readEntry_eq, require_true h, ok_bind, require_true h0, ok_bind, require_false (by simpa using h1), raise_bind]

theorem ReconInv.codeAt_eq_zero (hr : ReconInv (fileEntries s e) r) (hg : entriesGood s e) {k : Nat} :
    codeAt r.code k = 0 ↔ ∀ e' < e, entrySym s e' ≠ k := by
  constructor
  · intro h0 e' he' hk
    have hm : (BitVec.ofNat 7 (entrySym s e'), entryCode s e') ∈ fileEntries s e := mem_fileEntries.mpr ⟨e', he', rfl⟩
    have := hr.code _ hm
    dsimp only at this
    rw [symByte_toNat (hg e' he').1.1, hk, h0] at this
    exact fieldOf_ne_zero (hr.code_length _ hm).2 this.symm
  · intro h
    apply hr.no_code
    intro x hx
    obtain ⟨e', he', rfl⟩ := mem_fileEntries.mp hx
    dsimp only
    rw [symByte_toNat (hg e' he').1.1]
    exact h e' he'

theorem readEntry_repeated (hr : ReconInv (fileEntries s e) r) (hg : entriesGood s e) (h : entryReadable s e) {e' : Nat}
    (he : e' < e) (hs : entrySym s e' = entrySym s e) :
    readEntry s (1 + Config.entryBytes * e) r = raise .formatError (entryOff e) := by
  rw [readEntry_eq, require_true h.1, ok_bind, require_true h.2.1, ok_bind, require_true h.2.2, ok_bind, require_false, raise_bind]
  intro h0
  exact (hr.codeAt_eq_zero hg).mp h0 e' he hs

theorem readEntry_conflict (hr : ReconInv (fileEntries s e) r) (hg : entriesGood s e) (he : e < 128) (h : entryReadable s e)
    (hs : ∀ e' < e, entrySym s e' ≠ entrySym s e) {e' : Nat} (he' : e' < e) (hc : ¬ prefixFree (entryCode s e') (entryCode s e)) :
    readEntry s (1 + Config.entryBytes * e) r = raise .formatError (entryOff e + 1) := by
  have h1 : 1 ≤ (entryCode s e).length := by rw [entryCode_length]; have := h.2.2; omega
  have h127 : (entryCode s e).length ≤ 127 := by rw [entryCode_length]; exact codeLen_le _
  rw [readEntry_eq, require_true h.1, ok_bind, require_true h.2.1, ok_bind, require_true h.2.2, ok_bind,
    require_true ((hr.codeAt_eq_zero hg).mpr hs), ok_bind]
  rcases hr.conflict (by simpa using he) (entryOff e) h1 h127 (mem_fileEntries.mpr ⟨e', he', rfl⟩) hc with hw | ⟨cur, nodes, hw, ha⟩
  · rw [hw, raise_bind]
  · rw [hw, ok_bind, require_false ha, raise_bind]

theorem readEntry_ok (hr : ReconInv (fileEntries s e) r) (hg : entriesGood s e) (he : e < 128) (h : entryReadable s e)
    (hn : entryNew s e) : ∃ r', readEntry s (1 + Config.entryBytes * e) r = .ok r' ∧ ReconInv (fileEntries s (e + 1)) r' := by
  have h1 : 1 ≤ (entryCode s e).length := by rw [entryCode_length]; have := h.2.2; omega
  have h127 : (entryCode s e).length ≤ 127 := by rw [entryCode_length]; exact codeLen_le _
  obtain ⟨cur, nodes, hw, ha, hi⟩ := hr.step (by simpa using he) (entryOff e) (sym := BitVec.ofNat 7 (entrySym s e)) h1 h127 (by
    intro x hx hxe
    obtain ⟨e', he', rfl⟩ := mem_fileEntries.mp hx
    dsimp only at hxe
    have := congrArg BitVec.toNat hxe
    rw [symByte_toNat (hg e' he').1.1, symByte_toNat h.1] at this
    exact (hn e' he').1 this) (by
    intro x hx
    obtain ⟨e', he', rfl⟩ := mem_fileEntries.mp hx
    exact (hn e' he').2)
  refine ⟨_, ?_, fileEntries_succ s e ▸ hi⟩
  rw [readEntry_eq, require_true h.1, ok_bind, require_true h.2.1, ok_bind, require_true h.2.2, ok_bind,
    require_true ((hr.codeAt_eq_zero hg).mpr fun e' he' => (hn e' he').1), ok_bind, hw, ok_bind, require_true ha, ok_bind]
  rw [entryCode, fieldOf_of_codeBits h.2.1]

end

/-- The loop over good entries (R183). -/
theorem readEntries_ok {s : State} {n e : Nat} {r : Recon} (hr : ReconInv (fileEntries s e) r) (hn : e + n ≤ 128)
    (hg : entriesGood s (e + n)) :
    ∃ r', readEntries s n e r = .ok r' ∧ ReconInv (fileEntries s (e + n)) r' := by
  induction n generalizing e r with
  | zero => exact ⟨r, rfl, hr⟩
  | succ n ih =>
    obtain ⟨h1, h2⟩ := hg e (by omega)
    obtain ⟨r', hr1, hr2⟩ := readEntry_ok hr (fun e' he' => hg e' (by omega)) (by omega) h1 h2
    rw [readEntries, hr1, ok_bind, show e + (n + 1) = e + 1 + n by omega]
    exact ih hr2 (by omega) (by rw [show e + 1 + n = e + (n + 1) by omega]; exact hg)

/-- The loop stops at the first entry that is not good. -/
theorem readEntries_bad {s : State} {n e more : Nat} {r : Recon} {x : Stop} (hr : ReconInv (fileEntries s e) r)
    (hn : e + n < 128) (hg : entriesGood s (e + n))
    (hbad : ∀ r, ReconInv (fileEntries s (e + n)) r → readEntry s (1 + Config.entryBytes * (e + n)) r = .error x) :
    readEntries s (n + 1 + more) e r = .error x := by
  induction n generalizing e r with
  | zero =>
    have := hbad r hr
    rw [Nat.add_zero] at this
    rw [show 0 + 1 + more = more + 1 by omega, readEntries, this, error_bind]
  | succ n ih =>
    obtain ⟨h1, h2⟩ := hg e (by omega)
    obtain ⟨r', hr1, hr2⟩ := readEntry_ok hr (fun e' he' => hg e' (by omega)) (by omega) h1 h2
    rw [show n + 1 + 1 + more = (n + 1 + more) + 1 by omega, readEntries, hr1, ok_bind]
    rw [show e + (n + 1) = e + 1 + n by omega] at hg hbad hn
    exact ih hr2 hn hg hbad

/-- The records RCN leaves have the shape of R44. -/
theorem ReconInv.shape {l : List (Sym × List Bool)} {r : Recon} (h : ReconInv l r) (hl : l.length ≤ 128) :
    ReconShape r.nodes 0 l.length := by
  have hsz := h.size
  have hcap : r.nodes.length ≤ Config.nodeCap := by simp only [Config.nodeCap]; omega
  have hcap' := hcap
  simp only [Config.nodeCap] at hcap'
  have hget : ∀ i (hi : i < r.nodes.length), nodeNo r.nodes i = r.nodes[i] := fun i hi => nodeNo_eq_getElem hi (by omega)
  refine ⟨h.base.owned, rfl, h.base.root_internal, h.base.pos, hcap, fun n hn => ?_, h.leaf_count, ?_, fun i h0 hi hk => ?_,
    fun i hi b hb => ⟨h.base.child_larger i hi b hb, h.base.owned.child_allocated i hi b hb⟩⟩
  · obtain ⟨i, hi, rfl⟩ := List.mem_iff_getElem.mp hn
    rw [← hget i hi]
    exact h.base.record i hi
  · rw [List.pairwise_filter, List.pairwise_iff_getElem]
    intro i j hi hj hij hki hkj hs
    rw [← hget i hi] at hki hs
    rw [← hget j hj] at hkj hs
    have := h.syms i hi j hj (by simpa using hki) (by simpa using hkj) hs
    omega
  · obtain ⟨b, hb⟩ := h.children i h0 hi (by simpa using h0.ne') hk
    cases b
    · exact .inl hb
    · exact .inr hb

/-! ### The stage -/

/-- The state a completed RCN stage leaves (R188, R190). -/
def reconstructed (s : State) (r : Recon) : State :=
  { s with
    nodes := r.nodes
    root := 0
    code := r.code
    nsym := BitVec.ofNat 8 (fileCount s)
    treeSrc := .recon
    codesValid := true }

theorem rcnStage_eq (s : State) :
    rcnStage s = (do
      checkSrc s
      require (2 ≤ s.srcLen.toNat) .formatError s.srcLen.toNat
      require (fileCount s ≤ 128) .formatError 0
      require (17 * fileCount s + 2 ≤ s.srcLen.toNat) .formatError s.srcLen.toNat
      let r ← readEntries s (fileCount s) 0 { nodes := [childless], code := codeZero }
      .ok (reconstructed s r)) := rfl

/-- Up to the entries, a file whose header fits passes (R181). -/
theorem rcnStage_of_fits {s : State} (h : headerFits s) :
    rcnStage s = (readEntries s (fileCount s) 0 { nodes := [childless], code := codeZero } >>= fun r => .ok (reconstructed s r)) := by
  rw [rcnStage_eq, checkSrc_ok h.1, ok_bind, require_true h.2.1, ok_bind, require_true h.2.2.1, ok_bind, require_true h.2.2.2, ok_bind]

theorem rcnStage_ok {s : State} (h : headerFits s) (hg : entriesGood s (fileCount s)) :
    ∃ r, rcnStage s = .ok (reconstructed s r) ∧ ReconInv (fileEntries s (fileCount s)) r := by
  obtain ⟨r, h1, h2⟩ := readEntries_ok (e := 0) (n := fileCount s) reconInv_nil (by have := h.2.2.1; omega) (by simpa using hg)
  rw [Nat.zero_add] at h2
  exact ⟨r, by rw [rcnStage_of_fits h, h1, ok_bind], h2⟩

/-- The stage stops at the first entry that is not good. -/
theorem rcnStage_bad {s : State} (h : headerFits s) {e : Nat} (he : e < fileCount s) (hg : entriesGood s e) {x : Stop}
    (hbad : ∀ r, ReconInv (fileEntries s e) r → readEntry s (1 + Config.entryBytes * e) r = .error x) :
    rcnStage s = .error x := by
  have hc := h.2.2.1
  rw [rcnStage_of_fits h, show fileCount s = e + 1 + (fileCount s - e - 1) by omega,
    readEntries_bad (n := e) (e := 0) reconInv_nil (by omega) (by simpa using hg) (by simpa using hbad), error_bind]

/-- What the stage raises at an entry that is not good: the tests in order (R184, R187, R226). -/
def entryFault (s : State) (e : Nat) : Nat :=
  if ¬ entrySym s e < 128 then entryOff e
  else if ¬ entryReadable s e then entryOff e + 1
  else if ∃ e' < e, entrySym s e' = entrySym s e then entryOff e
  else entryOff e + 1

theorem readEntry_bad {s : State} {e : Nat} {r : Recon} (hr : ReconInv (fileEntries s e) r) (hg : entriesGood s e) (he : e < 128)
    (hbad : ¬ (entryReadable s e ∧ entryNew s e)) :
    readEntry s (1 + Config.entryBytes * e) r = raise .formatError (entryFault s e) := by
  unfold entryFault
  split
  · next h => exact readEntry_badSym h
  · next h =>
    rw [not_not] at h
    split
    · next h1 =>
      by_cases h0 : entryField s e = 0
      · exact readEntry_noSentinel h h0
      · exact readEntry_emptyCode h h0 (by by_contra hc; exact h1 ⟨h, h0, hc⟩)
    · next h1 =>
      rw [not_not] at h1
      split
      · next h2 =>
        obtain ⟨e', he', hs⟩ := h2
        exact readEntry_repeated hr hg h1 he' hs
      · next h2 =>
        simp only [not_exists, not_and] at h2
        obtain ⟨e', he', hc⟩ : ∃ e' < e, ¬ prefixFree (entryCode s e') (entryCode s e) := by
          by_contra hall
          exact hbad ⟨h1, fun e' he' => ⟨h2 e' he', by_contra fun hp => hall ⟨e', he', hp⟩⟩⟩
        exact readEntry_conflict hr hg he h1 h2 he' hc

theorem rcnStage_entryFault {s : State} (h : headerFits s) {e : Nat} (he : e < fileCount s) (hg : entriesGood s e)
    (hbad : ¬ (entryReadable s e ∧ entryNew s e)) : rcnStage s = raise .formatError (entryFault s e) :=
  rcnStage_bad h he hg fun _ hr => readEntry_bad hr hg (by have := h.2.2.1; omega) hbad

/-- Among entries that are not all good there is a first one that is not. -/
theorem first_bad_entry {s : State} {n : Nat} (h : ¬ entriesGood s n) :
    ∃ e < n, entriesGood s e ∧ ¬ (entryReadable s e ∧ entryNew s e) := by
  classical
  have hex : ∃ e, e < n ∧ ¬ (entryReadable s e ∧ entryNew s e) := by
    by_contra hc
    exact h fun e he => by_contra fun hb => hc ⟨e, he, hb⟩
  obtain ⟨hlt, hb⟩ := Nat.find_spec hex
  refine ⟨Nat.find hex, hlt, fun e he => ?_, hb⟩
  by_contra hb'
  exact Nat.find_min hex he ⟨by omega, hb'⟩

/-- Everything the RCN stage can do. -/
theorem rcnStage_cases (s : State) :
    (headerFits s ∧ entriesGood s (fileCount s) ∧
      ∃ r, rcnStage s = .ok (reconstructed s r) ∧ ReconInv (fileEntries s (fileCount s)) r) ∨
    (¬ (headerFits s ∧ entriesGood s (fileCount s)) ∧
      ∃ e v, rcnStage s = .error (.raised e v) ∧ (e = .windowError ∨ e = .formatError)) := by
  by_cases h : headerFits s
  · by_cases hg : entriesGood s (fileCount s)
    · exact .inl ⟨h, hg, rcnStage_ok h hg⟩
    · obtain ⟨e, he, hge, hb⟩ := first_bad_entry hg
      exact .inr ⟨fun hc => hg hc.2, _, _, rcnStage_entryFault h he hge hb, .inr rfl⟩
  · refine .inr ⟨fun hc => h hc.1, ?_⟩
    rw [rcnStage_eq]
    by_cases h1 : srcInRange s
    · rw [checkSrc_ok h1, ok_bind]
      by_cases h2 : 2 ≤ s.srcLen.toNat
      · rw [require_true h2, ok_bind]
        by_cases h3 : fileCount s ≤ 128
        · rw [require_true h3, ok_bind, require_false (fun h4 => h ⟨h1, h2, h3, h4⟩), raise_bind]
          exact ⟨_, _, rfl, .inr rfl⟩
        · rw [require_false h3, raise_bind]
          exact ⟨_, _, rfl, .inr rfl⟩
      · rw [require_false h2, raise_bind]
        exact ⟨_, _, rfl, .inr rfl⟩
    · rw [checkSrc_raise h1, raise_bind]
      exact ⟨_, _, rfl, .inl rfl⟩

/-- What the entries have become (R188). -/
theorem ReconInv.entries {s : State} {n : Nat} (hg : entriesGood s n) {r : Recon} (h : ReconInv (fileEntries s n) r) :
   (∀ path k, leafAt r.nodes 0 path k ↔ ∃ e < n, entrySym s e = k ∧ entryCode s e = path) ∧
      (∀ e < n, codeAt r.code (entrySym s e) = entryField s e) ∧
      ∀ k, (∀ e < n, entrySym s e ≠ k) → codeAt r.code k = 0 := by
  refine ⟨fun path k => ?_, fun e he => ?_, fun k hk => ?_⟩
  · rw [h.leaf]
    constructor
    · rintro ⟨x, hx, rfl, rfl⟩
      obtain ⟨e, he, rfl⟩ := mem_fileEntries.mp hx
      exact ⟨e, he, (symByte_toNat (hg e he).1.1).symm, rfl⟩
    · rintro ⟨e, he, rfl, rfl⟩
      exact ⟨_, mem_fileEntries.mpr ⟨e, he, rfl⟩, rfl, symByte_toNat (hg e he).1.1⟩
  · have := h.code _ (mem_fileEntries.mpr ⟨e, he, rfl⟩)
    dsimp only at this
    rw [symByte_toNat (hg e he).1.1] at this
    rw [this]
    exact fieldOf_of_codeBits (hg e he).1.2.1
  · refine h.no_code k fun x hx => ?_
    obtain ⟨e, he, rfl⟩ := mem_fileEntries.mp hx
    dsimp only
    rw [symByte_toNat (hg e he).1.1]; exact hk e he

/-- The CODE table that RCN leaves agrees with its tree (R45, R188). -/
theorem ReconInv.codesOfTree {l : List (Sym × List Bool)} {r : Recon} (h : ReconInv l r) :
    CodesOfTree r.nodes 0 r.code := by
  refine ⟨fun p k hp => ?_, fun k hk => h.no_code k fun x hx hxk => hk x.2 ((h.leaf _ _).mpr ⟨x, hx, rfl, hxk⟩)⟩
  obtain ⟨x, hx, rfl, rfl⟩ := (h.leaf _ _).mp hp
  exact h.code x hx

/-- That the entries pass depends on their list up to order (R191). -/
theorem entriesGood_iff (s : State) (n : Nat) : entriesGood s n ↔
   (∀ x ∈ (List.range n).map fun e => (entrySym s e, entryField s e), x.1 < 128 ∧ x.2 ≠ 0 ∧ codeLen x.2 ≠ 0) ∧
   ((List.range n).map fun e => (entrySym s e, entryField s e)).Pairwise (fun x y => x.1 ≠ y.1 ∧ prefixFree (codeBits x.2) (codeBits y.2)) := by
  rw [List.pairwise_map, List.pairwise_iff_getElem]
  simp only [List.mem_map, List.mem_range, forall_exists_index, and_imp, forall_apply_eq_imp_iff₂, List.length_range, List.getElem_range]
  constructor
  · intro h
    exact ⟨fun e he => (h e he).1, fun i j hi hj hij => (h j hj).2 i hij⟩
  · rintro ⟨h1, h2⟩ e he
    exact ⟨h1 e he, fun e' he' => h2 e' e (by omega) he he'⟩

end Sys2Proof.Machine
end

