-- ==== Sys2Proof/Laws/Exec.lean ====
section
/-! SUPPORT. What one step of a command can do, said once (spec/10_state.md R27, spec/60_exceptions.md R230), and what each
stage writes when it completes. -/

namespace Sys2Proof.Machine

/-- The function of a stage, whatever command it runs in (R83, R171, R211). -/
def stageOf : Stage → StageFn
  | .idle => fun _ => .error (.stuck .stageNotOfCommand)
  | .clr => clrStage
  | .cnt => cntStage
  | .bld => bldStage
  | .asg => asgStage
  | .ser => serStage
  | .rcn => rcnStage
  | .dcp => dcpStage

/-- The stage list of a command with its functions. -/
def runOf (i : Instr) : List (Stage × StageFn) := i.stages.map fun st => (st, stageOf st)

theorem exec_eq_commandStep (i : Instr) (s : State) : exec i s = commandStep (runOf i) s := by
  cases i <;> rfl

theorem runOf_fst (i : Instr) : (runOf i).map Prod.fst = i.stages := by
  simp [runOf, Function.comp_def]

theorem stageFnOf_runOf {i : Instr} {st : Stage} (h : st ∈ i.stages) : stageFnOf st (runOf i) = some (stageOf st) := by
  cases i <;> cases st <;> first | rfl | simp [Instr.stages] at h

theorem stageFnOf_runOf_none {i : Instr} {st : Stage} (h : st ∉ i.stages) : stageFnOf st (runOf i) = none := by
  cases i <;> cases st <;> first | rfl | simp [Instr.stages] at h

theorem exec_ok {i : Instr} {s s' : State} (hb : s.busy = true) (hs : s.stage ∈ i.stages) (h : stageOf s.stage s = .ok s') :
    exec i s = .next (advance (nextStage i.stages s.stage) s') := by
  rw [exec_eq_commandStep, commandStep_ok hb (stageFnOf_runOf hs) h, runOf_fst]

theorem exec_raised {i : Instr} {s : State} {e : ErrName} {v : Word} (hb : s.busy = true) (hs : s.stage ∈ i.stages)
    (h : stageOf s.stage s = .error (.raised e v)) : exec i s = .next (takeFault s.stage e v s) := by
  rw [exec_eq_commandStep, commandStep_raised hb (stageFnOf_runOf hs) h]

/-- Everything a command's step can do when it answers a next state. -/
theorem exec_next {i : Instr} {s t : State} (h : exec i s = .next t) :
    s.busy = true ∧ s.stage ∈ i.stages ∧
      ((∃ s', stageOf s.stage s = .ok s' ∧ t = advance (nextStage i.stages s.stage) s') ∨
        ∃ e v, stageOf s.stage s = .error (.raised e v) ∧ t = takeFault s.stage e v s) := by
  rw [exec_eq_commandStep] at h
  obtain ⟨hb, f, hf, h2⟩ := commandStep_next h
  have hs : s.stage ∈ i.stages := by
    by_contra hn
    rw [stageFnOf_runOf_none hn] at hf; simp at hf
  rw [stageFnOf_runOf hs, Option.some.injEq] at hf
  subst hf
  rw [runOf_fst] at h2
  exact ⟨hb, hs, h2⟩

/-- When a command's step stops. -/
theorem exec_fault {i : Instr} {s : State} {r : Fault} (h : exec i s = .fault r) :
    s.busy = false ∨ s.stage ∉ i.stages ∨ stageOf s.stage s = .error (.stuck r) := by
  rw [exec_eq_commandStep] at h
  rcases commandStep_fault h with h | h | ⟨f, hf, h⟩
  · exact .inl h
  · right; left
    intro hs
    rw [stageFnOf_runOf hs] at h; simp at h
  · by_cases hs : s.stage ∈ i.stages
    · rw [stageFnOf_runOf hs, Option.some.injEq] at hf
      subst hf
      exact .inr (.inr h)
    · exact .inr (.inl hs)

theorem exec_not_refused {i : Instr} {s : State} {r : Refusal} : exec i s ≠ .refused r := by
  rw [exec_eq_commandStep]; exact commandStep_not_refused

/-- What a completed stage has written, with what it has found on the way. -/
inductive StageDone (s : State) : Stage → State → Prop
  | clr : StageDone s .clr (leaveFault (sessionClear s))
  | cnt (f : Vector Word 128) : StageDone s .cnt { s with freq := f }
  | bld (h : freqTotal s.freq < 2 ^ 32) : StageDone s .bld
      { s with
        nodes := (buildTree s.freq).1
        root := (buildTree s.freq).2
        code := codeZero
        codesValid := false
        nsym := BitVec.ofNat 8 (leaves s.freq).seq
        treeSrc := .built }
  | asg (t : Vector CodeField 128) (h1 : s.treeSrc = .built) (h2 : treeCodes s.nodes s.root = .ok t) :
      StageDone s .asg { s with code := t, codesValid := true }
  | ser (h1 : s.treeSrc = .built) (h2 : s.codesValid = true) (hw : windowsLegal s)
      (h : (compressedFile s).length ≤ s.dstCap.toNat) : StageDone s .ser (emitted s (compressedFile s))
  | rcn (r : Recon) (h : headerFits s) (hi : ReconInv (fileEntries s (fileCount s)) r) : StageDone s .rcn (reconstructed s r)
  | dcp (out : List Byte) (h : s.treeSrc = .recon) (hw : windowsLegal s) (hl : out.length ≤ s.dstCap.toNat) :
      StageDone s .dcp (emitted s out)

/-- Everything a completed stage can be. -/
theorem stageDone {st : Stage} {s t : State} (h : stageOf st s = .ok t) : StageDone s st t := by
  cases st with
  | idle => simp [stageOf] at h
  | clr =>
    simp only [stageOf, clrStage, Except.ok.injEq] at h
    subst h; exact .clr
  | cnt =>
    rcases cntStage_cases s with ⟨f, hf⟩ | ⟨e, v, he, -⟩
    · rw [stageOf, hf, Except.ok.injEq] at h
      subst h; exact .cnt f
    · rw [stageOf, he] at h; simp at h
  | bld =>
    by_cases ht : freqTotal s.freq < 2 ^ 32
    · rw [stageOf, bldStage_ok ht, Except.ok.injEq] at h
      subst h; exact .bld ht
    · rw [stageOf, bldStage_overflow (by omega)] at h; exact absurd h raise_ne_ok
  | asg =>
    obtain ⟨h1, c, h2, rfl⟩ := asgStage_cases h
    exact .asg c h1 h2
  | ser =>
    rcases serStage_cases s with ⟨h1, h2, hw, -, hc, hs⟩ | ⟨e, v, he, -⟩
    · rw [stageOf, hs, Except.ok.injEq] at h
      subst h; exact .ser h1 h2 hw hc
    · rw [stageOf, he] at h; simp at h
  | rcn =>
    rcases rcnStage_cases s with ⟨hf, -, r, hr, hi⟩ | ⟨-, e, v, he, -⟩
    · rw [stageOf, hr, Except.ok.injEq] at h
      subst h; exact .rcn r hf hi
    · rw [stageOf, he] at h; simp at h
  | dcp =>
    rcases dcpStage_cases s with ⟨h1, hw, out, ho, hl⟩ | ⟨e, v, he, -⟩
    · rw [stageOf, ho, Except.ok.injEq] at h
      subst h; exact .dcp out h1 hw hl
    · rw [stageOf, he] at h; simp at h

/-- The faults a stage can raise (R221), and when the destination window is legal at the fault (R231). -/
theorem stage_raises {st : Stage} {s : State} {e : ErrName} {v : Word} (h : stageOf st s = .error (.raised e v)) :
    e ∈ faultsOf st ∧ (spoilsDst st e = true → windowsLegal s) := by
  cases st with
  | idle => simp [stageOf] at h
  | clr => simp [stageOf, clrStage] at h
  | cnt =>
    rcases cntStage_cases s with ⟨f, hf⟩ | ⟨e', v', he, hc⟩
    · rw [stageOf, hf] at h; simp at h
    · rw [stageOf, he] at h
      simp only [Except.error.injEq, Stop.raised.injEq] at h
      obtain ⟨rfl, rfl⟩ := h
      exact ⟨by simpa [faultsOf] using hc, by simp [spoilsDst]⟩
  | bld =>
    by_cases ht : freqTotal s.freq < 2 ^ 32
    · rw [stageOf, bldStage_ok ht] at h; simp at h
    · rw [stageOf, bldStage_overflow (by omega)] at h
      simp only [raise, Except.error.injEq, Stop.raised.injEq] at h
      obtain ⟨rfl, rfl⟩ := h
      exact ⟨by simp [faultsOf], by simp [spoilsDst]⟩
  | asg =>
    unfold stageOf asgStage at h
    simp only [bind_error_iff, require_error_iff, require_ok_iff] at h
    rcases h with ⟨-, h⟩ | ⟨-, -, h | ⟨c, -, h⟩⟩
    · simp only [Stop.raised.injEq] at h
      obtain ⟨rfl, rfl⟩ := h
      exact ⟨by simp [faultsOf], by simp [spoilsDst]⟩
    · exfalso
      have hv : ∀ d n p c, visit s.nodes d n p c ≠ .error (.raised e v) := by
        intro d
        induction d with
        | zero => intro n p c hh; simp [visit] at hh
        | succ d ih =>
          intro n p c hh
          rw [visit] at hh
          split at hh
          · simp at hh
          · rw [bind_error_iff] at hh
            rcases hh with hh | ⟨c', -, hh⟩
            · split at hh
              · exact ih _ _ _ hh
              · simp at hh
            · split at hh
              · exact ih _ _ _ hh
              · simp at hh
      unfold treeCodes at h
      split at h
      · exact hv _ _ _ _ h
      · simp at h
    · simp at h
  | ser =>
    rcases serStage_cases s with ⟨-, -, -, -, -, hs⟩ | ⟨e', v', he, hm, hw⟩
    · rw [stageOf, hs] at h; simp at h
    · rw [stageOf, he] at h
      simp only [Except.error.injEq, Stop.raised.injEq] at h
      obtain ⟨rfl, rfl⟩ := h
      refine ⟨hm, fun hsp => ?_⟩
      rcases hw with (rfl | rfl) | hw
      · simp [spoilsDst] at hsp
      · simp [spoilsDst] at hsp
      · exact hw
  | rcn =>
    rcases rcnStage_cases s with ⟨-, -, r, hr, -⟩ | ⟨-, e', v', he, hm⟩
    · rw [stageOf, hr] at h; simp at h
    · rw [stageOf, he] at h
      simp only [Except.error.injEq, Stop.raised.injEq] at h
      obtain ⟨rfl, rfl⟩ := h
      exact ⟨by simpa [faultsOf] using hm, by simp [spoilsDst]⟩
  | dcp =>
    rcases dcpStage_cases s with ⟨-, -, out, ho, -⟩ | ⟨e', v', he, hm, hw⟩
    · rw [stageOf, ho] at h; simp at h
    · rw [stageOf, he] at h
      simp only [Except.error.injEq, Stop.raised.injEq] at h
      obtain ⟨rfl, rfl⟩ := h
      refine ⟨hm, fun hsp => ?_⟩
      rcases hw with (rfl | rfl) | hw
      · simp [spoilsDst] at hsp
      · simp [spoilsDst] at hsp
      · exact hw

/-- Only the ASG stage can stop the model, and only on records that are no built tree. -/
theorem stage_stuck {st : Stage} {s : State} {r : Fault} (h : stageOf st s = .error (.stuck r)) :
    st = .idle ∨ (st = .asg ∧ s.treeSrc = .built ∧ ∀ n, ¬ BuiltShape s.nodes s.root n) := by
  cases st with
  | idle => exact .inl rfl
  | clr => simp [stageOf, clrStage] at h
  | cnt =>
    rcases cntStage_cases s with ⟨f, hf⟩ | ⟨e, v, he, -⟩
    · rw [stageOf, hf] at h; simp at h
    · rw [stageOf, he] at h; simp at h
  | bld =>
    by_cases ht : freqTotal s.freq < 2 ^ 32
    · rw [stageOf, bldStage_ok ht] at h; simp at h
    · rw [stageOf, bldStage_overflow (by omega)] at h; simp [raise] at h
  | asg =>
    by_cases h1 : s.treeSrc = .built
    · refine .inr ⟨rfl, h1, fun n hs => ?_⟩
      obtain ⟨t, ht, -⟩ := asgStage_ok h1 hs
      rw [stageOf, ht] at h; simp at h
    · rw [stageOf, asgStage_notBuilt h1] at h; simp [raise] at h
  | ser =>
    rcases serStage_cases s with ⟨-, -, -, -, -, hs⟩ | ⟨e, v, he, -⟩
    · rw [stageOf, hs] at h; simp at h
    · rw [stageOf, he] at h; simp at h
  | rcn =>
    rcases rcnStage_cases s with ⟨-, -, r, hr, -⟩ | ⟨-, e, v, he, -⟩
    · rw [stageOf, hr] at h; simp at h
    · rw [stageOf, he] at h; simp at h
  | dcp =>
    rcases dcpStage_cases s with ⟨-, -, out, ho, -⟩ | ⟨e, v, he, -⟩
    · rw [stageOf, ho] at h; simp at h
    · rw [stageOf, he] at h; simp at h

/-! ### Stepping -/

theorem step_of_stage {s s' : State} {i : Instr} (hm : nextMove s = .stage s') (ho : s'.op = i.opcode) : step s = exec i s' := by
  unfold step
  rw [hm]
  dsimp only
  rw [fetchCommand_of_op ho]

theorem step_of_host {s : State} {o : Host.Outcome State Fault Refusal} (hm : nextMove s = .host o) : step s = o := by
  unfold step
  rw [hm]

/-- Everything a step can do when it answers a next state: a stage step of the command in OP, or a host operation. -/
theorem step_next {s t : State} (h : step s = .next t) :
    (∃ s' i, nextMove s = .stage s' ∧ s'.op = i.opcode ∧ exec i s' = .next t) ∨ nextMove s = .host (.next t) := by
  unfold step at h
  split at h
  · next o hm => subst h; exact .inr hm
  · next s' hm =>
    split at h
    · next i hf => exact .inl ⟨s', i, hm, fetchCommand_some hf, h⟩
    · simp at h

end Sys2Proof.Machine
end

