-- ==== Sys2Proof/Laws/Step.lean ====
section
/-! SUPPORT. What one step of the machine can do, said once (spec/60_exceptions.md R243), and the run of several steps. -/

namespace Sys2Proof.Machine

/-! ### Stage lists (R83) -/

theorem nextStage_spec {i : Instr} {st : Stage} (h : st ∈ i.stages) :
    ∃ before rest, i.stages = before ++ st :: rest ∧ nextStage i.stages st = rest.head? := by
  cases i <;> cases st <;> first
    | (simp [Instr.stages] at h; done)
    | exact ⟨[], _, rfl, rfl⟩
    | exact ⟨[_], _, rfl, rfl⟩
    | exact ⟨[_, _], _, rfl, rfl⟩
    | exact ⟨[_, _, _], _, rfl, rfl⟩
    | exact ⟨[_, _, _, _], _, rfl, rfl⟩

theorem nextStage_mem {i : Instr} {st st' : Stage} (h : nextStage i.stages st = some st') : st' ∈ i.stages := by
  cases i <;> cases st <;> simp [Instr.stages, nextStage] at h <;> subst h <;> simp [Instr.stages]

theorem firstStage_mem (i : Instr) : i.firstStage ∈ i.stages := by cases i <;> simp [Instr.firstStage, Instr.stages]

theorem firstStage_head (i : Instr) : i.stages.head? = some i.firstStage := by cases i <;> rfl

theorem idle_not_mem (i : Instr) : Stage.idle ∉ i.stages := by cases i <;> simp [Instr.stages]

/-- The two ways a stage hands on (R27). -/
theorem advance_none (s : State) : advance none s = finished s := rfl
theorem advance_some (st : Stage) (s : State) : advance (some st) s = movedOn st s := rfl

/-! ### Host operations -/

section host
variable {s : State} {rest : List Event}

theorem step_regWrite {n : Nat} {v : Word} (h : s.script = .regWrite n v :: rest) (hn : n < 0x400) :
    step s = .next (hostRegWrite n v { s with script := rest }) :=
  step_of_host (by simp [nextMove, h, Event.wf, Config.regSpace, hn])

theorem step_regRead {n : Nat} (h : s.script = .regRead n :: rest) (hn : n < 0x400) :
    step s = .next (hostRegRead n { s with script := rest }) :=
  step_of_host (by simp [nextMove, h, Event.wf, Config.regSpace, hn])

theorem step_memRead {a : Word} (h : s.script = .memRead a :: rest) : step s = hostMemRead a { s with script := rest } :=
  step_of_host (by simp [nextMove, h, Event.wf])

theorem step_memWrite {a : Word} {v : Byte} (h : s.script = .memWrite a v :: rest) :
    step s = hostMemWrite a v { s with script := rest } :=
  step_of_host (by simp [nextMove, h, Event.wf])

theorem step_reset (h : s.script = .reset :: rest) : step s = .next (resetMachine { s with script := rest }) :=
  step_of_host (by simp [nextMove, h, Event.wf])

theorem step_wait_busy (h : s.script = .wait :: rest) (hb : s.busy = true) {i : Instr} (ho : s.op = i.opcode) :
    step s = exec i s :=
  step_of_stage (s' := s) (by simp [nextMove, h, hb, Event.wf]) ho

theorem step_wait_idle (h : s.script = .wait :: rest) (hb : s.busy = false) :
    step s = .next (hostRegRead 0x001 { s with script := rest }) :=
  step_of_host (by simp [nextMove, h, hb, Event.wf])

end host

/-- What a host operation that is not a stage step can be. -/
inductive HostDone (s : State) : State → Prop
  | idle (h : s.busy = false) (hs : s.script = []) : HostDone s s
  | turn (rest : List Event) (hs : s.script = .turn :: rest) (h : s.busy = false) : HostDone s { s with script := rest }
  | wait (rest : List Event) (hs : s.script = .wait :: rest) (h : s.busy = false) :
      HostDone s (hostRegRead 0x001 { s with script := rest })
  | irq (rest : List Event) (hs : s.script = .waitIrq :: rest) (h : irq s = true) : HostDone s { s with script := rest }
  | stuck (rest : List Event) (hs : s.script = .waitIrq :: rest) (h : irq s = false) (hb : s.busy = false) : HostDone s s
  | regRead (n : Nat) (rest : List Event) (hs : s.script = .regRead n :: rest) :
      HostDone s (hostRegRead n { s with script := rest })
  | regWrite (n : Nat) (v : Word) (rest : List Event) (hs : s.script = .regWrite n v :: rest) :
      HostDone s (hostRegWrite n v { s with script := rest })
  | memRead (a : Word) (rest : List Event) (hs : s.script = .memRead a :: rest) :
      HostDone s { s with script := rest, replies := .mem (Machine.memRead s.mem a.toNat) :: s.replies }
  | memWrite (a : Word) (v : Byte) (rest : List Event) (hs : s.script = .memWrite a v :: rest) :
      HostDone s { s with script := rest, mem := Machine.memWrite s.mem a.toNat v }
  | reset (rest : List Event) (hs : s.script = .reset :: rest) : HostDone s (resetMachine { s with script := rest })

theorem hostDone {s t : State} (h : nextMove s = .host (.next t)) : HostDone s t := by
  unfold nextMove at h
  split at h
  · next hs =>
    split at h
    · simp at h
    · next hb => simp only [Move.host.injEq, Host.Outcome.next.injEq] at h; subst h; exact .idle (by simpa using hb) hs
  · next e rest hs =>
    split at h
    · simp at h
    · cases e with
      | turn =>
        dsimp only at h
        split at h
        · simp at h
        · next hb => simp only [Move.host.injEq, Host.Outcome.next.injEq] at h; subst h; exact .turn rest hs (by simpa using hb)
      | wait =>
        dsimp only at h
        split at h
        · simp at h
        · next hb => simp only [Move.host.injEq, Host.Outcome.next.injEq] at h; subst h; exact .wait rest hs (by simpa using hb)
      | waitIrq =>
        dsimp only at h
        split at h
        · next hi => simp only [Move.host.injEq, Host.Outcome.next.injEq] at h; subst h; exact .irq rest hs hi
        · next hi =>
          split at h
          · simp at h
          · next hb =>
            simp only [Move.host.injEq, Host.Outcome.next.injEq] at h; subst h
            exact .stuck rest hs (by simpa using hi) (by simpa using hb)
      | regRead n => simp only [Move.host.injEq, Host.Outcome.next.injEq] at h; subst h; exact .regRead n rest hs
      | regWrite n v => simp only [Move.host.injEq, Host.Outcome.next.injEq] at h; subst h; exact .regWrite n v rest hs
      | memRead a =>
        simp only [Move.host.injEq, hostMemRead] at h
        split at h
        · simp at h
        · simp only [Host.Outcome.next.injEq] at h; subst h; exact .memRead a rest hs
      | memWrite a v =>
        simp only [Move.host.injEq, hostMemWrite] at h
        split at h
        · simp at h
        · simp only [Host.Outcome.next.injEq] at h; subst h; exact .memWrite a v rest hs
      | reset => simp only [Move.host.injEq, Host.Outcome.next.injEq] at h; subst h; exact .reset rest hs

/-- A stage step is taken by the command in OP, from the state with at most the `turn` taken off the script. -/
theorem stageMove {s s' : State} (h : nextMove s = .stage s') :
    s.busy = true ∧ ∃ l, s' = { s with script := l } := by
  unfold nextMove at h
  split at h
  · next hs =>
    split at h
    · next hb => simp only [Move.stage.injEq] at h; subst h; exact ⟨hb, s.script, rfl⟩
    · simp at h
  · next e rest hs =>
    split at h
    · simp at h
    · cases e with
      | turn =>
        dsimp only at h
        split at h
        · next hb => simp only [Move.stage.injEq] at h; subst h; exact ⟨hb, rest, rfl⟩
        · simp at h
      | wait =>
        dsimp only at h
        split at h
        · next hb => simp only [Move.stage.injEq] at h; subst h; exact ⟨hb, s.script, rfl⟩
        · simp at h
      | waitIrq =>
        dsimp only at h
        split at h
        · simp at h
        · split at h
          · next hb => simp only [Move.stage.injEq] at h; subst h; exact ⟨hb, s.script, rfl⟩
          · simp at h
      | regRead n => simp at h
      | regWrite n v => simp at h
      | memRead a => simp at h
      | memWrite a v => simp at h
      | reset => simp at h

/-- Everything a step can do when it answers a next state: one stage step of the command in OP, or a host operation. -/
theorem step_cases {s t : State} (h : step s = .next t) :
    (∃ i l, s.busy = true ∧ s.op = i.opcode ∧ exec i { s with script := l } = .next t) ∨ HostDone s t := by
  rcases step_next h with ⟨s', i, hm, ho, he⟩ | hm
  · obtain ⟨hb, l, rfl⟩ := stageMove hm
    exact .inl ⟨i, l, hb, ho, he⟩
  · exact .inr (hostDone hm)

/-- What a register write by the host can do (R21, R26). -/
theorem hostRegWrite_cases (n : Nat) (v : Word) (s : State) :
    hostRegWrite n v s = s ∨
      (s.busy = false ∧
        ((∃ i, n = 0x000 ∧ decode v = .ok i ∧ (s.err = true → i = .clr) ∧ hostRegWrite n v s = accept i s) ∨
          (n = 0x000 ∧ s.err = false ∧ hostRegWrite n v s = faultEntry .illegalCommandError v s) ∨
          hostRegWrite n v s = { s with done := false } ∨
          (∃ a b, hostRegWrite n v s = { s with ieDone := a, ieErr := b }) ∨
          (∃ a b c d, hostRegWrite n v s = { s with srcBase := a, srcLen := b, dstBase := c, dstCap := d }) ∨
          (∃ a, hostRegWrite n v s = { s with nodeSel := a }) ∨
          ∃ f, hostRegWrite n v s = { s with freq := f })) := by
  by_cases hb : s.busy = true
  · left; unfold hostRegWrite; rw [if_pos hb]
  · have hb' : s.busy = false := by simpa using hb
    unfold hostRegWrite
    rw [if_neg hb]
    by_cases h0 : n = 0x000
    · rw [if_pos h0]
      unfold cmdWrite
      by_cases hc : s.err = true ∧ v ≠ encode .clr
      · rw [if_pos hc]; exact .inl rfl
      · rw [if_neg hc]
        right; refine ⟨hb', ?_⟩
        cases hd : decode v with
        | ok i =>
          left
          refine ⟨i, h0, rfl, fun he => ?_, rfl⟩
          have hw : v = encode .clr := by by_contra hw; exact hc ⟨he, hw⟩
          rw [hw, decode_encode, Except.ok.injEq] at hd
          exact hd.symm
        | error e =>
          right; left
          refine ⟨h0, ?_, rfl⟩
          by_contra he
          have he : s.err = true := by simpa using he
          have hw : v = encode .clr := by by_contra hw; exact hc ⟨he, hw⟩
          rw [hw, decode_encode] at hd; simp at hd
    rw [if_neg h0]
    by_cases h1 : n = 0x001
    · rw [if_pos h1]
      by_cases hv : v.getLsbD 1 = true
      · rw [if_pos hv]; exact .inr ⟨hb', .inr (.inr (.inl rfl))⟩
      · rw [if_neg hv]; exact .inl rfl
    rw [if_neg h1]
    by_cases h2 : n = 0x002
    · rw [if_pos h2]; exact .inr ⟨hb', .inr (.inr (.inr (.inl ⟨_, _, rfl⟩)))⟩
    rw [if_neg h2]
    by_cases h5 : n = 0x005
    · rw [if_pos h5]; exact .inr ⟨hb', .inr (.inr (.inr (.inr (.inl ⟨v, s.srcLen, s.dstBase, s.dstCap, rfl⟩))))⟩
    rw [if_neg h5]
    by_cases h6 : n = 0x006
    · rw [if_pos h6]; exact .inr ⟨hb', .inr (.inr (.inr (.inr (.inl ⟨s.srcBase, v, s.dstBase, s.dstCap, rfl⟩))))⟩
    rw [if_neg h6]
    by_cases h7 : n = 0x007
    · rw [if_pos h7]; exact .inr ⟨hb', .inr (.inr (.inr (.inr (.inl ⟨s.srcBase, s.srcLen, v, s.dstCap, rfl⟩))))⟩
    rw [if_neg h7]
    by_cases h8 : n = 0x008
    · rw [if_pos h8]; exact .inr ⟨hb', .inr (.inr (.inr (.inr (.inl ⟨s.srcBase, s.srcLen, s.dstBase, v, rfl⟩))))⟩
    rw [if_neg h8]
    by_cases hd : n = 0x00D
    · rw [if_pos hd]; exact .inr ⟨hb', .inr (.inr (.inr (.inr (.inr (.inl ⟨_, rfl⟩)))))⟩
    rw [if_neg hd]
    by_cases hf : 0x080 ≤ n ∧ n < 0x100
    · rw [if_pos hf]; exact .inr ⟨hb', .inr (.inr (.inr (.inr (.inr (.inr ⟨_, rfl⟩)))))⟩
    rw [if_neg hf]
    exact .inl rfl

/-- What a register read by the host changes: the model's own record of the host (R20, R23). -/
theorem hostRegRead_cases (n : Nat) (s : State) :
    ∃ r f k, hostRegRead n s = { s with replies := r, inFlight := f, freeCount := k } ∧ (s.busy = true → f = s.inFlight) := by
  unfold hostRegRead
  split
  · exact ⟨_, s.inFlight, _, rfl, fun _ => rfl⟩
  · simp only []
    split
    · next h => exact ⟨_, [], s.freeCount, rfl, fun hb => by rw [hb] at h; simp at h⟩
    · exact ⟨_, s.inFlight, s.freeCount, rfl, fun _ => rfl⟩

/-- What reset leaves (R250, R251). -/
theorem resetMachine_eq (s : State) :
    ∃ m k, resetMachine s = { State.reset with mem := m, script := s.script, replies := s.replies, freeCount := k } ∧
      (resetSpoils s = false → m = s.mem) ∧
      (resetSpoils s = true → m = memSpoil s.mem s.dstBase.toNat s.freeCount (dstBytes s)) := by
  unfold resetMachine
  cases h : resetSpoils s
  · exact ⟨_, _, rfl, fun _ => rfl, fun h => by simp at h⟩
  · exact ⟨_, _, rfl, fun h => by simp at h, fun _ => rfl⟩

/-! ### Runs -/

theorem runSteps_zero (s : State) : runSteps 0 s = .next s := rfl

theorem runSteps_succ {n : Nat} {s t : State} (h : step s = .next t) : runSteps (n + 1) s = runSteps n t := by
  rw [runSteps, h]

theorem runSteps_add {n m : Nat} {s t : State} (h : runSteps n s = .next t) : runSteps (n + m) s = runSteps m t := by
  induction n generalizing s with
  | zero =>
    rw [runSteps_zero, Host.Outcome.next.injEq] at h
    subst h; rw [Nat.zero_add]
  | succ n ih =>
    rw [show n + 1 + m = (n + m) + 1 by omega]
    cases hs : step s with
    | next s' => rw [runSteps_succ hs] at h; rw [runSteps_succ hs]; exact ih h
    | fault r => rw [runSteps, hs] at h; simp at h
    | refused r => rw [runSteps, hs] at h; simp at h

theorem runsTo_refl (s : State) : runsTo s s := ⟨0, rfl⟩

theorem runsTo.step {s t u : State} (h : Machine.step s = .next t) (ht : runsTo t u) : runsTo s u := by
  obtain ⟨n, hn⟩ := ht
  exact ⟨n + 1, by rw [runSteps_succ h, hn]⟩

theorem runsTo.trans {s t u : State} (h : runsTo s t) (ht : runsTo t u) : runsTo s u := by
  obtain ⟨n, hn⟩ := h
  obtain ⟨m, hm⟩ := ht
  exact ⟨n + m, by rw [runSteps_add hn, hm]⟩

theorem step_over {s : State} (h : runOver s) : Machine.step s = .next s :=
  step_of_host (by simp [nextMove, h.1, h.2])

/-- A run that is over stays where it is (R245, R263). -/
theorem runsTo_over {s t : State} (h : runOver s) (ht : runsTo s t) : t = s := by
  obtain ⟨n, hn⟩ := ht
  induction n with
  | zero => rw [runSteps_zero, Host.Outcome.next.injEq] at hn; exact hn.symm
  | succ n ih => rw [runSteps_succ (step_over h)] at hn; exact ih hn

/-- Two runs from one state that are over end in the same state. -/
theorem runsTo_unique {s t u : State} (ht : runsTo s t) (hu : runsTo s u) (h1 : runOver t) (h2 : runOver u) : t = u := by
  obtain ⟨n, hn⟩ := ht
  obtain ⟨m, hm⟩ := hu
  rcases Nat.le_total n m with h | h
  · obtain ⟨d, rfl⟩ := Nat.exists_eq_add_of_le h
    rw [runSteps_add hn] at hm
    exact (runsTo_over h1 ⟨d, hm⟩).symm
  · obtain ⟨d, rfl⟩ := Nat.exists_eq_add_of_le h
    rw [runSteps_add hm] at hn
    exact runsTo_over h2 ⟨d, hn⟩

end Sys2Proof.Machine
end

