-- ==== Sys2Proof/Laws/Frame.lean ====
section
/-! SUPPORT. What stages, faults and reset leave unchanged (spec/10_state.md R28, R30, R34, R46, R51; spec/20_memory.md R79;
spec/60_exceptions.md R230, R231). -/

namespace Sys2Proof.Machine

/-- What every completed stage keeps; only CLR touches ERR, ERRCODE and ERRINFO (R29). -/
theorem StageDone.frame {s t : State} {st : Stage} (h : StageDone s st t) :
    t.ieDone = s.ieDone ∧ t.ieErr = s.ieErr ∧ windowsOf t = windowsOf s ∧ t.nodeSel = s.nodeSel ∧ t.op = s.op ∧
      t.script = s.script ∧ t.replies = s.replies ∧ t.inFlight = s.inFlight ∧ t.busy = s.busy ∧ t.done = s.done ∧
      t.stage = s.stage ∧ t.freeCount = s.freeCount := by
  cases h <;> exact ⟨rfl, rfl, rfl, rfl, rfl, rfl, rfl, rfl, rfl, rfl, rfl, rfl⟩

theorem StageDone.fault_frame {s t : State} {st : Stage} (h : StageDone s st t) :
    (st = .clr ∧ t.err = false ∧ t.errCode = 0 ∧ t.errInfo = 0) ∨
      (st ≠ .clr ∧ t.err = s.err ∧ t.errCode = s.errCode ∧ t.errInfo = s.errInfo) := by
  cases h
  · exact .inl ⟨rfl, rfl, rfl, rfl⟩
  all_goals exact .inr ⟨by simp, rfl, rfl, rfl⟩

/-- A completed stage other than SER and DCP leaves memory alone; SER and DCP write the DST_LEN bytes from DST_BASE (R79). -/
theorem StageDone.mem_frame {s t : State} {st : Stage} (h : StageDone s st t) :
    (st ≠ .ser ∧ st ≠ .dcp ∧ t.mem = s.mem) ∨
      ((st = .ser ∨ st = .dcp) ∧ windowsLegal s ∧
        ∃ bs, t = emitted s bs ∧ bs.length ≤ s.dstCap.toNat) := by
  cases h with
  | ser h1 h2 hw hl => exact .inr ⟨.inl rfl, hw, _, rfl, hl⟩
  | dcp out h1 hw hl => exact .inr ⟨.inr rfl, hw, _, rfl, hl⟩
  | _ => exact .inl ⟨by simp, by simp, rfl⟩

theorem dstBytes_le (s : State) : dstBytes s ≤ s.dstCap.toNat := Nat.min_le_left _ _

theorem dstBytes_top (s : State) : s.dstBase.toNat + dstBytes s ≤ 2 ^ 32 := by
  have := s.dstBase.isLt
  unfold dstBytes Config.memSpace
  omega

/-- Spoiling the destination window changes no byte outside it (R231). -/
theorem spoil_sameOutside (s : State) (k : Nat) :
    memSameOutside s.mem (memSpoil s.mem s.dstBase.toNat k (dstBytes s)) s.dstBase.toNat s.dstCap.toNat := by
  intro x hx
  have := dstBytes_le s
  rw [memRead_memSpoil, if_neg (by omega)]

theorem takeFault_mem (st : Stage) (e : ErrName) (v : Word) (s : State) :
    (spoilsDst st e = false ∧ (takeFault st e v s).mem = s.mem ∧ (takeFault st e v s).freeCount = s.freeCount) ∨
      (spoilsDst st e = true ∧
        (takeFault st e v s).mem = memSpoil s.mem s.dstBase.toNat s.freeCount (dstBytes s) ∧
        (takeFault st e v s).freeCount = s.freeCount + dstBytes s) := by
  rw [takeFault_eq]
  cases h : spoilsDst st e
  · exact .inl ⟨rfl, by simp, by simp⟩
  · exact .inr ⟨rfl, by simp, by simp⟩

theorem takeFault_sameOutside (st : Stage) (e : ErrName) (v : Word) (s : State) :
    memSameOutside s.mem (takeFault st e v s).mem s.dstBase.toNat s.dstCap.toNat := by
  rcases takeFault_mem st e v s with ⟨-, h, -⟩ | ⟨-, h, -⟩
  · rw [h]; exact fun _ _ => rfl
  · rw [h]; exact spoil_sameOutside s _

/-- The registers after a fault (R230). -/
theorem takeFault_registers (st : Stage) (e : ErrName) (v : Word) (s : State) :
    takeFault st e v s =
      { faultEntry e v s with mem := (takeFault st e v s).mem, freeCount := (takeFault st e v s).freeCount } := by
  rw [takeFault_eq]

/-- A fault that leaves the destination window alone is fault entry and nothing else. -/
theorem takeFault_plain {st : Stage} {e : ErrName} (h : spoilsDst st e = false) (v : Word) (s : State) :
    takeFault st e v s = faultEntry e v s := by
  rw [takeFault, h]; rfl

theorem faultsTo_of {i : Instr} {s : State} {e : ErrName} {info : Nat} (hb : s.busy = true) (hs : s.stage ∈ i.stages)
    (h : stageOf s.stage s = raise e info) : faultsTo i s e info := by
  refine ⟨_, _, (exec_raised hb hs h).trans (congrArg _ (takeFault_registers _ _ _ _)), takeFault_sameOutside _ _ _ _⟩

theorem exec_plainFault {i : Instr} {s : State} {e : ErrName} {info : Nat} (hb : s.busy = true) (hs : s.stage ∈ i.stages)
    (h : stageOf s.stage s = raise e info) (hp : spoilsDst s.stage e = false) :
    exec i s = .next (faultEntry e (BitVec.ofNat 32 info) s) := by
  rw [exec_raised hb hs h, takeFault_plain hp]

/-- A completed stage, from what the state says of the sequencer. -/
theorem exec_at {i : Instr} {s s' : State} {st : Stage} (h : atStage st s) (hs : st ∈ i.stages) (hf : stageOf st s = .ok s') :
    exec i s = .next (advance (nextStage i.stages st) s') := by
  obtain ⟨hb, rfl⟩ := h
  exact exec_ok hb hs hf

/-- A stage from a legal tree gives a next state. -/
theorem exec_legal {i : Instr} {s : State} (hb : s.busy = true) (hs : s.stage ∈ i.stages)
    (ht : s.treeSrc = .built → ∃ n, BuiltShape s.nodes s.root n) : ∃ t, exec i s = .next t := by
  cases h : exec i s with
  | next t => exact ⟨t, rfl⟩
  | refused r => exact absurd h exec_not_refused
  | fault r =>
    exfalso
    rcases exec_fault h with h1 | h1 | h1
    · rw [hb] at h1; simp at h1
    · exact h1 hs
    · rcases stage_stuck h1 with h2 | ⟨-, h3, h4⟩
      · exact idle_not_mem i (h2 ▸ hs)
      · obtain ⟨n, hn⟩ := ht h3
        exact h4 n hn

theorem freeNodes (i : NodeIdx) : nodeAt [] i = Node.freeRecord := rfl

/-- The registers of the reset state, whatever memory and the model's own fields are (R51). -/
theorem registersReset (m : Memory) (l : List Event) (r : List Reply) (k : Nat) :
    RegistersReset { State.reset with mem := m, script := l, replies := r, freeCount := k } :=
  ⟨⟨rfl, rfl, rfl, rfl, rfl, rfl, rfl⟩, ⟨rfl, rfl⟩, ⟨rfl, rfl⟩, ⟨rfl, rfl, rfl, rfl⟩, rfl, rfl, rfl, rfl, rfl, freeNodes,
    fun k _ => freqAt_replicate k, fun k _ => codeAt_codeZero k, rfl⟩

end Sys2Proof.Machine
end

