-- ==== Sys2Proof/Laws/Invariant.lean ====
section
/-! SUPPORT. How the parts of the invariant `Legal` go through the pieces of a step (spec/10_state.md R43 to R47). -/

namespace Sys2Proof.Machine

theorem advance_mem (n : Option Stage) (s : State) : (advance n s).mem = s.mem := by cases n <;> rfl

/-- `TreeLegal` depends on the tree, the codes, NSYM, TREE_SRC and CODES_VALID alone. -/
theorem TreeLegal.of_eq {s t : State} (h : TreeLegal s) (h1 : t.treeSrc = s.treeSrc) (h2 : t.nodes = s.nodes)
    (h3 : t.root = s.root) (h4 : t.nsym = s.nsym) (h5 : t.code = s.code) (h6 : t.codesValid = s.codesValid) :
    TreeLegal t := by
  unfold TreeLegal at *
  rw [h1, h2, h3, h4, h5, h6]; exact h

/-- A cleared session has a legal tree: none (R46). -/
theorem TreeLegal.cleared {t : State} (h1 : t.treeSrc = .none) (h2 : t.nodes = []) (h3 : t.root = Config.nil)
    (h4 : t.nsym = 0) (h5 : t.code = codeZero) (h6 : t.codesValid = false) : TreeLegal t := by
  unfold TreeLegal
  rw [h1]; exact ⟨h2, h3, h4, h5, h6⟩

/-- A completed stage leaves a legal tree (R43, R44, R45, R47). -/
theorem StageDone.tree {s t : State} {st : Stage} (h : StageDone s st t) (hl : TreeLegal s) : TreeLegal t := by
  cases h with
  | clr => exact TreeLegal.cleared rfl rfl rfl rfl rfl rfl
  | cnt f => exact TreeLegal.of_eq hl rfl rfl rfl rfl rfl rfl
  | bld ht =>
    refine ⟨?_, fun _ => rfl, by simp⟩
    dsimp only
    rw [nsym_toNat]
    exact buildTree_shape ht
  | asg c h1 h2 =>
    unfold TreeLegal at *
    dsimp only
    rw [h1] at hl ⊢
    exact ⟨hl.1, by simp, fun _ => h2⟩
  | ser h1 h2 hw h => exact TreeLegal.of_eq hl rfl rfl rfl rfl rfl rfl
  | rcn r h hi =>
    have hc := h.2.2.1
    refine ⟨?_, rfl, hi.codesOfTree⟩
    have := hi.shape (by rw [fileEntries_length]; exact hc)
    rw [fileEntries_length] at this
    show ReconShape r.nodes 0 (BitVec.ofNat 8 (fileCount s)).toNat
    rw [BitVec.toNat_ofNat, Nat.mod_eq_of_lt (by omega)]
    exact this
  | dcp out h hw hl' => exact TreeLegal.of_eq hl rfl rfl rfl rfl rfl rfl

/-- The sequencer's advance leaves the tree alone (R27). -/
theorem TreeLegal.advance {s : State} (h : TreeLegal s) (n : Option Stage) : TreeLegal (advance n s) := by
  cases n <;> exact TreeLegal.of_eq h rfl rfl rfl rfl rfl rfl

end Sys2Proof.Machine
end

