-- ==== Sys2Proof/Laws/View.lean ====
section
/-! SUPPORT. What a stage reads (spec/20_memory.md R66, R72; spec/10_state.md R50): the session registers, the windows and the
source window; nothing else of memory, and nothing of the sequencer or the host's side. -/

namespace Sys2Proof.Machine

/-- `s` with the parts that no stage reads exchanged. -/
def dressed (s : State) (m : Memory) (st : Stage) (busy done : Bool) (op : Byte) (script : List Event) (replies : List Reply)
    (inFlight : List Windows) : State :=
  { s with
    mem := m, stage := st, busy := busy, done := done, op := op, script := script, replies := replies, inFlight := inFlight }

section
variable {s : State} {m : Memory} {g : Stage} {b d : Bool} {o : Byte} {l : List Event} {r : List Reply} {f : List Windows}

/-- The two memories agree on the source window. -/
abbrev agree (s : State) (m : Memory) : Prop :=
  ∀ i < s.srcLen.toNat, memRead m (s.srcBase.toNat + i) = memRead s.mem (s.srcBase.toNat + i)

theorem srcByte_view (h : agree s m) {i : Nat} (hi : i < s.srcLen.toNat) :
    srcByte (dressed s m g b d o l r f) i = srcByte s i := h i hi

theorem countFrom_view (h : agree s m) {n i : Nat} (hn : i + n ≤ s.srcLen.toNat) (freq : Vector Word 128) :
    countFrom (dressed s m g b d o l r f) n i freq = countFrom s n i freq := by
  induction n generalizing i freq with
  | zero => rfl
  | succ n ih => simp only [countFrom]; rw [srcByte_view h (by omega), ih (by omega)]

theorem readEntry_view (h : agree s m) {e : Nat} (hn : 17 * e + 18 ≤ s.srcLen.toNat) (x : Recon) :
    readEntry (dressed s m g b d o l r f) (1 + Config.entryBytes * e) x = readEntry s (1 + Config.entryBytes * e) x := by
  have h17 : Config.entryBytes = 17 := rfl
  have hf : ((List.range 16).map fun j => srcByte (dressed s m g b d o l r f) (1 + Config.entryBytes * e + 1 + j)) =
      (List.range 16).map fun j => srcByte s (1 + Config.entryBytes * e + 1 + j) := by
    refine List.map_congr_left fun j hj => srcByte_view h ?_
    rw [List.mem_range] at hj
    rw [h17]; omega
  unfold readEntry
  rw [srcByte_view h (by rw [h17]; omega), hf]

theorem readEntries_view (h : agree s m) {n e : Nat} (hn : 17 * (e + n) + 1 ≤ s.srcLen.toNat) (x : Recon) :
    readEntries (dressed s m g b d o l r f) n e x = readEntries s n e x := by
  induction n generalizing e x with
  | zero => rfl
  | succ n ih =>
    simp only [readEntries]
    rw [readEntry_view h (by omega)]
    congr 1; funext x'
    exact ih (by omega) x'

theorem encodable_view (h : agree s m) {k : Nat} (hk : k < s.srcLen.toNat) :
    encodable (dressed s m g b d o l r f) k ↔ encodable s k := by
  unfold encodable; rw [srcByte_view h hk]; exact Iff.rfl

theorem bitsFrom_view (h : agree s m) {k : Nat} (hk : k ≤ s.srcLen.toNat) :
    bitsFrom (dressed s m g b d o l r f) 0 k = bitsFrom s 0 k := by
  unfold bitsFrom
  refine List.flatMap_congr fun j hj => ?_
  rw [List.mem_range] at hj
  rw [Nat.zero_add, srcByte_view h (by omega)]; rfl

theorem headerBytes_view : headerBytes (dressed s m g b d o l r f) = headerBytes s := rfl

theorem compressedFile_view (h : agree s m) : compressedFile (dressed s m g b d o l r f) = compressedFile s := by
  unfold compressedFile
  rw [← bitsFrom_zero, ← bitsFrom_zero]
  rw [show (dressed s m g b d o l r f).srcLen = s.srcLen from rfl, bitsFrom_view h le_rfl]
  rfl

theorem filePad_view (h : agree s m) (hl : 0 < s.srcLen.toNat) : filePad (dressed s m g b d o l r f) = filePad s :=
  congrArg BitVec.toNat (srcByte_view (i := s.srcLen.toNat - 1) h (by omega))

theorem walkedBits_view (h : agree s m) : walkedBits (dressed s m g b d o l r f) = walkedBits s := by
  unfold walkedBits
  show (List.range (s.srcLen.toNat - 1 - payloadOff s)).flatMap _ = _
  refine List.flatMap_congr fun j hj => ?_
  rw [List.mem_range] at hj
  unfold usedBits
  rw [filePad_view h (by omega), show payloadOff (dressed s m g b d o l r f) = payloadOff s from rfl,
    srcByte_view h (by omega)]
  rfl

/-- The outcome of stage `st` at `dressed s …` against its outcome at `s`: the same error, or states that differ in the same parts,
and the same bytes written to memory: DST_LEN of them by SER and DCP, none by the other stages. -/
def sameOutcome (st : Stage) (s : State) (m : Memory) (g : Stage) (b d : Bool) (o : Byte) (l : List Event) (r : List Reply)
    (f : List Windows) (x y : Except Stop State) : Prop :=
  (∃ a m', x = .ok a ∧ y = .ok (dressed a m' g b d o l r f) ∧
    ∃ bs, m' = putBytes m s.dstBase.toNat bs ∧ a.mem = putBytes s.mem s.dstBase.toNat bs ∧
      bs.length = if st = .ser ∨ st = .dcp then a.dstLen.toNat else 0) ∨ ∃ e, x = .error e ∧ y = .error e

theorem cntStage_view (h : agree s m) : sameOutcome .cnt s m g b d o l r f (cntStage s) (cntStage (dressed s m g b d o l r f)) := by
  unfold cntStage
  rw [show checkSrc (dressed s m g b d o l r f) = checkSrc s from rfl]
  cases checkSrc s with
  | error e => right; exact ⟨_, rfl, rfl⟩
  | ok u =>
    simp only [ok_bind]
    rw [show (dressed s m g b d o l r f).srcLen = s.srcLen from rfl, countFrom_view h (by omega)]
    cases countFrom s s.srcLen.toNat 0 freqZero with
    | error e => right; exact ⟨_, rfl, rfl⟩
    | ok freq => left; exact ⟨_, m, rfl, rfl, [], rfl, rfl, rfl⟩

theorem rcnStage_view (h : agree s m) : sameOutcome .rcn s m g b d o l r f (rcnStage s) (rcnStage (dressed s m g b d o l r f)) := by
  rw [rcnStage_eq, rcnStage_eq]
  rw [show checkSrc (dressed s m g b d o l r f) = checkSrc s from rfl]
  cases checkSrc s with
  | error e => right; exact ⟨_, rfl, rfl⟩
  | ok u =>
    simp only [ok_bind]
    rw [show (dressed s m g b d o l r f).srcLen = s.srcLen from rfl]
    by_cases h2 : 2 ≤ s.srcLen.toNat
    · rw [require_true h2, ok_bind, ok_bind]
      have hc : fileCount (dressed s m g b d o l r f) = fileCount s :=
        congrArg BitVec.toNat (srcByte_view (i := 0) h (by omega))
      rw [hc]
      by_cases h3 : fileCount s ≤ 128
      · rw [require_true h3, ok_bind, ok_bind]
        by_cases h4 : 17 * fileCount s + 2 ≤ s.srcLen.toNat
        · rw [require_true h4, ok_bind, ok_bind, readEntries_view h (by omega)]
          cases readEntries s (fileCount s) 0 { nodes := [childless], code := codeZero } with
          | error e => right; exact ⟨_, rfl, rfl⟩
          | ok x => left; refine ⟨_, m, rfl, ?_, [], rfl, rfl, rfl⟩; simp only [ok_bind, reconstructed, hc]; rfl
        · rw [require_false h4]; right; exact ⟨_, rfl, rfl⟩
      · rw [require_false h3]; right; exact ⟨_, rfl, rfl⟩
    · rw [require_false h2]; right; exact ⟨_, rfl, rfl⟩

/-- The first source byte that cannot be encoded. -/
theorem first_bad_byte {s : State} (h : ¬ ∀ k < s.srcLen.toNat, encodable s k) :
    ∃ k < s.srcLen.toNat, ¬ encodable s k ∧ ∀ j < k, encodable s j := by
  have hex : ∃ k, k < s.srcLen.toNat ∧ ¬ encodable s k := by
    by_contra hc
    exact h fun k hk => by
      by_contra hn
      exact hc ⟨k, hk, hn⟩
  classical
  refine ⟨Nat.find hex, (Nat.find_spec hex).1, (Nat.find_spec hex).2, fun j hj => ?_⟩
  by_contra hc
  exact Nat.find_min hex hj ⟨by have := (Nat.find_spec hex).1; omega, hc⟩

theorem serStage_view (h : agree s m) : sameOutcome .ser s m g b d o l r f (serStage s) (serStage (dressed s m g b d o l r f)) := by
  by_cases h1 : s.treeSrc = .built ∧ s.codesValid = true
  · cases hc : checkBoth s with
    | error x => right; exact ⟨x, serStage_window h1 hc, serStage_window (s := dressed s m g b d o l r f) h1 hc⟩
    | ok u =>
      have hw := checkBoth_ok_iff.mp hc
      have hw' : windowsLegal (dressed s m g b d o l r f) := hw
      by_cases hg : ∀ k < s.srcLen.toNat, encodable s k
      · have hg' : ∀ k < s.srcLen.toNat, encodable (dressed s m g b d o l r f) k := fun k hk => (encodable_view h hk).mpr (hg k hk)
        by_cases hl : (compressedFile s).length ≤ s.dstCap.toNat
        · left
          have e2 := serStage_ok (s := dressed s m g b d o l r f) h1.1 h1.2 hw' hg' (by rw [compressedFile_view h]; exact hl)
          rw [compressedFile_view h] at e2
          exact ⟨_, _, serStage_ok h1.1 h1.2 hw hg hl, e2, _, rfl, rfl, (emitted_dstLen hl).symm⟩
        · right
          have e1 := serStage_overflow h1.1 h1.2 hw hg (by omega)
          have e2 := serStage_overflow (s := dressed s m g b d o l r f) h1.1 h1.2 hw' hg'
            (by rw [compressedFile_view h]; show s.dstCap.toNat < _; omega)
          exact ⟨_, e1, e2⟩
      · obtain ⟨k, hk, hbad, hj⟩ := first_bad_byte hg
        have hk' : k < (dressed s m g b d o l r f).srcLen.toNat := hk
        have hj' : ∀ j < k, encodable (dressed s m g b d o l r f) j := fun j hjk => (encodable_view h (by omega)).mpr (hj j hjk)
        have hbad' : ¬ encodable (dressed s m g b d o l r f) k := fun hc => hbad ((encodable_view h hk).mp hc)
        right
        by_cases hl : (headerBytes s).length + (bitsFrom s 0 k).length / 8 ≤ s.dstCap.toNat
        · have e1 := serStage_bad h1.1 h1.2 hw hk hj hbad hl
          have e2 := serStage_bad (s := dressed s m g b d o l r f) h1.1 h1.2 hw' hk' hj' hbad'
            (by rw [bitsFrom_view h (by omega)]; exact hl)
          rw [srcByte_view h hk] at e2
          by_cases hb : (srcByte s k).toNat < 128
          · rw [if_pos hb] at e1 e2; exact ⟨_, e1, e2⟩
          · rw [if_neg hb] at e1 e2; exact ⟨_, e1, e2⟩
        · have e1 := serStage_overflowAt h1.1 h1.2 hw (by omega : k ≤ _) hj (by omega)
          have e2 := serStage_overflowAt (s := dressed s m g b d o l r f) h1.1 h1.2 hw' (i := k) (by omega) hj'
            (by rw [bitsFrom_view h (by omega), headerBytes_view]; show s.dstCap.toNat < _; omega)
          exact ⟨_, e1, e2⟩
  · right; exact ⟨_, serStage_noCodes h1, serStage_noCodes (s := dressed s m g b d o l r f) h1⟩

theorem dcpStage_view (h : agree s m) : sameOutcome .dcp s m g b d o l r f (dcpStage s) (dcpStage (dressed s m g b d o l r f)) := by
  by_cases h1 : s.treeSrc = .recon
  · cases hc : checkBoth s with
    | error x => right; exact ⟨x, dcpStage_window h1 hc, dcpStage_window (s := dressed s m g b d o l r f) h1 hc⟩
    | ok u =>
      have hw := checkBoth_ok_iff.mp hc
      have hw' : windowsLegal (dressed s m g b d o l r f) := hw
      by_cases hl : 17 * s.nsym.toNat + 2 ≤ s.srcLen.toNat
      · have hpf : payloadFits (dressed s m g b d o l r f) ↔ payloadFits s := by
          unfold payloadFits; rw [filePad_view h (by omega)]; exact Iff.rfl
        by_cases hp : payloadFits s
        · have e1 := dcpStage_of_fits h1 hw hp
          have e2 := dcpStage_of_fits (s := dressed s m g b d o l r f) h1 hw' (hpf.mpr hp)
          have hr : dcpRun (dressed s m g b d o l r f) = dcpRun s := by unfold dcpRun; rw [walkedBits_view h]; rfl
          rw [hr] at e2
          cases hd : dcpRun s with
          | missing k => rw [hd] at e1 e2; right; exact ⟨_, e1, e2⟩
          | full => rw [hd] at e1 e2; right; exact ⟨_, e1, e2⟩
          | ended cur out =>
            have hlen : out.length ≤ s.dstCap.toNat := runBits_out_le hd (by simp)
            rw [hd] at e1 e2
            dsimp only at e1 e2
            by_cases hroot : cur = s.root
            · rw [if_pos hroot] at e1
              rw [if_pos (show cur = (dressed s m g b d o l r f).root from hroot)] at e2
              left; exact ⟨_, _, e1, e2, _, rfl, rfl, (emitted_dstLen hlen).symm⟩
            · rw [if_neg hroot] at e1
              rw [if_neg (show ¬ cur = (dressed s m g b d o l r f).root from hroot)] at e2
              right; exact ⟨_, e1, e2⟩
        · right
          exact ⟨_, dcpStage_badPad h1 hw hl hp,
            dcpStage_badPad (s := dressed s m g b d o l r f) h1 hw' hl (fun hc => hp (hpf.mp hc))⟩
      · right; exact ⟨_, dcpStage_short h1 hw hl, dcpStage_short (s := dressed s m g b d o l r f) h1 hw' hl⟩
  · right; exact ⟨_, dcpStage_notRecon h1, dcpStage_notRecon (s := dressed s m g b d o l r f) h1⟩

/-- What a stage does depends on nothing that `dressed` exchanges, but for memory in the source window (R66, R72). -/
theorem stageOf_view (st : Stage) (h : agree s m) :
    sameOutcome st s m g b d o l r f (stageOf st s) (stageOf st (dressed s m g b d o l r f)) := by
  cases st with
  | idle => right; exact ⟨_, rfl, rfl⟩
  | clr => left; exact ⟨_, m, rfl, rfl, [], rfl, rfl, rfl⟩
  | cnt => exact cntStage_view h
  | bld =>
    show sameOutcome .bld s m g b d o l r f (bldStage s) (bldStage (dressed s m g b d o l r f))
    by_cases hf : freqTotal s.freq < 2 ^ 32
    · rw [bldStage_ok hf, bldStage_ok (s := dressed s m g b d o l r f) hf]; left; exact ⟨_, m, rfl, rfl, [], rfl, rfl, rfl⟩
    · rw [bldStage_overflow (by omega), bldStage_overflow (s := dressed s m g b d o l r f) (by show _ ≤ freqTotal s.freq; omega)]
      right; exact ⟨_, rfl, rfl⟩
  | asg =>
    show sameOutcome .asg s m g b d o l r f (asgStage s) (asgStage (dressed s m g b d o l r f))
    by_cases hf : s.treeSrc = .built
    · unfold asgStage
      rw [require_true hf, require_true (show (dressed s m g b d o l r f).treeSrc = .built from hf), ok_bind, ok_bind]
      rw [show treeCodes (dressed s m g b d o l r f).nodes (dressed s m g b d o l r f).root = treeCodes s.nodes s.root from rfl]
      cases treeCodes s.nodes s.root with
      | error e => right; exact ⟨_, rfl, rfl⟩
      | ok c => left; exact ⟨_, m, rfl, rfl, [], rfl, rfl, rfl⟩
    · rw [asgStage_notBuilt hf, asgStage_notBuilt (s := dressed s m g b d o l r f) hf]; right; exact ⟨_, rfl, rfl⟩
  | ser => exact serStage_view h
  | rcn => exact rcnStage_view h
  | dcp => exact dcpStage_view h

end

end Sys2Proof.Machine
end

