-- ==== Sys2Proof/Laws/Run.lean ====
section
/-! SUPPORT. Whole commands: what the host's `cmd I; wait` comes to (spec/30_encoding.md R87; spec/10_state.md R26, R27). -/

namespace Sys2Proof.Machine

/-- The stages of a list, one after the other, from a state with BUSY = 1: the state at the end of the command, or nothing where
the model stops. -/
def stagesFrom : List Stage → State → Option State
  | [], s => some (finished s)
  | st :: l, s =>
    match stageOf st (movedOn st s) with
    | .ok s' => stagesFrom l s'
    | .error (.raised e v) => some (takeFault st e v (movedOn st s))
    | .error (.stuck _) => none

theorem stagesFrom_ok {st : Stage} {l : List Stage} {s s' : State} (h : stageOf st (movedOn st s) = .ok s') :
    stagesFrom (st :: l) s = stagesFrom l s' := by rw [stagesFrom, h]

theorem stagesFrom_raise {st : Stage} {l : List Stage} {s : State} {e : ErrName} {v : Word}
    (h : stageOf st (movedOn st s) = .error (.raised e v)) :
    stagesFrom (st :: l) s = some (takeFault st e v (movedOn st s)) := by rw [stagesFrom, h]

theorem takeFault_ends (st : Stage) (e : ErrName) (v : Word) (s : State) :
    (takeFault st e v s).busy = false ∧ (takeFault st e v s).done = false ∧ (takeFault st e v s).err = true ∧
      (takeFault st e v s).stage = .idle ∧ (takeFault st e v s).script = s.script ∧ (takeFault st e v s).op = s.op := by
  rw [takeFault_eq]; exact ⟨rfl, rfl, rfl, rfl, rfl, rfl⟩

theorem stages_nodup (i : Instr) : i.stages.Nodup := by cases i <;> decide

/-- The stage after `st`, when the stage list is known. -/
theorem nextStage_of {i : Instr} {before rest : List Stage} {st : Stage} (h : i.stages = before ++ st :: rest) :
    nextStage i.stages st = rest.head? := by
  obtain ⟨b', r', h1, h2⟩ := nextStage_spec (i := i) (st := st) (by rw [h]; simp)
  rw [h2]
  have hn := stages_nodup i
  have hb : st ∉ before := by
    intro hc; rw [h, List.nodup_append] at hn; exact hn.2.2 _ hc _ (by simp) rfl
  have hb' : st ∉ b' := by
    intro hc; rw [h1, List.nodup_append] at hn; exact hn.2.2 _ hc _ (by simp) rfl
  have h3 : b' ++ st :: r' = before ++ st :: rest := by rw [← h1, h]
  have h4 := congrArg (List.dropWhile (· != st)) h3
  rw [List.dropWhile_append_of_pos, List.dropWhile_append_of_pos] at h4
  · have : r' = rest := by simpa using h4
    rw [this]
  · intro x hx; simp only [bne_iff_ne]; rintro rfl; exact hb hx
  · intro x hx; simp only [bne_iff_ne]; rintro rfl; exact hb' hx

/-- Where the stages of a running command lead, while the host waits. -/
theorem runsTo_stages {i : Instr} {st : Stage} {rest : List Stage} {before : List Stage} {s t : State} {more : List Event}
    (hi : i.stages = before ++ st :: rest) (hb : s.busy = true) (ho : s.op = i.opcode) (hs : s.script = .wait :: more)
    (h : stagesFrom (st :: rest) s = some t) :
    runsTo (movedOn st s) t ∧ t.script = .wait :: more ∧ t.busy = false ∧ t.op = i.opcode := by
  induction rest generalizing st before s with
  | nil =>
    have hstep : step (movedOn st s) = exec i (movedOn st s) :=
      step_wait_busy (s := movedOn st s) hs hb ho
    rw [stagesFrom] at h
    cases hr : stageOf st (movedOn st s) with
    | ok s' =>
      rw [hr] at h
      obtain rfl := Option.some.inj h
      have hx := exec_ok (i := i) (s := movedOn st s) hb (by rw [hi]; simp [movedOn]) hr
      rw [show (movedOn st s).stage = st from rfl, nextStage_of hi] at hx
      obtain ⟨-, -, -, -, f1, f2, -⟩ := (stageDone hr).frame
      exact ⟨runsTo.step (hstep.trans hx) (runsTo_refl _), f2.trans hs, rfl, f1.trans ho⟩
    | error x =>
      rw [hr] at h
      cases x with
      | stuck r => simp at h
      | raised e v =>
        obtain rfl := Option.some.inj h
        have hx := exec_raised (i := i) (s := movedOn st s) hb (by rw [hi]; simp [movedOn]) hr
        obtain ⟨g1, -, -, -, g2, g3⟩ := takeFault_ends st e v (movedOn st s)
        exact ⟨runsTo.step (hstep.trans hx) (runsTo_refl _), g2.trans hs, g1, g3.trans ho⟩
  | cons st' rest ih =>
    have hstep : step (movedOn st s) = exec i (movedOn st s) :=
      step_wait_busy (s := movedOn st s) hs hb ho
    rw [stagesFrom] at h
    cases hr : stageOf st (movedOn st s) with
    | ok s' =>
      rw [hr] at h
      have hx := exec_ok (i := i) (s := movedOn st s) hb (by rw [hi]; simp [movedOn]) hr
      rw [show (movedOn st s).stage = st from rfl, nextStage_of hi] at hx
      obtain ⟨-, -, -, -, f1, f2, -, -, f3, -⟩ := (stageDone hr).frame
      obtain ⟨h1, h2⟩ := ih (before := before ++ [st]) (st := st') (s := s') (by rw [hi]; simp) (f3.trans hb) (f1.trans ho)
        (f2.trans hs) h
      exact ⟨runsTo.step (hstep.trans hx) h1, h2⟩
    | error x =>
      rw [hr] at h
      cases x with
      | stuck r => simp at h
      | raised e v =>
        obtain rfl := Option.some.inj h
        have hx := exec_raised (i := i) (s := movedOn st s) hb (by rw [hi]; simp [movedOn]) hr
        obtain ⟨g1, -, -, -, g2, g3⟩ := takeFault_ends st e v (movedOn st s)
        exact ⟨runsTo.step (hstep.trans hx) (runsTo_refl _), g2.trans hs, g1, g3.trans ho⟩

theorem accept_movedOn (i : Instr) (s : State) : movedOn i.firstStage (accept i s) = accept i s := rfl

theorem stages_eq_first (i : Instr) : ∃ rest, i.stages = i.firstStage :: rest := by cases i <;> exact ⟨_, rfl⟩

/-- The host sees BUSY = 0 (R87, R73 c). -/
def seen (s : State) (more : List Event) : State :=
  { s with script := more, replies := .reg (statusWord s) :: s.replies, inFlight := [] }

theorem step_wait_seen {s : State} {more : List Event} (hs : s.script = .wait :: more) (hb : s.busy = false) :
    step s = .next (seen s more) := by
  rw [step_wait_idle hs hb, hostRegRead, if_neg (by simp), if_pos ⟨hb, rfl⟩]; rfl

/-- `cmd I; wait` (R87) with BUSY = 0, when the command is accepted: its stages, then the host's read of STATUS. -/
theorem runsTo_command {i : Instr} {s t : State} {more : List Event} (hs : s.script = cmd i :: .wait :: more)
    (hb : s.busy = false) (he : s.err = true → i = .clr)
    (h : stagesFrom i.stages (accept i { s with script := .wait :: more }) = some t) : runsTo s (seen t more) := by
  obtain ⟨rest, hr⟩ := stages_eq_first i
  have h1 : step s = .next (accept i { s with script := .wait :: more }) := by
    rw [step_regWrite (n := 0x000) (v := encode i) hs (by decide), hostRegWrite, if_neg (by simp [hb]), if_pos rfl, cmdWrite,
      if_neg, decode_encode]
    rintro ⟨h2, h3⟩
    rw [he h2] at h3; exact h3 rfl
  rw [hr] at h
  obtain ⟨h2, h3, h4, -⟩ := runsTo_stages (i := i) (before := []) hr rfl rfl rfl h
  exact (runsTo.step h1 h2).trans (runsTo.step (step_wait_seen h3 h4) (runsTo_refl _))

/-- `cmd I; wait` with ERR = 1 and another command than CLR: the write is dropped (R26, R232). -/
theorem runsTo_dropped {i : Instr} {s : State} {more : List Event} (hs : s.script = cmd i :: .wait :: more)
    (hb : s.busy = false) (he : s.err = true) (hi : i ≠ .clr) : runsTo s (seen s more) := by
  have h1 : step s = .next { s with script := .wait :: more } := by
    rw [step_regWrite (n := 0x000) (v := encode i) hs (by decide), hostRegWrite, if_neg (by simp [hb]), if_pos rfl, cmdWrite, if_pos]
    refine ⟨he, fun h => hi ?_⟩
    have h2 := congrArg decode h
    rw [decode_encode, decode_encode] at h2
    exact Except.ok.inj h2
  exact runsTo.step h1 (runsTo.step (step_wait_seen (s := { s with script := .wait :: more }) rfl hb) (runsTo_refl _))

/-- With a legal tree, or beginning with CLR, the stages lead somewhere. -/
theorem stagesFrom_some {l : List Stage} {s : State} (hl : .idle ∉ l) (h : TreeLegal s ∨ l.head? = some .clr) :
    ∃ t, stagesFrom l s = some t := by
  induction l generalizing s with
  | nil => exact ⟨_, rfl⟩
  | cons st l ih =>
    rw [stagesFrom]
    cases hr : stageOf st (movedOn st s) with
    | ok s' =>
      have hd := stageDone hr
      refine ih (fun hc => hl (List.mem_cons_of_mem _ hc)) (.inl ?_)
      rcases h with h | h
      · exact hd.tree (TreeLegal.of_eq h rfl rfl rfl rfl rfl rfl)
      · obtain rfl : st = .clr := by simpa using h
        cases hd; exact TreeLegal.cleared rfl rfl rfl rfl rfl rfl
    | error x =>
      cases x with
      | raised e v => exact ⟨_, rfl⟩
      | stuck r =>
        exfalso
        rcases stage_stuck hr with rfl | ⟨rfl, h2, h3⟩
        · exact hl (by simp)
        · rcases h with h | h
          · have h2 : s.treeSrc = .built := h2
            unfold TreeLegal at h
            rw [h2] at h
            exact h3 _ h.1
          · simp at h

/-! ### Two states that differ only in the sequencer, OP and the host's side -/

/-- `t` is `s` but for the sequencer, OP and the host's side. -/
def looks (s t : State) : Prop := ∃ g b d o l r f, t = dressed s s.mem g b d o l r f

theorem looks.takeFault {s t : State} (h : looks s t) (st : Stage) (e : ErrName) (v : Word) :
    looks (takeFault st e v s) (takeFault st e v t) := by
  obtain ⟨g, b, d, o, l, r, f, rfl⟩ := h
  rw [takeFault_eq, takeFault_eq]
  exact ⟨.idle, false, false, o, l, r, f, rfl⟩

theorem looks.stage {s t : State} (h : looks s t) (st : Stage) :
    (∃ a c, stageOf st s = .ok a ∧ stageOf st t = .ok c ∧ looks a c) ∨ ∃ e, stageOf st s = .error e ∧ stageOf st t = .error e := by
  obtain ⟨g, b, d, o, l, r, f, rfl⟩ := h
  rcases stageOf_view (s := s) (m := s.mem) (g := g) (b := b) (d := d) (o := o) (l := l) (r := r) (f := f) st (fun _ _ => rfl) with ⟨a, m', h1, h2, bs, rfl, h3, -⟩ | h
  · left; refine ⟨a, _, h1, h2, ?_⟩
    rw [← h3]; exact ⟨_, _, _, _, _, _, _, rfl⟩
  · right; exact h

theorem looks.trans {s t u : State} (h : looks s t) (h' : looks t u) : looks s u := by
  obtain ⟨g, b, d, o, l, r, f, rfl⟩ := h
  obtain ⟨g, b, d, o, l, r, f, rfl⟩ := h'
  exact ⟨_, _, _, _, _, _, _, rfl⟩
theorem looks.symm {s t : State} (h : looks s t) : looks t s := by
  obtain ⟨g, b, d, o, l, r, f, rfl⟩ := h
  exact ⟨s.stage, s.busy, s.done, s.op, s.script, s.replies, s.inFlight, rfl⟩

theorem looks_seen (s : State) (l : List Event) : looks s (seen s l) := ⟨_, _, _, _, _, _, _, rfl⟩
theorem looks_movedOn (st : Stage) (s : State) : looks s (movedOn st s) := ⟨_, _, _, _, _, _, _, rfl⟩
theorem looks_finished (s : State) : looks s (finished s) := ⟨_, _, _, _, _, _, _, rfl⟩
theorem looks_accept (i : Instr) (s : State) (l : List Event) : looks s (accept i { s with script := l }) := ⟨_, _, _, _, _, _, _, rfl⟩

end Sys2Proof.Machine
end

