-- ==== Sys2Proof/Laws/Encode.lean ====
section
/-! SUPPORT. ENC up to its last stage (spec/44_serialize.md R170, R172), and what a file that ENC has written holds
(spec/46_decode.md R212). -/

namespace Sys2Proof.Machine

/-- A state with a built tree, its codes, and a code for every byte of the source window. -/
structure ReadyToWrite (s : State) : Prop where
  built : s.treeSrc = .built
  valid : s.codesValid = true
  shape : BuiltShape s.nodes s.root s.nsym.toNat
  codes : CodesOfTree s.nodes s.root s.code
  bytes : ∀ k < s.srcLen.toNat, encodable s k

theorem freqTotal_of_occurrences {s : State} {f : Vector Word 128} {n : Nat} (hb : ∀ j < n, (srcByte s j).toNat < 128)
    (hf : ∀ k < 128, (freqAt f k).toNat = occurrences s k 0 n) : freqTotal f = n := by
  rw [← sum_occurrences (s := s) (i := 0) (n := n) (by simpa using hb)]
  unfold freqTotal
  congr 1
  exact List.map_congr_left fun k hk => hf k (by simpa using hk)

theorem occurrences_ne_zero {s : State} {n j : Nat} (hj : j < n) : occurrences s (srcByte s j).toNat 0 n ≠ 0 := by
  unfold occurrences
  rw [← Nat.pos_iff_ne_zero, List.countP_pos_iff]
  exact ⟨j, by simpa using hj, by simp⟩

/-- After the leaves of R132 every symbol with a nonzero FREQ hangs in the tree. -/
theorem leaf_of_present {f : Vector Word 128} (ht : freqTotal f < 2 ^ 32) {k : Nat} (hk : k < 128) (hf : freqAt f k ≠ 0) :
    ∃ p, leafAt (buildTree f).1 (buildTree f).2 p k := by
  have hm : k ∈ presentSyms f 128 := presentSyms_mem.mpr ⟨hk, hf⟩
  obtain ⟨j, hj, hjk⟩ := List.mem_iff_getElem.mp hm
  have hj' : j < symCount f := hj
  have hle := symCount_le f
  have hl := leaves_nodes_length f
  have hnode : nodeNo (buildTree f).1 j = mkLeaf (BitVec.ofNat 7 k) (freqAt f k) := by
    have hd : (presentSyms f 128).getD j 0 = k := by rw [List.getD_eq_getElem _ _ hj, hjk]
    by_cases h2 : 2 ≤ symCount f
    · rw [(buildTree_merged ht h2).leaf j hj', hd]
    · rw [buildTree_one (by omega)]
      dsimp only
      rw [nodeNo_alloc_lt (by omega) (by omega), leaves_node hj', hd]
  obtain ⟨p, hp⟩ := (buildTree_shape ht).leaf_reachable hj'
  rw [hnode, mkLeaf_sym, BitVec.toNat_ofNat, Nat.mod_eq_of_lt (by omega)] at hp
  exact ⟨p, hp⟩

/-- The stages of ENC before SER complete, for a legal source window of symbols (R170). -/
theorem enc_before_ser {s : State} (hw : srcInRange s) (hsym : allSymbols s) :
    ∃ t, stagesFrom Instr.enc.stages s = stagesFrom [.ser] t ∧ ReadyToWrite t ∧ t.mem = s.mem ∧ windowsOf t = windowsOf s ∧
      t.err = false ∧ t.ieDone = s.ieDone ∧ t.ieErr = s.ieErr ∧ t.nodeSel = s.nodeSel := by
  let s1 := leaveFault (sessionClear (movedOn .clr s))
  obtain ⟨f, hf, hocc⟩ := cntStage_ok (s := movedOn .cnt s1) hw hsym
  have htot : freqTotal f = s.srcLen.toNat := freqTotal_of_occurrences (s := movedOn .cnt s1) hsym hocc
  have ht : freqTotal f < 2 ^ 32 := by rw [htot]; exact s.srcLen.isLt
  have hbld := bldStage_ok (s := movedOn .bld { movedOn .cnt s1 with freq := f }) ht
  have hsh := buildTree_shape ht
  let s3 := movedOn .asg
      { movedOn .bld { movedOn .cnt s1 with freq := f } with
        nodes := (buildTree f).1, root := (buildTree f).2, code := codeZero, codesValid := false
        nsym := BitVec.ofNat 8 (leaves f).seq, treeSrc := .built }
  obtain ⟨c, hasg, -, hcodes⟩ := asgStage_ok (s := s3) (n := symCount f) rfl hsh
  refine ⟨{ s3 with code := c, codesValid := true }, ?_, ⟨rfl, rfl, ?_, hcodes, fun k hk => ?_⟩, rfl, rfl, rfl, rfl, rfl, rfl⟩
  · show stagesFrom [.clr, .cnt, .bld, .asg, .ser] s = _
    exact (stagesFrom_ok (s' := s1) rfl).trans ((stagesFrom_ok (st := .cnt) hf).trans
      ((stagesFrom_ok (st := .bld) hbld).trans (stagesFrom_ok (st := .asg) hasg)))
  · show BuiltShape (buildTree f).1 (buildTree f).2 (BitVec.ofNat 8 (leaves f).seq).toNat
    rw [nsym_toNat]; exact hsh
  · have hb : (srcByte s k).toNat < 128 := hsym k hk
    refine ⟨hb, ?_⟩
    have hne : freqAt f (srcByte s k).toNat ≠ 0 := by
      intro h0
      have h1 := hocc _ hb
      rw [h0] at h1
      exact occurrences_ne_zero (s := movedOn .cnt s1) (n := s.srcLen.toNat) hk h1.symm
    obtain ⟨p, hp⟩ := leaf_of_present ht hb hne
    exact (hcodes.bits hsh hp).2.1

/-- The code bits of `n` bytes are at most 127 each (R154). -/
theorem sourceBits_length_le (s : State) : (sourceBits s).length ≤ 127 * s.srcLen.toNat := by
  unfold sourceBits
  generalize s.srcLen.toNat = n
  induction n with
  | zero => simp
  | succ n ih =>
    rw [List.range_succ, List.flatMap_append, List.length_append, List.flatMap_cons, List.flatMap_nil, List.append_nil, codeBits_length]
    have := codeLen_le (codeAt s.code (srcByte s n).toNat)
    omega

/-- SER on a window that is large enough. -/
theorem ser_end {t : State} (h : ReadyToWrite t) (hw : windowsLegal t) (hl : (compressedFile t).length ≤ t.dstCap.toNat) :
    stagesFrom [.ser] t = some (finished (emitted (movedOn .ser t) (compressedFile t))) :=
  stagesFrom_ok (serStage_ok (s := movedOn .ser t) h.built h.valid hw h.bytes hl)

/-! ### Reading back a written file -/

/-- The source window of `u` holds the file that `t` stands for. -/
def holdsFile (u t : State) : Prop :=
  u.srcLen.toNat = (compressedFile t).length ∧ ∀ j < u.srcLen.toNat, srcByte u j = (compressedFile t).getD j 0

section
variable {u t : State}

theorem holds_count (h : holdsFile u t) : fileCount u = t.nsym.toNat := by
  have hl := compressedFile_length t
  unfold fileCount
  rw [h.2 0 (by rw [h.1]; omega)]; rfl

theorem holds_entry (h : holdsFile u t) {e : Nat} (he : e < t.nsym.toNat) :
    entrySym u e = (nodeNo t.nodes ((entryOrder t.nodes t.nsym.toNat).getD e 0)).sym.toNat ∧
      entryField u e = codeAt t.code (entrySym u e) := by
  have hl := compressedFile_length t
  have hu := h.1
  have h0 : entrySym u e = (nodeNo t.nodes ((entryOrder t.nodes t.nsym.toNat).getD e 0)).sym.toNat := by
    unfold entrySym entryOff
    rw [h.2 _ (by omega)]
    have := file_entry t he (j := 0) (by omega)
    rw [Nat.add_zero] at this
    rw [this]
    simp only [entryBytes, List.getD_cons_zero, BitVec.toNat_setWidth]
    have := (nodeAt t.nodes (BitVec.ofNat 15 ((entryOrder t.nodes t.nsym.toNat).getD e 0))).sym.isLt
    unfold nodeNo; omega
  refine ⟨h0, ?_⟩
  rw [h0, ← fieldOfBytes_of_fieldBytes (codeAt t.code _)]
  unfold entryField
  congr 1
  unfold fieldBytes
  refine List.map_congr_left fun j hj => ?_
  rw [List.mem_range] at hj
  unfold entryOff
  rw [h.2 _ (by omega), show 1 + 17 * e + 1 + j = 1 + 17 * e + (j + 1) by omega, file_entry t he (by omega)]
  simp only [entryBytes, List.getD_cons_succ]
  rw [List.getD_eq_getElem _ _ (by simpa using hj)]
  simp [fieldBytes, nodeNo]

theorem entry_leaf_index {e : Nat} (he : e < t.nsym.toNat) : (entryOrder t.nodes t.nsym.toNat).getD e 0 < t.nsym.toNat := by
  rw [List.getD_eq_getElem _ _ (by simpa using he)]
  exact mem_entryOrder.mp (List.getElem_mem _)

theorem holds_code (h : holdsFile u t) (ht : ReadyToWrite t) {e : Nat} (he : e < t.nsym.toNat) : ∃ p, leafAt t.nodes t.root p (entrySym u e) ∧ entryCode u e = p ∧ entryField u e ≠ 0 ∧ 1 ≤ p.length := by
  obtain ⟨h1, h2⟩ := holds_entry h he
  obtain ⟨p, hp⟩ := ht.shape.leaf_reachable (entry_leaf_index he)
  rw [← h1] at hp
  obtain ⟨g1, g2, g3, -⟩ := ht.codes.bits ht.shape hp
  exact ⟨p, hp, by unfold entryCode; rw [h2, g1], by rw [h2]; exact g2, g3⟩

theorem holds_good (h : holdsFile u t) (ht : ReadyToWrite t) : entriesGood u t.nsym.toNat := by
  intro e he
  obtain ⟨p, hp, hc, hf, hl⟩ := holds_code h ht he
  obtain ⟨h1, -⟩ := holds_entry h he
  have hn0 : t.nsym.toNat ≠ 0 := by omega
  have hwk := ht.shape.walkable hn0
  refine ⟨⟨by rw [h1]; have := (nodeNo t.nodes ((entryOrder t.nodes t.nsym.toNat).getD e 0)).sym.isLt; omega, hf, ?_⟩, fun e' he' => ?_⟩
  · rw [← entryCode_length, hc]; omega
  · have he'' : e' < t.nsym.toNat := by omega
    obtain ⟨p', hp', hc', -⟩ := holds_code h ht he''
    obtain ⟨h1', -⟩ := holds_entry h he''
    have hne : entrySym u e' ≠ entrySym u e := by
      rw [h1, h1']
      have hnd := entryOrder_nodup t.nodes t.nsym.toNat
      have hidx : (entryOrder t.nodes t.nsym.toNat).getD e' 0 ≠ (entryOrder t.nodes t.nsym.toNat).getD e 0 := by
        rw [List.getD_eq_getElem _ _ (by simpa using he''), List.getD_eq_getElem _ _ (by simpa using he)]
        intro hc
        exact absurd (hnd.getElem_inj_iff.mp hc) (by omega)
      have a := entry_leaf_index he
      have b := entry_leaf_index he''
      rcases Nat.lt_or_gt_of_ne hidx with hlt | hlt
      · exact (ht.shape.ascending _ _ hlt a).ne
      · exact (ht.shape.ascending _ _ hlt b).ne'
    refine ⟨hne, ?_⟩
    rw [hc, hc']
    refine ⟨fun hpre => hne ?_, fun hpre => hne ?_⟩
    · have := hwk.leaf_not_below hp' hp hpre; subst this
      exact Walkable.leaf_sym_unique hp' hp
    · have := hwk.leaf_not_below hp hp' hpre; subst this
      exact Walkable.leaf_sym_unique hp' hp

theorem holds_header (h : holdsFile u t) (ht : ReadyToWrite t) (hw : srcInRange u) : headerFits u := by
  have hc := holds_count h
  have hl := compressedFile_length t
  have hu := h.1
  have hS := ht.shape.count_le
  exact ⟨hw, by omega, by omega, by omega⟩
end

/-- Every leaf of the tree is one of the entries of its file. -/
theorem leaf_is_entry {u t : State} (h : holdsFile u t) (ht : ReadyToWrite t) {p : List Bool} {k : Nat} (hp : leafAt t.nodes t.root p k) :
    ∃ e < t.nsym.toNat, entrySym u e = k ∧ entryCode u e = p := by
  obtain ⟨n, hf, hk1, hk2⟩ := hp
  have hn0 : t.nsym.toNat ≠ 0 := by
    intro h0
    obtain ⟨e1, e2⟩ := ht.shape.empty h0
    rw [e1] at hk1; simp [nodeAt, Node.freeRecord] at hk1
  have hwk := ht.shape.walkable hn0
  have hlt := hwk.follow_lt hf
  have hk1' := hk1
  rw [← nodeNo_toNat] at hk1'
  have hn : n.toNat < t.nsym.toNat := by
    rcases ht.shape.cases hlt with ⟨g1, -⟩ | ⟨-, l, r, f, g2, -⟩
    · exact g1
    · rw [g2] at hk1'; simp at hk1'
  obtain ⟨e, he, hee⟩ := List.mem_iff_getElem.mp (mem_entryOrder (nodes := t.nodes).mpr hn)
  have he' : e < t.nsym.toNat := by simpa using he
  have h1 := (holds_entry h he').1
  rw [List.getD_eq_getElem _ _ he, hee, nodeNo_toNat, hk2] at h1
  obtain ⟨q, hq, hc, -⟩ := holds_code h ht he'
  rw [h1] at hq
  refine ⟨e, he', h1, ?_⟩
  rw [hc]
  exact hwk.leaf_path_unique (BuiltShape.leafSymsDiffer ht.shape) hq ⟨n, hf, hk1, hk2⟩

end Sys2Proof.Machine
end

