-- ==== Sys2Proof/Laws/PerInstr.lean ====
section
/-! SUPPORT. Statements made command by command: the family StageList (spec/30_encoding.md R80 to R83). -/

namespace Sys2Proof.Laws.StageList

/-- A command is well formed, its word fits the OPCODE field and reads back as it, and its stage list starts with its
first stage, has one to five stages, none twice, and none of them IDLE. -/
def Statement (i : Instr) : Prop :=
  i.wf = true ∧ (encode i).toNat < 256 ∧ (encode i).extractLsb' 0 8 = i.opcode ∧ decode (encode i) = .ok i ∧
    i.stages.head? = some i.firstStage ∧ i.stages.length ≤ 5 ∧ i.stages.Nodup ∧ Stage.idle ∉ i.stages

theorem clr : Statement .clr := by unfold Statement; decide
theorem cnt : Statement .cnt := by unfold Statement; decide
theorem bld : Statement .bld := by unfold Statement; decide
theorem asg : Statement .asg := by unfold Statement; decide
theorem ser : Statement .ser := by unfold Statement; decide
theorem rcn : Statement .rcn := by unfold Statement; decide
theorem dcp : Statement .dcp := by unfold Statement; decide
theorem enc : Statement .enc := by unfold Statement; decide
theorem dec : Statement .dec := by unfold Statement; decide

end Sys2Proof.Laws.StageList
end

