-- ==== Sys2Proof/Laws/Port.lean ====
section
/-! SUPPORT. Register reads (spec/10_state.md R20 to R25): the words of STATUS and CTRL as numbers. -/

namespace Sys2Proof.Machine

theorem toNat_append_add {m n : Nat} (x : BitVec m) (y : BitVec n) :
    (x ++ y).toNat = x.toNat * 2 ^ n + y.toNat := by
  rw [BitVec.toNat_append, Nat.mul_comm, Nat.two_pow_add_eq_or_of_lt y.isLt, Nat.shiftLeft_eq, Nat.mul_comm]

theorem statusWord_toNat (s : State) : (statusWord s).toNat =
    s.busy.toNat + 2 * s.done.toNat + 4 * s.err.toNat + 16 * s.treeSrc.number.toNat + 64 * s.codesValid.toNat +
      256 * s.stage.number.toNat + 65536 * s.op.toNat := by
  unfold statusWord
  simp only [toNat_append_add, BitVec.toNat_ofBool, BitVec.toNat_ofNat]
  omega

/-- A register read with BUSY = 0 (R20). -/
theorem readsAs_of {s : State} {n : Nat} {v : Word} (hb : s.busy = false) (hn : n < 0x400) (hv : regValue s n = v) :
    readsAs s n v := by
  intro rest hs
  rw [step_regRead hs hn, hostRegRead, if_neg (by simp [hb])]
  have : regValue { s with script := rest } n = v := hv
  rw [this]
  by_cases h : n = 0x001
  · rw [if_pos ⟨hb, h⟩, if_pos ⟨h, hb⟩]; rfl
  · rw [if_neg (fun h' => h h'.2), if_neg (fun h' => h h'.1)]

/-- A read of STATUS, with BUSY = 0 or 1 (R23, R25). -/
theorem readsAs_status (s : State) : readsAs s 0x001 (statusWord s) := by
  cases hb : s.busy with
  | false => exact readsAs_of hb (by decide) rfl
  | true =>
    intro rest hs
    rw [step_regRead hs (by decide), hostRegRead, if_neg (by simp), if_neg (by simp [hb]), if_neg (by simp [hb])]; rfl

end Sys2Proof.Machine
end

