-- ==== Sys2Proof/Tests/Slice0.lean ====
section
/-! SUPPORT. Tests of the model on the worked examples of spec/95_test_vectors.md, the smoke tests of WellFormed, the command
words written out from spec/30_encoding.md R81 and R82, and a witness for the hypotheses of every obligation. -/

namespace Sys2Proof.Tests

open Sys2Proof Sys2Proof.Machine

set_option Elab.async false

/-! ### States -/

/-- Bytes from an address upward, in the canonical form. -/
def bytesAt (a : Nat) (bs : List Nat) : Memory :=
  (bs.zipIdx.filter fun b => b.1 ≠ 0).map fun b => (a + b.2, BitVec.ofNat 8 b.1)

/-- A machine about to run stage `st` of command `i`, with the bytes `bs` in its source window at 0x1000 and room for `cap` bytes
at 0x2000. -/
def ready (i : Instr) (st : Stage) (bs : List Nat) (cap : Nat := 64) : State :=
  { State.reset with
    busy := true, op := i.opcode, stage := st
    srcBase := 0x1000, srcLen := BitVec.ofNat 32 bs.length, dstBase := 0x2000, dstCap := BitVec.ofNat 32 cap
    inFlight := [{ srcBase := 0x1000, srcLen := BitVec.ofNat 32 bs.length, dstBase := 0x2000, dstCap := BitVec.ofNat 32 cap }]
    mem := bytesAt 0x1000 bs }

/-- The FREQ file of "aaab" (T1). -/
def freqAaab : Vector Word 128 := (freqZero.set 0x61 3).set 0x62 1

/-- The tree of "aaab" (T2). -/
def treeAaab : List Node := [mkLeaf 0x61 3, mkLeaf 0x62 1, mkInternal 1 0 4]

/-- The codes of "aaab" (T17). -/
def codeAaab : Vector CodeField 128 := (codeZero.set 0x61 3).set 0x62 2

/-- The state of ASG on the tree of "aaab". -/
def readyAsg : State :=
  { ready .asg .asg [] with freq := freqAaab, nodes := treeAaab, root := 2, nsym := 2, treeSrc := .built }

/-- The state of SER with the tree and the codes of "aaab" and the source `bs`. -/
def readySer (bs : List Nat) (cap : Nat := 64) : State :=
  { ready .ser .ser bs cap with
    freq := freqAaab, nodes := treeAaab, root := 2, nsym := 2, treeSrc := .built, code := codeAaab, codesValid := true }

/-- An entry of a file whose code field fits its last byte (R94). -/
def entry (sym field : Nat) : List Nat := sym :: List.replicate 15 0 ++ [field]

/-- The compressed file of "aaab" (T20). -/
def fileAaab : List Nat := 2 :: entry 0x62 2 ++ entry 0x61 3 ++ [0xE0, 4]

/-- The state of DCP after RCN on a file, with the tree and codes that T26 gives for `fileAaab`. -/
def readyDcp (bs : List Nat) (cap : Nat := 64) : State :=
  { ready .dcp .dcp bs cap with
    nodes := [mkInternal 1 2 0, mkLeaf 0x62 0, mkLeaf 0x61 0], root := 0, nsym := 2, code := codeAaab
    treeSrc := .recon, codesValid := true }

/-- The state that a step leads to; `s` itself where there is none. -/
def after (o : Host.Outcome State Fault Refusal) (s : State) : State :=
  match o with
  | .next t => t
  | _ => s

/-- The bytes of memory from an address upward. -/
def peek (s : State) (a n : Nat) : List Nat := (List.range n).map fun k => (memRead s.mem (a + k)).toNat

/-! ### WellFormed -/

theorem test_wf_refuses_read_of_0x400 : Event.wf (.regRead 0x400) = false := by decide
theorem test_wf_refuses_write_of_0x400 : Event.wf (.regWrite 0x400 0) = false := by decide
theorem test_wf_takes_the_last_register : Event.wf (.regRead 0x3FF) = true := by decide
theorem test_step_refuses_ill_formed :
    step { State.reset with script := [.regRead 0x400] } = .refused .noSuchRegister := by rfl

/-! ### Command words, bit by bit (R81, R82) -/

theorem test_decode_clr : decode 0b000000000000000000000000_00000001#32 = .ok .clr := by rfl
theorem test_decode_cnt : decode 0b000000000000000000000000_00000010#32 = .ok .cnt := by rfl
theorem test_decode_bld : decode 0b000000000000000000000000_00000011#32 = .ok .bld := by rfl
theorem test_decode_asg : decode 0b000000000000000000000000_00000100#32 = .ok .asg := by rfl
theorem test_decode_ser : decode 0b000000000000000000000000_00000101#32 = .ok .ser := by rfl
theorem test_decode_rcn : decode 0b000000000000000000000000_00000110#32 = .ok .rcn := by rfl
theorem test_decode_dcp : decode 0b000000000000000000000000_00000111#32 = .ok .dcp := by rfl
theorem test_decode_enc : decode 0b000000000000000000000000_00010000#32 = .ok .enc := by rfl
theorem test_decode_dec : decode 0b000000000000000000000000_00010001#32 = .ok .dec := by rfl
theorem test_decode_refuses_0x08 : decode 0x00000008#32 = .error .noSuchOpcode := by rfl
theorem test_decode_refuses_high_bits : decode 0x80000001#32 = .error .zeroFieldNotZero := by rfl
theorem test_table_word : decodeTableWord 32 0x11 = some .dec := by decide
theorem test_fetch_word_runs_next :
    (after (step (State.reset.withFetchWord 32 0x01)) State.reset).done = true := by decide

/-! ### The commands, on the vectors of spec/95_test_vectors.md -/

/-- T40: CLR leaves the fault state; STATUS = 0x00010002. -/
theorem test_clr_leaves_fault :
    (after (exec .clr { ready .clr .clr [] with err := true, errCode := 6, errInfo := 0x12 }) State.reset).err = false := by
  decide
theorem test_clr_status :
    (statusWord (after (exec .clr { ready .clr .clr [] with err := true, errCode := 6 }) State.reset)).toNat = 0x00010002 := by
  decide

/-- T1. -/
theorem test_cnt_aaab : (after (exec .cnt (ready .cnt .cnt [0x61, 0x61, 0x61, 0x62])) State.reset).freq = freqAaab := by
  decide +kernel
/-- T1b, and T39 (a). -/
theorem test_cnt_faults :
    (let t := after (exec .cnt (ready .cnt .cnt [0x61, 0x62, 0x80, 0x63])) State.reset;
      ((statusWord t).toNat, t.errCode, t.errInfo) = (0x00020004, 2, 2)) ∧
    (let t := after (exec .cnt { ready .cnt .cnt [] with srcBase := 0xFFFFFFFE, srcLen := 3 }) State.reset;
      ((statusWord t).toNat, t.errCode, t.errInfo) = (0x00020004, 3, 0)) := by decide +kernel

/-- T2. -/
theorem test_bld_aaab :
    let t := after (exec .bld { ready .bld .bld [] with freq := freqAaab }) State.reset
    (t.nodes, t.root, t.nsym) = (treeAaab, 2, 2) := by decide +kernel
/-- T15. -/
theorem test_bld_overflow :
    (after (exec .bld { ready .bld .bld [] with freq := (freqZero.set 0 0x80000000).set 1 0x80000000 }) State.reset).errCode = 8 := by
  decide +kernel

/-- T17. -/
theorem test_asg_aaab : (after (exec .asg readyAsg) State.reset).code = codeAaab := by decide +kernel
/-- T18. -/
theorem test_asg_without_tree :
    let t := after (exec .asg (ready .asg .asg [])) State.reset
    (t.errCode, t.errInfo) = (5, 4) := by decide +kernel

/-- T20. -/
theorem test_ser_aaab :
    peek (after (exec .ser (readySer [0x61, 0x61, 0x61, 0x62])) State.reset) 0x2000 37 = fileAaab := by decide +kernel
/-- T24: a source byte without a code. -/
theorem test_ser_no_code :
    let t := after (exec .ser (readySer [0x61, 0x61, 0x63, 0x62])) State.reset
    (t.errCode, t.errInfo) = (7, 2) := by decide +kernel

/-- T26. -/
theorem test_rcn_aaab :
    let t := after (exec .rcn (ready .rcn .rcn fileAaab)) State.reset
    (t.nodes, t.root, t.code) = ((readyDcp fileAaab).nodes, 0, codeAaab) := by decide +kernel
/-- T27: the symbol 0x62 twice. -/
theorem test_rcn_repeated_symbol :
    let t := after (exec .rcn (ready .rcn .rcn (2 :: entry 0x62 2 ++ entry 0x62 3 ++ [0xE0, 4]))) State.reset
    (t.errCode, t.errInfo) = (1, 0x12) := by decide +kernel

/-- T31. -/
theorem test_dcp_aaab :
    peek (after (exec .dcp (readyDcp fileAaab)) State.reset) 0x2000 4 = [0x61, 0x61, 0x61, 0x62] := by decide +kernel
/-- T32: pad count 8. -/
theorem test_dcp_pad_count :
    (after (exec .dcp (readyDcp (2 :: entry 0x62 2 ++ entry 0x61 3 ++ [0xE0, 8]))) State.reset).errInfo = 0x24 := by
  decide +kernel

/-- T37: after the stage CNT of ENC, STATUS shows the stage BLD. -/
theorem test_enc_moves_on :
    (statusWord (after (exec .enc (ready .enc .cnt [0x61, 0x61, 0x61, 0x62])) State.reset)).toNat = 0x00100301 := by
  decide +kernel
/-- T20, T37: the last stage of ENC. -/
theorem test_enc_ends :
    (statusWord (after (exec .enc { readySer [0x61, 0x61, 0x61, 0x62] with op := 0x10 }) State.reset)).toNat = 0x00100052 := by
  decide +kernel

/-- T37: after the stage RCN of DEC, STATUS shows the stage DCP. -/
theorem test_dec_moves_on :
    (statusWord (after (exec .dec (ready .dec .rcn fileAaab)) State.reset)).toNat = 0x00110761 := by decide +kernel
/-- T35: a destination window of 3 bytes. -/
theorem test_dec_overflow :
    let t := after (exec .dec { readyDcp fileAaab 3 with op := 0x11 }) State.reset
    (t.errCode, t.errInfo) = (4, 3) := by decide +kernel

/-! ### Witnesses: for every statement with hypotheses, a state and operands that meet all of them -/

/-- A state in the fault state (R230). -/
def faulted : State := { State.reset with err := true, errCode := 6, errInfo := 0x12 }

/-- The state BLD leaves for the frequencies of "aaab". -/
def afterBld : State :=
  { State.reset with
    freq := freqAaab, nodes := (buildTree freqAaab).1, root := (buildTree freqAaab).2, code := codeZero, codesValid := false
    nsym := BitVec.ofNat 8 (leaves freqAaab).seq, treeSrc := .built }

theorem afterBld_tree : TreeLegal afterBld :=
  StageDone.tree (s := { State.reset with freq := freqAaab }) (StageDone.bld (by decide +kernel))
    (TreeLegal.cleared rfl rfl rfl rfl rfl rfl)

theorem readyAsg_tree : TreeLegal readyAsg :=
  TreeLegal.of_eq afterBld_tree rfl (by decide +kernel) (by decide +kernel) (by decide +kernel) (by decide +kernel) rfl

/-- What a stage gives, from a check the kernel evaluates. -/
theorem ok_of_check {α : Type} [DecidableEq α] {x : Except Stop α} {t : α}
    (h : (match x with | .ok a => decide (a = t) | .error _ => false) = true) : x = .ok t := by
  cases x with
  | ok a => exact congrArg _ (of_decide_eq_true h)
  | error e => cases h

theorem readySer_tree (bs : List Nat) (cap : Nat) : TreeLegal (readySer bs cap) := by
  have h : treeCodes readyAsg.nodes readyAsg.root = .ok codeAaab := ok_of_check (by decide +kernel)
  exact TreeLegal.of_eq ((StageDone.asg codeAaab rfl h).tree readyAsg_tree) rfl rfl rfl rfl rfl rfl

/-- RCN on the file of "aaab" gives the tree of `readyDcp`. -/
theorem rcn_fileAaab :
    stageOf .rcn (ready .rcn .rcn fileAaab) = .ok { readyDcp fileAaab with op := 6, stage := .rcn } :=
  ok_of_check (by decide +kernel)

theorem readyDcp_tree (bs : List Nat) (cap : Nat) : TreeLegal (readyDcp bs cap) :=
  TreeLegal.of_eq ((stageDone rcn_fileAaab).tree (TreeLegal.cleared rfl rfl rfl rfl rfl rfl)) rfl rfl rfl rfl rfl rfl

theorem accepted_legal (i : Instr) : Legal (accept i State.reset) := by
  refine ⟨⟨List.Pairwise.nil, fun c hc => by cases hc⟩, ⟨.inr ⟨i, rfl⟩, fun _ => ⟨i, rfl, firstStage_mem i⟩, ?_⟩,
    ⟨fun _ => ⟨rfl, rfl⟩, ?_, ?_, ?_, ?_⟩, TreeLegal.cleared rfl rfl rfl rfl rfl rfl, fun _ => rfl⟩ <;>
    simp [accept, State.reset]

/-- A state whose next stage faults: CNT on a byte above 127 (T1b). -/
def cntBad : State := ready .cnt .cnt [0x61, 0x62, 0x80, 0x63]

/-- Two more bytes of a run of BLD: frequencies whose sum is 2^32 (T15). -/
def bldBad : State := { ready .bld .bld [] with freq := (freqZero.set 0 0x80000000).set 1 0x80000000 }

theorem next_of_check {o : Host.Outcome State Fault Refusal} {p : State → Bool}
    (h : (match o with | .next t => p t | _ => false) = true) : ∃ t, o = .next t ∧ p t = true := by
  cases o with
  | next t => exact ⟨t, rfl, h⟩
  | fault => cases h
  | refused => cases h

theorem witness_DecodeAcceptsExactlyNineWords : ∀ i : Instr, i.wf = true := fun i => by cases i <;> rfl

/-- No illegal word is a command; the least, the ones beside the legal ranges, and one with a high bit. -/
theorem witness_IllegalWordsRaiseIllegalCommandError :
    (∀ w ∈ [0x00000000#32, 0x00000008#32, 0x0000000F#32, 0x00000012#32, 0x000000FF#32, 0x00000101#32, 0x80000001#32],
      ∀ i, decode w ≠ .ok i) ∧
    ∃ s : State, s.busy = false ∧ s.err = false ∧ s.script = [.regWrite 0x000 0] := by
  refine ⟨?_, { State.reset with script := [.regWrite 0x000 0] }, rfl, rfl, rfl⟩
  intro w hw
  fin_cases hw <;> exact fun i h => by cases h

theorem witness_StepRunsTheCommandInOp :
    let s := ready .cnt .cnt []
    s.busy = true ∧ decode (s.op.setWidth 32) = .ok .cnt ∧ s.script = [] ∧
      (∃ u : State, u.busy = true ∧ decode (u.op.setWidth 32) = .ok .cnt ∧ u.script = [.turn]) ∧
      (∃ u : State, u.busy = true ∧ decode (u.op.setWidth 32) = .ok .cnt ∧ u.script = [.wait]) ∧
      ∃ u : State, u.busy = true ∧ decode (u.op.setWidth 32) = .ok .cnt ∧ u.script = [.waitIrq] ∧ irq u = false :=
  ⟨rfl, rfl, rfl, ⟨{ ready .cnt .cnt [] with script := [.turn] }, rfl, rfl, rfl⟩,
    ⟨{ ready .cnt .cnt [] with script := [.wait] }, rfl, rfl, rfl⟩,
    ⟨{ ready .cnt .cnt [] with script := [.waitIrq] }, rfl, rfl, rfl, rfl⟩⟩

theorem witness_IdleKeepsState : State.reset.busy = false ∧ State.reset.script = [] := ⟨rfl, rfl⟩

/-- Used by every statement about a stage that completes: the first stage of ENC (not the last of the list), and CLR (the last). -/
theorem witness_SequencerFollowsTheStageList :
    (∃ t, exec .enc (ready .enc .clr []) = .next t ∧ t.err = false) ∧ (∃ t, exec .clr (ready .clr .clr []) = .next t ∧ t.err = false) ∧
      State.reset.busy = false := by
  refine ⟨?_, ?_, rfl⟩
  · obtain ⟨t, h, he⟩ := next_of_check (o := exec .enc (ready .enc .clr [])) (p := fun t => !t.err) (by decide +kernel)
    exact ⟨t, h, by simpa using he⟩
  · obtain ⟨t, h, he⟩ := next_of_check (o := exec .clr (ready .clr .clr [])) (p := fun t => !t.err) (by decide +kernel)
    exact ⟨t, h, by simpa using he⟩

theorem witness_ResetRestoresEveryRegister :
    ({ State.reset with script := [.reset] } : State).script = [.reset] ∧
      (∃ s : State, s.script = [.reset] ∧ ¬ (s.busy = true ∧ (s.stage = .ser ∨ s.stage = .dcp))) ∧
      ∃ s : State, s.script = [.reset] ∧ s.busy = true ∧ s.stage = .ser :=
  ⟨rfl, ⟨{ State.reset with script := [.reset] }, rfl, by decide⟩,
    ⟨{ ready .ser .ser [] with script := [.reset] }, rfl, rfl, rfl⟩⟩

/-- For the five statements on what every step keeps, and for LegalStatesNeverGetStuck. -/
theorem witness_StepKeeps : ∃ s t : State, Legal s ∧ step s = .next t := by
  obtain ⟨t, h, -⟩ := next_of_check (o := step (accept .clr State.reset)) (p := fun _ => true) (by decide +kernel)
  exact ⟨_, t, accepted_legal .clr, h⟩

theorem witness_CommandEndsWithinItsStages :
    let s := accept .enc State.reset
    Legal s ∧ s.busy = true ∧ s.err = false ∧ s.op = Instr.enc.opcode ∧ s.script = [] := ⟨accepted_legal .enc, rfl, rfl, rfl, rfl⟩

theorem witness_ClrClearsSessionAndFault : atStage .clr { ready .clr .clr [] with err := true, errCode := 6 } := ⟨rfl, rfl⟩

theorem witness_CntCountsTheSourceWindow :
    let s := ready .cnt .cnt [0x61, 0x61, 0x61, 0x7F]
    atStage .cnt s ∧ srcInRange s ∧ allSymbols s := ⟨⟨rfl, rfl⟩, by decide +kernel, by decide +kernel⟩

theorem witness_CntStopsAtTheFirstUnsupportedByte :
    Stage.cnt ∈ Instr.enc.stages ∧ atStage .cnt cntBad ∧ srcInRange cntBad ∧ 2 < cntBad.srcLen.toNat ∧
      (∀ j < 2, (srcByte cntBad j).toNat < 128) ∧ (srcByte cntBad 2).toNat = 128 :=
  ⟨by decide, ⟨rfl, rfl⟩, by decide +kernel, by decide +kernel, by decide +kernel, by decide +kernel⟩

theorem witness_BldRefusesFrequencyOverflow :
    Stage.bld ∈ Instr.bld.stages ∧ atStage .bld bldBad ∧ freqTotal bldBad.freq = 2 ^ 32 :=
  ⟨by decide, ⟨rfl, rfl⟩, by decide +kernel⟩

/-- For BldBuildsATree and BldMakesTheLeaves, at the greatest sum. -/
theorem witness_BldBuildsATree :
    let s := { ready .bld .bld [] with freq := (freqZero.set 0 0x80000000).set 1 0x7FFFFFFF }
    atStage .bld s ∧ freqTotal s.freq = 2 ^ 32 - 1 ∧ symCount s.freq = 2 := ⟨⟨rfl, rfl⟩, by decide +kernel, by decide +kernel⟩

/-- For BldMakesTheLeaves (no symbol, one symbol, two) and BldMergesTheTwoLeast. -/
theorem witness_BldMakesTheLeaves :
    ∀ x ∈ [(freqZero, 0), (freqZero.set 0x61 4, 1), (freqAaab, 2)],
      let s := { ready .bld .bld [] with freq := x.1 }
      atStage .bld s ∧ freqTotal s.freq < 2 ^ 32 ∧ symCount s.freq = x.2 ∧ ∃ t, exec .bld s = .next t := by
  intro x hx
  have h : ∀ f : Vector Word 128, freqTotal f < 2 ^ 32 → ∃ t, exec .bld { ready .bld .bld [] with freq := f } = .next t :=
    fun f hf => ⟨_, exec_at (st := .bld) ⟨rfl, rfl⟩ (by decide) (bldStage_ok hf)⟩
  fin_cases hx
  all_goals exact ⟨⟨rfl, rfl⟩, by decide +kernel, by decide +kernel, h _ (by decide +kernel)⟩

/-- For AsgWritesThePathOfEachLeaf and AsgCodesArePrefixFree. -/
theorem witness_AsgWritesThePathOfEachLeaf :
    atStage .asg readyAsg ∧ readyAsg.treeSrc = .built ∧ TreeLegal readyAsg ∧ ∃ t, exec .asg readyAsg = .next t := by
  obtain ⟨t, h, -⟩ := next_of_check (o := exec .asg readyAsg) (p := fun _ => true) (by decide +kernel)
  exact ⟨⟨rfl, rfl⟩, rfl, readyAsg_tree, t, h⟩

/-- At the least capacity that is enough. -/
theorem witness_SerWritesTheCompressedFile :
    let s := readySer [0x61, 0x61, 0x61, 0x62] 37
    atStage .ser s ∧ s.treeSrc = .built ∧ s.codesValid = true ∧ windowsLegal s ∧ (∀ k < s.srcLen.toNat, encodable s k) ∧
      (compressedFile s).length = s.dstCap.toNat :=
  ⟨⟨rfl, rfl⟩, rfl, rfl, by decide +kernel, by decide +kernel, by decide +kernel⟩

/-- A byte without a code with the output just fitting, the output one byte too long before a byte, and in the end. -/
theorem witness_SerFaultsInOrder :
    (let s := readySer [0x61, 0x63] 35;
      Stage.ser ∈ Instr.ser.stages ∧ atStage .ser s ∧ windowsLegal s ∧ 1 < s.srcLen.toNat ∧ (∀ j < 1, encodable s j) ∧ ¬ encodable s 1 ∧
        (headerBytes s).length + (bitsFrom s 0 1).length / 8 = s.dstCap.toNat) ∧
    (let s := readySer [0x61, 0x63] 34;
      atStage .ser s ∧ windowsLegal s ∧ (∀ j < 1, encodable s j) ∧
        s.dstCap.toNat + 1 = (headerBytes s).length + (bitsFrom s 0 1).length / 8) ∧
    (let s := readySer [0x61, 0x61, 0x61, 0x62] 36;
      atStage .ser s ∧ windowsLegal s ∧ (∀ k < s.srcLen.toNat, encodable s k) ∧ s.dstCap.toNat + 1 = (compressedFile s).length) := by
  refine ⟨⟨by decide, ⟨rfl, rfl⟩, ?_, ?_, ?_, ?_, ?_⟩, ⟨⟨rfl, rfl⟩, ?_, ?_, ?_⟩, ⟨rfl, rfl⟩, ?_, ?_, ?_⟩ <;> decide +kernel

theorem witness_EntriesComeInPriorityOrder : BuiltShape treeAaab 2 2 := readyAsg_tree.1

theorem witness_CodeFieldRoundTrip :
    (List.replicate 127 true).length ≤ 127 ∧ (1 : CodeField) ≠ 0 ∧ (BitVec.allOnes 128 : CodeField) ≠ 0 ∧
      (List.replicate 16 (0xFF : Byte)).length = 16 :=
  ⟨by simp, by decide, by decide, by simp⟩

theorem witness_PayloadLengthIsTheWeightedSum : allSymbols (readySer [0x61, 0x61, 0x61, 0x62]) := by decide +kernel

theorem witness_RcnRebuildsTheTree :
    let s := ready .rcn .rcn fileAaab
    atStage .rcn s ∧ headerFits s ∧ entriesGood s (fileCount s) := ⟨⟨rfl, rfl⟩, by decide +kernel, by decide +kernel⟩

/-- One byte; a count of 129; a file one byte too short for two entries. -/
theorem witness_RcnChecksTheHeader :
    Stage.rcn ∈ Instr.dec.stages ∧
    (let s := ready .rcn .rcn [0]; atStage .rcn s ∧ srcInRange s ∧ s.srcLen.toNat = 1) ∧
    (let s := ready .rcn .rcn [129, 0]; atStage .rcn s ∧ srcInRange s ∧ s.srcLen.toNat = 2 ∧ fileCount s = 129) ∧
    (let s := ready .rcn .rcn (fileAaab.take 35);
      atStage .rcn s ∧ srcInRange s ∧ fileCount s = 2 ∧ s.srcLen.toNat + 1 = 17 * fileCount s + 2) := by
  refine ⟨by decide, ⟨⟨rfl, rfl⟩, ?_, ?_⟩, ⟨⟨rfl, rfl⟩, ?_, ?_, ?_⟩, ⟨rfl, rfl⟩, ?_, ?_, ?_⟩ <;> decide +kernel

/-- A file whose second entry is `e`. -/
def secondEntry (e : List Nat) : State := ready .rcn .rcn (2 :: entry 0x62 2 ++ e ++ [0, 0])

theorem witness_RcnChecksEachEntry :
    (∀ e ∈ [entry 0x80 3, entry 0x61 0, entry 0x61 1, entry 0x62 3, entry 0x61 5],
      atStage .rcn (secondEntry e) ∧ headerFits (secondEntry e) ∧ 1 < fileCount (secondEntry e) ∧ entriesGood (secondEntry e) 1) ∧
    entrySym (secondEntry (entry 0x80 3)) 1 = 128 ∧
    (let s := secondEntry (entry 0x61 0); entrySym s 1 < 128 ∧ entryField s 1 = 0) ∧
    (let s := secondEntry (entry 0x61 1); entrySym s 1 < 128 ∧ entryField s 1 = 1) ∧
    (let s := secondEntry (entry 0x62 3); entryReadable s 1 ∧ entrySym s 0 = entrySym s 1) ∧
    (let s := secondEntry (entry 0x61 5);
      entryReadable s 1 ∧ (∀ e' < 1, entrySym s e' ≠ entrySym s 1) ∧ entryCode s 0 <+: entryCode s 1) := by
  refine ⟨?_, by decide +kernel, by decide +kernel, by decide +kernel, by decide +kernel, by decide +kernel⟩
  intro e he
  fin_cases he
  all_goals exact ⟨⟨rfl, rfl⟩, by decide +kernel, by decide +kernel, by decide +kernel⟩

theorem witness_RcnIgnoresEntryOrder :
    let s := ready .rcn .rcn fileAaab
    let s' := ready .rcn .rcn (2 :: entry 0x61 3 ++ entry 0x62 2 ++ [0xE0, 4])
    atStage .rcn s ∧ atStage .rcn s' ∧ headerFits s ∧ headerFits s' ∧ fileCount s' = fileCount s ∧
      ((List.range (fileCount s)).map fun e => (entrySym s e, entryField s e)).Perm
        ((List.range (fileCount s')).map fun e => (entrySym s' e, entryField s' e)) ∧
      ∃ t, exec .rcn s = .next t ∧ t.done = true :=
  ⟨⟨rfl, rfl⟩, ⟨rfl, rfl⟩, by decide +kernel, by decide +kernel, by decide +kernel, by decide +kernel,
    next_of_check (p := fun t => t.done) (by decide +kernel)⟩

theorem codes_aaab : codesOf (readyDcp fileAaab).nodes 0 [true, true, true, false] [0x61, 0x61, 0x61, 0x62] :=
  ⟨[[true], [true], [true], [false]], rfl,
    .cons ⟨2, rfl, rfl, rfl⟩ (.cons ⟨2, rfl, rfl, rfl⟩ (.cons ⟨2, rfl, rfl, rfl⟩ (.cons ⟨1, rfl, rfl, rfl⟩ .nil)))⟩

/-- At the least capacity that is enough. -/
theorem witness_DcpDecodesThePayload :
    let s := readyDcp fileAaab 4
    atStage .dcp s ∧ ReconShape s.nodes s.root s.nsym.toNat ∧ s.treeSrc = .recon ∧ windowsLegal s ∧ payloadFits s ∧
      codesOf s.nodes s.root (walkedBits s) [0x61, 0x61, 0x61, 0x62] ∧ [0x61, 0x61, 0x61, 0x62].length = s.dstCap.toNat := by
  refine ⟨⟨rfl, rfl⟩, (readyDcp_tree _ _).1, rfl, by decide +kernel, by decide +kernel, ?_, by decide +kernel⟩
  rw [show walkedBits (readyDcp fileAaab 4) = [true, true, true, false] by decide +kernel]
  exact codes_aaab

/-- One byte too short; a pad count of 8; no payload and a pad count of 1. -/
theorem witness_DcpChecksLengthAndPadCount :
    Stage.dcp ∈ Instr.dec.stages ∧
    (let s := readyDcp (fileAaab.take 35); atStage .dcp s ∧ windowsLegal s ∧ s.srcLen.toNat + 1 = 17 * s.nsym.toNat + 2) ∧
    (let s := readyDcp (fileAaab.take 36 ++ [8]); atStage .dcp s ∧ windowsLegal s ∧ 17 * s.nsym.toNat + 2 ≤ s.srcLen.toNat ∧ filePad s = 8) ∧
    (let s := readyDcp (fileAaab.take 35 ++ [1]); atStage .dcp s ∧ windowsLegal s ∧ 17 * s.nsym.toNat + 2 = s.srcLen.toNat ∧ filePad s = 1) := by
  refine ⟨by decide, ⟨⟨rfl, rfl⟩, ?_, ?_⟩, ⟨⟨rfl, rfl⟩, ?_, ?_, ?_⟩, ⟨rfl, rfl⟩, ?_, ?_, ?_⟩ <;> decide +kernel

/-- The file `01 61 <field 5> 40 05` (a code "01", and the bits 0 1 0), after RCN. -/
def readyDeep (payload pad : Nat) : State :=
  { ready .dcp .dcp (1 :: entry 0x61 5 ++ [payload, pad]) with
    nodes := [mkInternal 1 Config.nil 0, mkInternal Config.nil 2 0, mkLeaf 0x61 0], root := 0, nsym := 1
    code := codeZero.set 0x61 5, treeSrc := .recon, codesValid := true }

theorem readyDeep_tree (payload pad : Nat) : TreeLegal (readyDeep payload pad) := by
  have h : stageOf .rcn (ready .rcn .rcn (1 :: entry 0x61 5 ++ [0, 0])) =
      .ok { readyDeep 0 0 with op := 6, stage := .rcn } := ok_of_check (by decide +kernel)
  exact TreeLegal.of_eq ((stageDone h).tree (TreeLegal.cleared rfl rfl rfl rfl rfl rfl)) rfl rfl rfl rfl rfl rfl

theorem codes_deep : codesOf (readyDeep 0 0).nodes 0 [false, true] [0x61] :=
  ⟨[[false, true]], rfl, .cons ⟨2, rfl, rfl, rfl⟩ .nil⟩

/-- A bit that leads to a missing child (the payload 0 1 1); a payload that ends inside a code (0 1 0); a window that is too
small. -/
theorem witness_DcpFindsTheFaultOfThePayload :
    Stage.dcp ∈ Instr.dcp.stages ∧
    (let s := readyDeep 0x60 5;
      atStage .dcp s ∧ ReconShape s.nodes s.root s.nsym.toNat ∧ s.treeSrc = .recon ∧ windowsLegal s ∧ payloadFits s ∧
        walkedBits s = [false, true] ++ ([] ++ true :: []) ∧ codesOf s.nodes s.root [false, true] [0x61] ∧ [0x61].length ≤ s.dstCap.toNat ∧
        follow s.nodes [] s.root = some 0 ∧ (nodeAt s.nodes 0).kind = .internal ∧ childOf (nodeAt s.nodes 0) true = Config.nil) ∧
    (let s := readyDeep 0x40 5;
      atStage .dcp s ∧ ReconShape s.nodes s.root s.nsym.toNat ∧ s.treeSrc = .recon ∧ windowsLegal s ∧ payloadFits s ∧
        walkedBits s = [false, true] ++ [false] ∧ codesOf s.nodes s.root [false, true] [0x61] ∧
        follow s.nodes [false] s.root = some 1 ∧ (nodeAt s.nodes 1).kind = .internal) ∧
    (let s := readyDcp fileAaab 3;
      atStage .dcp s ∧ ReconShape s.nodes s.root s.nsym.toNat ∧ s.treeSrc = .recon ∧ windowsLegal s ∧ payloadFits s ∧
        walkedBits s = [true, true, true, false] ++ [] ∧ codesOf s.nodes s.root [true, true, true, false] [0x61, 0x61, 0x61, 0x62] ∧
        s.dstCap.toNat < [0x61, 0x61, 0x61, 0x62].length) :=
  ⟨by decide,
    ⟨⟨rfl, rfl⟩, (readyDeep_tree _ _).1, rfl, by decide +kernel, by decide +kernel, by decide +kernel, codes_deep, by decide +kernel,
      rfl, rfl, rfl⟩,
    ⟨⟨rfl, rfl⟩, (readyDeep_tree _ _).1, rfl, by decide +kernel, by decide +kernel, by decide +kernel, codes_deep, rfl, rfl⟩,
    ⟨⟨rfl, rfl⟩, (readyDcp_tree _ _).1, rfl, by decide +kernel, by decide +kernel, by decide +kernel, codes_aaab, by decide +kernel⟩⟩

/-- The clauses of ENC, stage by stage, on the states of the single commands. -/
theorem witness_EncCompletesStageByStage :
    atStage .clr (ready .enc .clr []) ∧
    (atStage .cnt (ready .enc .cnt [0x61, 0x7F]) ∧ srcInRange (ready .enc .cnt [0x61, 0x7F]) ∧ allSymbols (ready .enc .cnt [0x61, 0x7F])) ∧
    (atStage .bld { ready .enc .bld [] with freq := freqAaab } ∧ freqTotal freqAaab < 2 ^ 32) ∧
    (atStage .asg { readyAsg with op := 0x10 } ∧ TreeLegal { readyAsg with op := 0x10 }) ∧
    (let s := { readySer [0x61, 0x61, 0x61, 0x62] 37 with op := 0x10 };
      atStage .ser s ∧ windowsLegal s ∧ (∀ k < s.srcLen.toNat, encodable s k) ∧ (compressedFile s).length = s.dstCap.toNat) :=
  ⟨⟨rfl, rfl⟩, ⟨⟨rfl, rfl⟩, by decide +kernel, by decide +kernel⟩, ⟨⟨rfl, rfl⟩, by decide +kernel⟩,
    ⟨⟨rfl, rfl⟩, TreeLegal.of_eq readyAsg_tree rfl rfl rfl rfl rfl rfl⟩, ⟨rfl, rfl⟩, by decide +kernel, by decide +kernel, by decide +kernel⟩

/-- The clauses of DEC, stage by stage; the one of DCP is `witness_DcpDecodesThePayload` with OP = 0x11. -/
theorem witness_DecCompletesStageByStage :
    atStage .clr (ready .dec .clr []) ∧
    (atStage .rcn (ready .dec .rcn fileAaab) ∧ headerFits (ready .dec .rcn fileAaab) ∧ entriesGood (ready .dec .rcn fileAaab) 2 ∧
      fileCount (ready .dec .rcn fileAaab) = 2) ∧
    (let s := { readyDcp fileAaab 4 with op := 0x11 };
      atStage .dcp s ∧ ReconShape s.nodes s.root s.nsym.toNat ∧ s.treeSrc = .recon ∧ windowsLegal s ∧ payloadFits s ∧ walkedBits s = [true, true, true, false] ∧
        codesOf s.nodes s.root [true, true, true, false] [0x61, 0x61, 0x61, 0x62]) :=
  ⟨⟨rfl, rfl⟩, ⟨⟨rfl, rfl⟩, by decide +kernel, by decide +kernel, by decide +kernel⟩, ⟨rfl, rfl⟩,
    (readyDcp_tree fileAaab 4).1, rfl, by decide +kernel, by decide +kernel, by decide +kernel, codes_aaab⟩

/-- For EncEqualsItsParts and DecEqualsItsParts. -/
theorem witness_EncEqualsItsParts : State.reset.busy = false ∧ State.reset.err = false := ⟨rfl, rfl⟩

/-- A host about to encode "aaab", with exactly the room of R172. -/
def encHost : State :=
  { ready .clr .idle [0x61, 0x61, 0x61, 0x62] 2242 with busy := false, op := 0, inFlight := [], script := [cmd .enc, .wait] }

theorem witness_EncCompletesWithEnoughRoom :
    encHost.busy = false ∧ encHost.err = false ∧ encHost.script = [cmd .enc, .wait] ∧ windowsLegal encHost ∧ allSymbols encHost ∧
      2178 + (127 * encHost.srcLen.toNat + 7) / 8 = encHost.dstCap.toNat :=
  ⟨rfl, rfl, rfl, by decide +kernel, by decide +kernel, by decide +kernel⟩

/-- ENC run to its end, and a host about to decode its output into exactly as many bytes as ENC read. -/
theorem witness_DecodeOfEncodeIsTheInput : ∃ s t u : State,
    s.busy = false ∧ s.err = false ∧ s.script = [cmd .enc, .wait] ∧ allSymbols s ∧
    runsTo s t ∧ t.script = [] ∧ t.busy = false ∧ t.done = true ∧
    u.busy = false ∧ u.err = false ∧ u.script = [cmd .dec, .wait] ∧ windowsLegal u ∧
    u.srcLen = t.dstLen ∧ (∀ j < t.dstLen.toNat, srcByte u j = memRead t.mem (t.dstBase.toNat + j)) ∧
    s.srcLen.toNat = u.dstCap.toNat ∧ u.srcLen ≠ 0 := by
  obtain ⟨q, h1, hq, hm, hw, -⟩ := enc_before_ser (s := accept .enc { encHost with script := [.wait] }) (by decide +kernel)
    (by decide +kernel)
  simp only [windowsOf, Windows.mk.injEq] at hw
  obtain ⟨w1, w2, w3, w4⟩ := hw
  have hwq : windowsLegal q := by
    unfold windowsLegal srcInRange dstInRange windowsOverlap
    rw [w1, w2, w3, w4]; decide +kernel
  have hl : (compressedFile q).length ≤ 2242 := by
    have h3 := compressedFile_length q
    have h4 := hq.shape.count_le
    have h5 := sourceBits_length_le q
    rw [w2] at h5
    have h5 : (sourceBits q).length ≤ 127 * 4 := h5
    omega
  have hcap : q.dstCap.toNat = 2242 := by rw [w4]; rfl
  have hrun := runsTo_command (i := .enc) (s := encHost) rfl rfl (fun h => by cases h)
    (h1.trans (ser_end hq hwq (by rw [hcap]; exact hl)))
  have hd : (seen (finished (emitted (movedOn .ser q) (compressedFile q))) []).dstLen.toNat = (compressedFile q).length :=
    emitted_dstLen (s := movedOn .ser q) (by show _ ≤ q.dstCap.toNat; rw [hcap]; exact hl)
  generalize hT : seen (finished (emitted (movedOn .ser q) (compressedFile q))) [] = t at hrun hd
  have ht : t.script = [] ∧ t.busy = false ∧ t.done = true ∧ t.dstBase = 0x2000 := by
    rw [← hT]; exact ⟨rfl, rfl, rfl, w3⟩
  have hpos : 2 ≤ (compressedFile q).length := by
    have h3 := compressedFile_length q
    omega
  refine ⟨encHost, t, { State.reset with
      script := [cmd .dec, .wait], srcBase := 0x2000, srcLen := t.dstLen, dstBase := 0x10000, dstCap := 4, mem := t.mem },
    rfl, rfl, rfl, by decide +kernel, hrun, ht.1, ht.2.1, ht.2.2.1, rfl, rfl, rfl, ?_, rfl, ?_, rfl, ?_⟩
  · refine ⟨?_, show 0x10000 + 4 ≤ 2 ^ 32 by decide, ?_⟩
    · show 0x2000 + t.dstLen.toNat ≤ 2 ^ 32
      omega
    · rintro ⟨-, -, -, h⟩
      have h : 0x10000 < 0x2000 + t.dstLen.toNat := h
      omega
  · intro j _
    rw [ht.2.2.2]; rfl
  · intro h
    have h : t.dstLen = 0 := h
    rw [h] at hd
    have : (0 : Word).toNat = 0 := rfl
    omega

/-- ASG without a tree, SER with a tree and no codes, DCP on a built tree, and a stage without a prerequisite that faults. -/
theorem witness_PrerequisitesComeFirst :
    (let s := ready .asg .asg []; s.stage ∈ Instr.asg.stages ∧ s.busy = true ∧ s.stage = .asg ∧ s.treeSrc ≠ .built) ∧
    (let s := { readySer [] with codesValid := false };
      s.stage ∈ Instr.ser.stages ∧ s.busy = true ∧ s.stage = .ser ∧ ¬ (s.treeSrc = .built ∧ s.codesValid = true)) ∧
    (let s := { readySer [] with stage := .dcp, op := 7 }; s.stage ∈ Instr.dcp.stages ∧ s.busy = true ∧ s.treeSrc ≠ .recon) ∧
    (cntBad.stage ∈ Instr.cnt.stages ∧ cntBad.stage ∈ [.clr, .cnt, .bld, .rcn] ∧ cntBad.err = false ∧
      ∃ t, exec .cnt cntBad = .next t ∧ t.err = true) :=
  ⟨by decide +kernel, by decide +kernel, by decide +kernel, by decide, by decide, rfl,
    next_of_check (p := fun t => t.err) (by decide +kernel)⟩

/-- The least window past the top of memory, in the source and in the destination, and an overlap of one byte. -/
theorem witness_WindowChecksComeInOrder :
    (let s := { ready .cnt .cnt [] with srcBase := 0xFFFFFFFF, srcLen := 2 };
      s.stage ∈ Instr.cnt.stages ∧ s.busy = true ∧ s.srcBase.toNat + s.srcLen.toNat = 2 ^ 32 + 1) ∧
    (let s := { readySer [] with srcBase := 0xFFFFFFFF, srcLen := 2 };
      s.stage ∈ Instr.ser.stages ∧ s.busy = true ∧ s.srcBase.toNat + s.srcLen.toNat = 2 ^ 32 + 1) ∧
    (let s := { readySer [0x61] with dstBase := 0xFFFFFFFF, dstCap := 2 };
      s.stage ∈ Instr.ser.stages ∧ s.srcBase.toNat + s.srcLen.toNat ≤ 2 ^ 32 ∧ s.dstBase.toNat + s.dstCap.toNat = 2 ^ 32 + 1) ∧
    (let s := { readyDcp [0, 0] 64 with dstBase := 0x1001 };
      s.stage ∈ Instr.dcp.stages ∧ s.treeSrc = .recon ∧ s.srcBase.toNat + s.srcLen.toNat ≤ 2 ^ 32 ∧
        s.dstBase.toNat + s.dstCap.toNat ≤ 2 ^ 32 ∧ 0 < s.srcLen.toNat ∧ 0 < s.dstCap.toNat ∧
        s.srcBase.toNat < s.dstBase.toNat + s.dstCap.toNat ∧ s.dstBase.toNat + 1 = s.srcBase.toNat + s.srcLen.toNat) := by
  refine ⟨?_, ?_, ?_, ?_⟩ <;> decide +kernel

/-- A fault of CNT, one of SER that spoils the destination window, and one of SER that does not. For FaultEntryIsPrecise and, with
`witness_SequencerFollowsTheStageList`, InterruptLineAtTheEndOfACommand, HtbKeepsTheHostRegisters, CompletedStageFrame,
StagesWriteOnlyTheDestinationWindow and StagesReadOnlyTheSourceWindow. -/
theorem witness_FaultEntryIsPrecise :
    (∃ t, exec .cnt cntBad = .next t ∧ t.err = true) ∧
    (cntBad.err = false ∧ (readySer [0x63] 3).err = false) ∧
    (∃ t, exec .ser (readySer [0x63] 3) = .next t ∧ t.err = true) ∧
    (∃ t, exec .ser (ready .ser .ser []) = .next t ∧ t.err = true) ∧
    (State.reset.busy = false ∧ State.reset.err = false ∧ ∀ i, decode 0 ≠ .ok i) := by
  refine ⟨next_of_check (p := fun t => t.err) (by decide +kernel), ⟨rfl, rfl⟩, ?_,
    next_of_check (p := fun t => t.err) (by decide +kernel), rfl, rfl, fun i (h : decode 0 = .ok i) => by cases h⟩
  have h := exec_raised (i := .ser) (s := readySer [0x63] 3) (e := .dstOverflowError) (v := 3) rfl (by decide) (by
    have := serStage_overflowAt (s := readySer [0x63] 3) (i := 0) rfl rfl (by decide +kernel) (by decide +kernel) (by simp)
      (by decide +kernel)
    exact this)
  exact ⟨_, h, by rw [takeFault_eq]; rfl⟩

theorem witness_OnlyClrOrResetLeavesTheFaultState :
    (FaultStateLegal faulted ∧ faulted.err = true ∧ ∃ t, step faulted = .next t) ∧
    (let s := accept .clr faulted; FaultStateLegal s ∧ s.err = true ∧ s.busy = true ∧ ∃ t, step s = .next t ∧ t.err = false) ∧
    (let s := { faulted with script := [.reset] }; FaultStateLegal s ∧ s.err = true ∧ ∃ t, step s = .next t) := by
  have h : ∀ s : State, s.err = true → s.errCode = ErrName.illegalCommandError.code → s.done = false → s.op = Instr.clr.opcode ∨ s.busy = false →
      s.treeSrc = .none → s.codesValid = false → s.dstLen = 0 → FaultStateLegal s := by
    intro s h1 h2 h3 h4 h5 h6 h7
    refine ⟨by simp [h1], fun _ => ⟨_, h2⟩, by simp [h3], fun _ hb => ?_, fun _ => ⟨h5, h6, h7⟩⟩
    rcases h4 with h4 | h4
    · exact h4
    · rw [h4] at hb; cases hb
  refine ⟨⟨h _ rfl rfl rfl (.inr rfl) rfl rfl rfl, rfl, _, rfl⟩, ⟨h _ rfl rfl rfl (.inl rfl) rfl rfl rfl, rfl, rfl, ?_⟩,
    h _ rfl rfl rfl (.inr rfl) rfl rfl rfl, rfl, _, step_reset rfl⟩
  obtain ⟨t, h1, h2⟩ := next_of_check (o := step (accept .clr faulted)) (p := fun t => !t.err) (by decide +kernel)
  exact ⟨t, h1, by simpa using h2⟩

theorem witness_InterruptLineAtTheEndOfACommand :
    (∃ t, exec .clr (ready .clr .clr []) = .next t ∧ (t.busy = false ∧ t.err = false)) ∧
      (∃ t, exec .cnt cntBad = .next t ∧ (t.busy = false ∧ t.err = true)) ∧
      (ready .clr .clr []).err = false ∧ cntBad.err = false := by
  refine ⟨?_, ?_, rfl, rfl⟩
  · obtain ⟨t, h1, h2⟩ := next_of_check (o := exec .clr (ready .clr .clr [])) (p := fun t => decide (t.busy = false ∧ t.err = false))
      (by decide +kernel)
    exact ⟨t, h1, of_decide_eq_true h2⟩
  · obtain ⟨t, h1, h2⟩ := next_of_check (o := exec .cnt cntBad) (p := fun t => decide (t.busy = false ∧ t.err = true)) (by decide +kernel)
    exact ⟨t, h1, of_decide_eq_true h2⟩

/-- For HtbKeepsTheHostRegisters, CompletedStageFrame and StagesWriteOnlyTheDestinationWindow: every stage, completed. -/
theorem witness_CompletedStageFrame :
    ∀ x ∈ [(Instr.clr, ready .clr .clr []), (.cnt, ready .cnt .cnt [0x61]), (.bld, { ready .bld .bld [] with freq := freqAaab }),
        (.asg, readyAsg), (.ser, readySer [0x61, 0x61, 0x61, 0x62] 37), (.rcn, ready .rcn .rcn fileAaab), (.dcp, readyDcp fileAaab 4)],
      x.2.err = false ∧ ∃ t, exec x.1 x.2 = .next t ∧ (t.done && !t.err) = true := by
  intro x hx
  fin_cases hx
  all_goals exact ⟨rfl, next_of_check (by decide +kernel)⟩

/-- A memory that differs from the first one outside the source window, for a stage that writes nothing, for SER completed, and
for SER and its fault. -/
theorem witness_StagesReadOnlyTheSourceWindow :
    (∃ t, exec .cnt (ready .cnt .cnt [0x61]) = .next t ∧ t.done = true) ∧
    (∃ t, exec .ser (readySer [0x61] 64) = .next t ∧ t.done = true) ∧
    (∃ t, exec .ser (readySer [0x63] 3) = .next t ∧ t.err = true) ∧
    ∀ s ∈ [ready .cnt .cnt [0x61], readySer [0x61] 64, readySer [0x63] 3],
      (∀ x, s.srcBase.toNat ≤ x → x < s.srcBase.toNat + s.srcLen.toNat →
        memRead (memWrite s.mem 0x1001 0x55) x = memRead s.mem x) ∧ memWrite s.mem 0x1001 0x55 ≠ s.mem := by
  refine ⟨next_of_check (p := fun t => t.done) (by decide +kernel), next_of_check (p := fun t => t.done) (by decide +kernel),
    witness_FaultEntryIsPrecise.2.2.1, fun s hs => ⟨fun x h1 h2 => memRead_memWrite_ne _ _ ?_, ?_⟩⟩
  · have h3 : s.srcBase.toNat = 0x1000 ∧ s.srcLen.toNat = 1 := by fin_cases hs <;> exact ⟨rfl, rfl⟩
    omega
  · fin_cases hs <;> decide +kernel

/-- Each of the four tests on a write to CMD, and a step that starts a command. -/
theorem witness_CmdWriteStartsACommandOrFaults :
    (ready .clr .clr []).busy = true ∧ (faulted.busy = false ∧ faulted.err = true ∧ (2 : Word) ≠ 0x00000001) ∧
    (State.reset.busy = false ∧ (State.reset.err = true → (0 : Word) = 0x00000001) ∧ ∀ i, decode 0 ≠ .ok i) ∧
    (faulted.busy = false ∧ (faulted.err = true → (1 : Word) = 0x00000001) ∧ decode 1 = .ok .clr) ∧
    (let s := { State.reset with script := [cmd .enc] }; s.busy = false ∧ step s = .next (accept .enc State.reset) ∧ (accept .enc State.reset).busy = true) := by
  refine ⟨rfl, by decide, ⟨rfl, by decide, fun i (h : decode 0 = .ok i) => by cases h⟩, ⟨rfl, fun _ => rfl, rfl⟩, rfl, ?_, rfl⟩
  rw [step_regWrite (n := 0) (v := encode .enc) rfl (by decide)]
  rfl

/-- The first and the last register number, and STATUS and CTRL, while BUSY = 1. -/
theorem witness_BusyDropsWritesAndHidesRegisters :
    (ready .clr .clr []).busy = true ∧ (0x000 < 0x400 ∧ 0x3FF < 0x400) ∧
      ∀ e ∈ [Event.regWrite 0x000 1, .regWrite 0x3FF 0, .regRead 0x001, .regRead 0x002, .regRead 0x000, .regRead 0x003, .regRead 0x3FF],
        ∃ s : State, s.busy = true ∧ s.script = [e] :=
  ⟨rfl, by decide, fun e _ => ⟨{ ready .clr .clr [] with script := [e] }, rfl, rfl⟩⟩

/-- For the statements on register reads and writes with BUSY = 0 (and STATUS with BUSY = 1): the boundary numbers of each range, and NODE_SEL on the last
allocated record and on the first free one. -/
theorem witness_RegisterReadsFollowTheMap :
    (∀ e : Event, (∃ s : State, s.busy = false ∧ s.script = [e]) ∧ ∃ s : State, s.busy = true ∧ s.script = [e]) ∧
    (let s := { readyAsg with busy := false, nodeSel := 2 }; s.busy = false ∧ s.nodeSel.toNat + 1 = s.nodes.length) ∧
    (let s := { readyAsg with busy := false, nodeSel := 3 }; s.busy = false ∧ s.nodeSel.toNat = s.nodes.length) ∧
    (0x080 + 127 = 0x0FF ∧ 0x200 + 4 * 127 + 3 = 0x3FF) ∧
    (∀ n ∈ [0x012, 0x07F, 0x100, 0x1FF], (0x012 ≤ n ∧ n ≤ 0x07F) ∨ (0x100 ≤ n ∧ n ≤ 0x1FF)) ∧
    ∀ n ∈ [0x003, 0x004, 0x009, 0x00C, 0x00E, 0x07F, 0x100, 0x3FF],
      n = 0x003 ∨ n = 0x004 ∨ (0x009 ≤ n ∧ n ≤ 0x00C) ∨ (0x00E ≤ n ∧ n ≤ 0x07F) ∨ (0x100 ≤ n ∧ n ≤ 0x3FF) :=
  ⟨fun e => ⟨⟨{ State.reset with script := [e] }, rfl, rfl⟩, { ready .clr .clr [] with script := [e] }, rfl, rfl⟩, by decide, by decide, by decide, by decide, by decide⟩

/-- The bytes at the edges of the windows of a command in flight. -/
theorem witness_HostMemoryAccess :
    let s := ready .cnt .cnt [0x61] 1
    (inFlightSrc s 0x1000 ∧ ¬ inFlightSrc s 0x1001 ∧ ¬ inFlightSrc s 0xFFF) ∧ inFlightDst s 0x2000 ∧ ¬ inFlightDst s 0x2001 ∧
      ∀ e : Event, ∃ u : State, u.script = [e] ∧ u.inFlight = s.inFlight :=
  ⟨by simp [inFlightSrc, inWindow, ready], by simp [inFlightDst, inWindow, ready], by simp [inFlightDst, inWindow, ready],
    fun e => ⟨{ ready .cnt .cnt [0x61] 1 with script := [e] }, rfl, rfl⟩⟩

/-- A command that has ended with its windows still in flight, before a read of STATUS and before a `wait`. -/
theorem witness_SeeingBusyClearOpensTheWindows :
    ∀ e ∈ [Event.regRead 0x001, .wait], ∃ s : State,
      s.busy = false ∧ (e = .regRead 0x001 ∨ e = .wait) ∧ s.script = [e] ∧ s.inFlight ≠ [] := by
  intro e he
  refine ⟨{ ready .cnt .cnt [0x61] with busy := false, stage := .idle, script := [e] }, rfl, ?_, rfl, by simp [ready]⟩
  simpa using he

/-- The host at the end of CNT, whose windows it has not seen released, having started a second command with other windows. -/
def second (e : Event) : State :=
  { accept .clr { ready .cnt .cnt [0x61] 1 with busy := false, stage := .idle, srcBase := 0x3000, dstBase := 0x4000 } with
    script := [e] }

/-- The first command's windows are still in flight beside the second's: each kind of access at the edges of them, and a step that
goes on. -/
theorem witness_WindowsStayClosedUntilBusyReadsZero :
    let w : Windows := { srcBase := 0x1000, srcLen := 1, dstBase := 0x2000, dstCap := 1 }
    (∀ e, w ∈ (second e).inFlight ∧ (second e).script = [e]) ∧ inWindow w.srcBase w.srcLen 0x1000 ∧ ¬ inWindow w.srcBase w.srcLen 0x1001 ∧
      inWindow w.dstBase w.dstCap 0x2000 ∧ ¬ inWindow w.dstBase w.dstCap 0x1FFF ∧
      ∃ t, step (second .turn) = .next t ∧ decide (w ∈ t.inFlight) = true := by
  refine ⟨fun e => ⟨by simp [second, accept, ready], rfl⟩, by decide, by decide, by decide, by decide,
    next_of_check (p := fun t => decide (_ ∈ t.inFlight)) (by decide +kernel)⟩

/-- R258: with two commands accepted and no BUSY = 0 seen, the first one's windows are refused to the host. -/
theorem test_first_windows_stay_closed :
    step (second (.memRead 0x2000)) = .refused .hostWindowRace ∧ step (second (.memWrite 0x1000 0)) = .refused .hostWindowRace :=
  ⟨by rfl, by rfl⟩

end Sys2Proof.Tests
end

section
/-! The size law of the payload (spec/00_scope.md R6, spec/44_serialize.md R168): the sum of the code lengths over the source
bytes, regrouped by symbol. -/

namespace Sys2Proof.Machine

/-- The weighted sum of R6 picks out the weight of the one symbol that a byte equals. -/
theorem sum_range_mul_indicator (w : Nat → Nat) {n b : Nat} (hb : b < n) :
    ((List.range n).map fun k => w k * if b = k then 1 else 0).sum = w b := by
  calc ((List.range n).map fun k => w k * if b = k then 1 else 0).sum
      = ∑ k ∈ Finset.range n, w k * if b = k then 1 else 0 := rfl
    _ = w b := by simp [hb]

/-- The bits of `n` bytes from offset `i`, counted by symbol: one more byte in front adds the length of its own code to both
sides. -/
theorem bitsFrom_length {s : State} {i n : Nat} (hb : ∀ j < n, (srcByte s (i + j)).toNat < 128) :
    (bitsFrom s i n).length = ((List.range 128).map fun k => codeLen (codeAt s.code k) * occurrences s k i n).sum := by
  induction n generalizing i with
  | zero => simp [bitsFrom, occurrences]
  | succ n ih =>
    have hhead : (srcByte s i).toNat < 128 := hb 0 n.succ_pos
    have htail : ∀ j < n, (srcByte s (i + 1 + j)).toNat < 128 := fun j hj => by
      rw [Nat.add_right_comm]
      exact hb (j + 1) (Nat.succ_lt_succ hj)
    simp only [occurrences_succ, Nat.mul_add]
    rw [List.sum_map_add, sum_range_mul_indicator (fun k => codeLen (codeAt s.code k)) hhead, bitsFrom_succ, List.length_append,
      codeBits_length, ih htail]

/-- Settles O30: the payload is the bits of all source bytes from offset 0, so the count by symbol applies to it. -/
theorem payloadLengthIsTheWeightedSum : Obligations.PayloadLengthIsTheWeightedSum := by
  intro s hsym
  rw [← bitsFrom_zero]
  exact bitsFrom_length (by simpa using hsym)

end Sys2Proof.Machine
end

section
/-! The state, its invariants and its registers (spec/10_state.md): what a host operation leaves alone, said once; the three parts of
the invariant over a step; the sequencer and the frame of a stage; the register port. -/

namespace Sys2Proof.Machine

/-! ### What a host operation does to the machine (R20 to R26, R250) -/

/-- What most host operations leave as it was: the sequencer, the fault registers, and the session but for FREQ. DONE is at most
cleared (R25). -/
structure HostKeeps (s t : State) : Prop where
  busy : t.busy = s.busy
  stage : t.stage = s.stage
  op : t.op = s.op
  done : t.done = true → s.done = true
  err : t.err = s.err
  errCode : t.errCode = s.errCode
  errInfo : t.errInfo = s.errInfo
  treeSrc : t.treeSrc = s.treeSrc
  codesValid : t.codesValid = s.codesValid
  dstLen : t.dstLen = s.dstLen
  nodes : t.nodes = s.nodes
  root : t.root = s.root
  nsym : t.nsym = s.nsym
  code : t.code = s.code

/-- A change of the model's own fields, of memory, of the windows, of CTRL, of NODE_SEL and of FREQ keeps the rest. -/
theorem HostKeeps.of_fields (s : State) (ieDone ieErr : Bool) (srcBase srcLen dstBase dstCap : Word) (nodeSel : NodeIdx)
    (freq : Vector Word 128) (mem : Memory) (script : List Event) (replies : List Reply) (inFlight : List Windows)
    (freeCount : Nat) :
    HostKeeps s
      { s with
        ieDone := ieDone, ieErr := ieErr, srcBase := srcBase, srcLen := srcLen, dstBase := dstBase, dstCap := dstCap
        nodeSel := nodeSel, freq := freq, mem := mem, script := script, replies := replies, inFlight := inFlight
        freeCount := freeCount } :=
  ⟨rfl, rfl, rfl, id, rfl, rfl, rfl, rfl, rfl, rfl, rfl, rfl, rfl, rfl⟩

theorem HostKeeps.doneCleared (s : State) (script : List Event) : HostKeeps s { s with script := script, done := false } :=
  ⟨rfl, rfl, rfl, by simp, rfl, rfl, rfl, rfl, rfl, rfl, rfl, rfl, rfl, rfl⟩

theorem HostKeeps.regRead (n : Nat) (s : State) (rest : List Event) :
    HostKeeps s (hostRegRead n { s with script := rest }) := by
  obtain ⟨r, f, k, h, -⟩ := hostRegRead_cases n { s with script := rest }
  rw [h]
  exact .of_fields ..

/-- The four things a host operation can do to the machine. -/
inductive HostEffect (s : State) : State → Prop
  /-- It leaves the machine alone, but for what the host may write. -/
  | kept {t : State} (h : HostKeeps s t) : HostEffect s t
  /-- It starts a command (R26). -/
  | accepted (w : Word) (i : Instr) (rest : List Event) (hs : s.script = .regWrite 0x000 w :: rest) (hd : decode w = .ok i)
      (hb : s.busy = false) (he : s.err = true → i = .clr) : HostEffect s (accept i { s with script := rest })
  /-- It writes an illegal word to CMD (R84). -/
  | illegal (w : Word) (rest : List Event) (he : s.err = false) :
      HostEffect s (faultEntry .illegalCommandError w { s with script := rest })
  /-- It resets the machine (R250). -/
  | reset (m : Memory) (l : List Event) (r : List Reply) (k : Nat) :
      HostEffect s { State.reset with mem := m, script := l, replies := r, freeCount := k }

/-- A register write is one of the four (R21, R26). -/
theorem HostEffect.regWrite {n : Nat} {v : Word} {s : State} {rest : List Event} (hs : s.script = .regWrite n v :: rest) :
    HostEffect s (hostRegWrite n v { s with script := rest }) := by
  rcases hostRegWrite_cases n v { s with script := rest } with
    h | ⟨hb, ⟨i, rfl, hd, he, h⟩ | ⟨-, he, h⟩ | h | ⟨a, b, h⟩ | ⟨a, b, c, d, h⟩ | ⟨a, h⟩ | ⟨f, h⟩⟩
  all_goals rw [h]
  · exact .kept (.of_fields ..)
  · exact .accepted v i rest hs hd hb he
  · exact .illegal v rest he
  · exact .kept (.doneCleared ..)
  · exact .kept (.of_fields ..)
  · exact .kept (.of_fields ..)
  · exact .kept (.of_fields ..)
  · exact .kept (.of_fields ..)

theorem HostDone.effect {s t : State} (h : HostDone s t) : HostEffect s t := by
  cases h with
  | idle | turn | irq | stuck | memRead | memWrite => exact .kept (.of_fields ..)
  | wait rest | regRead n rest => exact .kept (.regRead ..)
  | regWrite n v rest hs => exact .regWrite hs
  | reset rest =>
    obtain ⟨m, k, h, -⟩ := resetMachine_eq { s with script := rest }
    rw [h]
    exact .reset ..

/-! ### The sequencer (R27) -/

/-- `SequencerLegal` of a state with BUSY = 0. -/
theorem SequencerLegal.idle {t : State} (ho : t.op = 0 ∨ ∃ i : Instr, t.op = i.opcode) (hb : t.busy = false)
    (hs : t.stage = .idle) : SequencerLegal t :=
  ⟨ho, by simp [hb], fun _ => hs⟩

/-- `SequencerLegal` of a state with BUSY = 1. -/
theorem SequencerLegal.running {t : State} {i : Instr} (ho : t.op = i.opcode) (hb : t.busy = true) (hs : t.stage ∈ i.stages) :
    SequencerLegal t :=
  ⟨.inr ⟨i, ho⟩, fun _ => ⟨i, ho, hs⟩, by simp [hb]⟩

theorem SequencerLegal.kept {s t : State} (h : SequencerLegal s) (hk : HostKeeps s t) : SequencerLegal t := by
  unfold SequencerLegal at *
  rwa [hk.op, hk.busy, hk.stage]

theorem HostEffect.sequencerLegal {s t : State} (h : HostEffect s t) (hs : SequencerLegal s) : SequencerLegal t := by
  cases h with
  | kept hk => exact hs.kept hk
  | accepted w i => exact .running (i := i) rfl rfl (firstStage_mem i)
  | illegal => exact .idle hs.1 rfl rfl
  | reset => exact .idle (.inl rfl) rfl rfl

/-- A stage of the command in OP hands on to a stage of the same command, or leaves HTB idle. -/
theorem exec_sequencerLegal {i : Instr} {s t : State} (ho : s.op = i.opcode) (h : exec i s = .next t) : SequencerLegal t := by
  obtain ⟨hb, -, ⟨s', hf, rfl⟩ | ⟨e, v, -, rfl⟩⟩ := exec_next h
  · obtain ⟨-, -, -, -, hop, -, -, -, hbusy, -⟩ := (stageDone hf).frame
    cases hn : nextStage i.stages s.stage with
    | none => exact .idle (.inr ⟨i, hop.trans ho⟩) rfl rfl
    | some st => exact .running (hop.trans ho) (hbusy.trans hb) (nextStage_mem hn)
  · rw [takeFault_eq]
    exact .idle (.inr ⟨i, ho⟩) rfl rfl

/-- Settles O10: a stage step re-establishes the agreement by itself; a host operation keeps it. -/
theorem stepKeepsSequencerLegal : Obligations.StepKeepsSequencerLegal := by
  intro s t hs h
  rcases step_cases h with ⟨i, l, -, ho, he⟩ | hd
  · exact exec_sequencerLegal (s := { s with script := l }) ho he
  · exact hd.effect.sequencerLegal hs

/-- Settles O6: the stage that ran stands in the list (R83), and `nextStage` is the head of what follows it. -/
theorem sequencerFollowsTheStageList : Obligations.SequencerFollowsTheStageList := by
  refine fun i s => ⟨fun t h _ ht => ?_, fun hb => ?_⟩
  · obtain ⟨hb, hs, ⟨s', hf, rfl⟩ | ⟨e, v, -, rfl⟩⟩ := exec_next h
    · obtain ⟨-, -, -, -, -, -, -, -, hbusy, hdone, -⟩ := (stageDone hf).frame
      obtain ⟨before, rest, hl, hn⟩ := nextStage_spec hs
      refine ⟨before, rest, hl, ?_⟩
      rw [hn]
      cases rest with
      | nil => exact ⟨rfl, rfl, rfl⟩
      | cons st rest => exact ⟨rfl, hbusy.trans hb, hdone⟩
    · simp [takeFault_eq] at ht
  · rw [exec_eq_commandStep, commandStep, if_pos hb]

/-! ### The fault state (R29, R220, R230, R232) -/

theorem FaultStateLegal.kept {s t : State} (h : FaultStateLegal s) (hk : HostKeeps s t) : FaultStateLegal t := by
  obtain ⟨hzero, hcode, hdone, hclr, hsession⟩ := h
  unfold FaultStateLegal
  rw [hk.err, hk.errCode, hk.errInfo, hk.busy, hk.op, hk.treeSrc, hk.codesValid, hk.dstLen]
  exact ⟨hzero, hcode, fun hd => hdone (hk.done hd), hclr, hsession⟩

/-- With ERR = 0 only ERRCODE, ERRINFO and DONE are bound. -/
theorem FaultStateLegal.noFault {t : State} (he : t.err = false) (hc : t.errCode = 0) (hi : t.errInfo = 0)
    (hd : t.done = true → t.busy = false) : FaultStateLegal t :=
  ⟨fun _ => ⟨hc, hi⟩, by simp [he], fun h => ⟨hd h, he⟩, by simp [he], by simp [he]⟩

/-- Fault entry leaves a legal fault state, whatever it starts from (R230). -/
theorem FaultStateLegal.faultEntry (e : ErrName) (v : Word) (s : State) : FaultStateLegal (faultEntry e v s) :=
  ⟨by simp, fun _ => ⟨e, rfl⟩, by simp, by simp, fun _ => ⟨rfl, rfl, rfl⟩⟩

theorem HostEffect.faultStateLegal {s t : State} (h : HostEffect s t) (hs : FaultStateLegal s) : FaultStateLegal t := by
  cases h with
  | kept hk => exact hs.kept hk
  | accepted w i rest _ _ hb he =>
    obtain ⟨hzero, hcode, -, -, hsession⟩ := hs
    exact ⟨hzero, hcode, by simp, fun h _ => by rw [he h]; rfl, hsession⟩
  | illegal => exact .faultEntry ..
  | reset => exact .noFault rfl rfl rfl (by simp [State.reset])

/-- A completed stage leaves ERR = 0: CLR clears it, and no other stage runs while ERR = 1 (R111, R232). -/
theorem StageDone.noFault {s t : State} {st : Stage} (h : StageDone s st t) (hs : FaultStateLegal s)
    (hclr : s.err = true → st = .clr) : t.err = false ∧ t.errCode = 0 ∧ t.errInfo = 0 := by
  rcases h.fault_frame with ⟨-, he⟩ | ⟨hne, he, hc, hi⟩
  · exact he
  · have h0 : s.err = false := by
      by_contra h1
      exact hne (hclr (by simpa using h1))
    obtain ⟨hc0, hi0⟩ := hs.1 h0
    exact ⟨he.trans h0, hc.trans hc0, hi.trans hi0⟩

theorem exec_faultStateLegal {i : Instr} {s t : State} (hs : FaultStateLegal s) (ho : s.op = i.opcode)
    (h : exec i s = .next t) : FaultStateLegal t := by
  obtain ⟨hb, hst, ⟨s', hf, rfl⟩ | ⟨e, v, -, rfl⟩⟩ := exec_next h
  · have hclr : s.err = true → s.stage = .clr := fun he => by
      obtain ⟨-, -, -, hop, -⟩ := hs
      rw [opcode_injective (ho.symm.trans (hop he hb))] at hst
      simpa [Instr.stages] using hst
    obtain ⟨he, hc, hi⟩ := (stageDone hf).noFault hs hclr
    obtain ⟨-, -, -, -, -, -, -, -, -, hdone, -⟩ := (stageDone hf).frame
    cases nextStage i.stages s.stage with
    | none => exact .noFault he hc hi fun _ => rfl
    | some st =>
      refine .noFault he hc hi fun hd => ?_
      rw [advance_some_done, hdone] at hd
      rw [(hs.2.2.1 hd).1] at hb
      simp at hb
  · exact .faultEntry ..

/-- Settles O11: fault entry makes the fault state, CLR and reset leave it, and nothing else touches it. -/
theorem stepKeepsFaultStateLegal : Obligations.StepKeepsFaultStateLegal := by
  intro s t hs h
  rcases step_cases h with ⟨i, l, -, ho, he⟩ | hd
  · exact exec_faultStateLegal (s := { s with script := l }) hs ho he
  · exact hd.effect.faultStateLegal hs

/-! ### The tree and the codes (R43 to R47, R188) -/

theorem TreeLegal.faultEntry (e : ErrName) (v : Word) (s : State) : TreeLegal (faultEntry e v s) :=
  .cleared rfl rfl rfl rfl rfl rfl

theorem HostEffect.treeLegal {s t : State} (h : HostEffect s t) (hs : TreeLegal s) : TreeLegal t := by
  cases h with
  | kept hk => exact hs.of_eq hk.treeSrc hk.nodes hk.root hk.nsym hk.code hk.codesValid
  | accepted => exact hs.of_eq rfl rfl rfl rfl rfl rfl
  | illegal => exact .faultEntry ..
  | reset => exact .cleared rfl rfl rfl rfl rfl rfl

theorem exec_treeLegal {i : Instr} {s t : State} (hs : TreeLegal s) (h : exec i s = .next t) : TreeLegal t := by
  obtain ⟨-, -, ⟨s', hf, rfl⟩ | ⟨e, v, -, rfl⟩⟩ := exec_next h
  · exact ((stageDone hf).tree hs).advance _
  · exact .faultEntry ..

/-- Settles O12: a completed stage leaves a legal tree, a fault and a reset leave none, the host cannot reach it. -/
theorem stepKeepsTreeLegal : Obligations.StepKeepsTreeLegal := by
  intro s t hs h
  rcases step_cases h with ⟨i, l, -, -, he⟩ | hd
  · exact exec_treeLegal (s := { s with script := l }) (hs.of_eq rfl rfl rfl rfl rfl rfl) he
  · exact hd.effect.treeLegal hs

/-- Settles O8: no memory is listed, HTB is idle without a fault, there is no tree and no command in flight (R51). -/
theorem legalAtReset : Obligations.LegalAtReset where
  memory := ⟨.nil, by simp [State.reset]⟩
  sequencer := .idle (.inl rfl) rfl rfl
  faultState := .noFault rfl rfl rfl fun _ => rfl
  tree := .cleared rfl rfl rfl rfl rfl rfl
  inFlight := by simp [InFlightLegal, State.reset]

/-! ### BLD and RCN (R43, R44, R188, R190) -/

/-- Settles O20: every FREQ whose sum fits gives a tree (R131), of the shape that the merge keeps. -/
theorem bldBuildsATree : Obligations.BldBuildsATree := by
  intro s hat ht
  refine ⟨(buildTree s.freq).1, (buildTree s.freq).2, ?_, buildTree_shape ht⟩
  rw [exec_at (i := .bld) hat (by simp [Instr.stages]) (bldStage_ok ht), leaves_seq]
  rfl

/-- Settles O31: the entries that pass the tests are those of `ReconInv`, from which the shape, the paths and the CODE table
follow. -/
theorem rcnRebuildsTheTree : Obligations.RcnRebuildsTheTree := by
  intro s hat hfits hgood
  obtain ⟨r, hstage, hinv⟩ := rcnStage_ok hfits hgood
  obtain ⟨-, -, hcount, -⟩ := hfits
  have hshape := hinv.shape (by simpa using hcount)
  rw [fileEntries_length] at hshape
  exact ⟨r.nodes, r.code, exec_at (i := .rcn) hat (by simp [Instr.stages]) hstage, hshape, hinv.entries hgood⟩

/-! ### Frames (R28, R30, R34, R47, R230) -/

/-- Settles O49: a completed stage keeps the host's registers, and so does fault entry. -/
theorem htbKeepsTheHostRegisters : Obligations.HtbKeepsTheHostRegisters := by
  intro i s t h
  obtain ⟨-, -, ⟨s', hf, rfl⟩ | ⟨e, v, -, rfl⟩⟩ := exec_next h
  · obtain ⟨hid, hie, hw, hsel, hop, hscript, hreplies, hflight, -⟩ := (stageDone hf).frame
    simp only [windowsOf, Windows.mk.injEq] at hw
    obtain ⟨hsb, hsl, hdb, hdc⟩ := hw
    cases nextStage i.stages s.stage <;> exact ⟨hid, hie, hsb, hsl, hdb, hdc, hsel, hop, hscript, hreplies, hflight⟩
  · simp [takeFault_eq]

/-- Settles O50: what each completed stage writes, read off `StageDone`; a fault sets ERR. -/
theorem completedStageFrame : Obligations.CompletedStageFrame := by
  intro i s t h hs ht
  obtain ⟨-, -, ⟨s', hf, rfl⟩ | ⟨e, v, -, rfl⟩⟩ := exec_next h
  · have hd := stageDone hf
    generalize nextStage i.stages s.stage = n at *
    generalize s.stage = st at *
    cases hd with
    | clr =>
      cases s
      dsimp only at hs
      subst hs
      cases n <;> rfl
    | _ => cases n <;> rfl
  · simp [takeFault_eq] at ht

/-! ### Whose step it is (R27, R243) -/

/-- Settles O4: with BUSY = 1 the schedule gives HTB the turn in each of the four cases. -/
theorem stepRunsTheCommandInOp : Obligations.StepRunsTheCommandInOp := by
  intro s i hb hd
  have ho : s.op = i.opcode := fetchCommand_some (s := s) (by rw [fetchCommand, hd])
  refine ⟨fun h => ?_, fun rest h => ?_, fun rest h => step_wait_busy h hb ho, fun rest h hi => ?_⟩
  · exact step_of_stage (by simp [nextMove, h, hb]) ho
  · exact step_of_stage (s' := { s with script := rest }) (by simp [nextMove, h, hb, Event.wf]) ho
  · exact step_of_stage (by simp [nextMove, h, hb, hi, Event.wf]) ho

/-! ### Reset (R51, R250, R251) -/

/-- Settles O7: reset spoils memory only where it abandons SER or DCP, and there only in the destination window. -/
theorem resetRestoresEveryRegister : Obligations.ResetRestoresEveryRegister := by
  refine ⟨registersReset [] [] [] 0, fun s rest hs => ?_⟩
  obtain ⟨m, k, ht, hkept, hspoiled⟩ := resetMachine_eq { s with script := rest }
  refine ⟨_, (step_reset hs).trans (congrArg _ ht), registersReset .., rfl, fun h => hkept ?_, ?_⟩
  · simpa [resetSpoils] using h
  · dsimp only
    cases hr : resetSpoils { s with script := rest } with
    | false => rw [hkept hr]; exact fun _ _ => rfl
    | true => rw [hspoiled hr]; exact spoil_sameOutside s _

/-! ### Writes to the port (R20 to R35) -/

/-- A register write, from what `hostRegWrite` makes of it. -/
theorem writesAs_of {s : State} {n : Nat} {v : Word} {f : List Event → State} (hn : n < 0x400)
    (h : ∀ rest, hostRegWrite n v { s with script := rest } = f rest) : writesAs s n v f :=
  fun rest hs => by rw [step_regWrite hs hn, h]

/-- With BUSY = 1 a register write is dropped (R23). -/
theorem writesAs_busy {s : State} {n : Nat} (hn : n < 0x400) (v : Word) (hb : s.busy = true) :
    writesAs s n v fun rest => { s with script := rest } :=
  writesAs_of hn fun _ => if_pos hb

/-- With BUSY = 0 a write to CMD is `cmdWrite` (R26). -/
theorem writesAs_cmd {s : State} {w : Word} {f : List Event → State} (hb : s.busy = false)
    (h : ∀ rest, cmdWrite w { s with script := rest } = f rest) : writesAs s 0x000 w f :=
  writesAs_of (by decide) fun rest => by rw [← h rest, hostRegWrite, if_neg (by simp [hb]), if_pos rfl]

section cmdWrite
variable {s : State} {w : Word} (hopen : s.err = true → w = 0x00000001)
include hopen

/-- With ERR = 0, or for the CLR word, a write to CMD gets past its test on ERR (R26). -/
theorem cmdWrite_passes_err : ¬ (s.err = true ∧ w ≠ encode .clr) := fun h => h.2 (hopen h.1)

theorem cmdWrite_legal {i : Instr} (hd : decode w = .ok i) : cmdWrite w s = accept i s := by
  rw [cmdWrite, if_neg (cmdWrite_passes_err hopen), hd]

theorem cmdWrite_illegal (hill : ∀ i, decode w ≠ .ok i) : cmdWrite w s = faultEntry .illegalCommandError w s := by
  rw [cmdWrite, if_neg (cmdWrite_passes_err hopen)]
  cases hd : decode w with
  | ok i => exact absurd hd (hill i)
  | error e => rfl

end cmdWrite

/-- A host operation that takes BUSY from 0 to 1 writes a command word to CMD. -/
theorem HostEffect.starts {s t : State} (h : HostEffect s t) (hs : s.busy = false) (ht : t.busy = true) :
    ∃ w i rest, s.script = .regWrite 0x000 w :: rest ∧ decode w = .ok i := by
  cases h with
  | kept hk => rw [hk.busy, hs] at ht; simp at ht
  | accepted w i rest hw hd => exact ⟨w, i, rest, hw, hd⟩
  | illegal => simp at ht
  | reset => simp [State.reset] at ht

/-- Settles O53: the four tests in order; a stage step needs BUSY = 1, so only a host operation starts a command. -/
theorem cmdWriteStartsACommandOrFaults : Obligations.CmdWriteStartsACommandOrFaults := by
  refine ⟨fun s w => ⟨?_, fun hb he hw => ?_, fun hb hopen hill => ?_, fun i hb hopen hd => ?_⟩, fun s t hs h ht => ?_⟩
  · exact writesAs_busy (by decide) w
  · exact writesAs_cmd hb fun rest => if_pos ⟨he, hw⟩
  · exact writesAs_cmd hb fun _ => cmdWrite_illegal hopen hill
  · have ho : w.setWidth 8 = i.opcode := by
      rw [eq_encode_of_decode hd]
      cases i <;> rfl
    refine ⟨i.firstStage, firstStage_head i, writesAs_cmd hb fun rest => ?_⟩
    rw [cmdWrite_legal (s := { s with script := rest }) hopen hd, ho]
    rfl
  · rcases step_cases h with ⟨_, _, hb, -⟩ | hd
    · rw [hs] at hb; simp at hb
    · exact hd.effect.starts hs ht

/-- One FREQ after a write to it (R35). -/
theorem freqAt_set {f : Vector Word 128} {k : Nat} (hk : k < 128) (v : Word) (j : Nat) :
    freqAt (f.setIfInBounds k v) j = if j = k then v else freqAt f j := by
  unfold freqAt
  rw [Vector.getElem?_setIfInBounds]
  by_cases h : k = j
  · subst h; simp [hk]
  · simp [h, Ne.symm h]

/-- A write to a register number that no test of `hostRegWrite` is about, a read-only or unmapped one (R22). -/
theorem hostRegWrite_unwritable {n : Nat} (hsmall : n ∉ [0x000, 0x001, 0x002, 0x005, 0x006, 0x007, 0x008, 0x00D])
    (hfreq : ¬ (0x080 ≤ n ∧ n < 0x100)) (v : Word) (s : State) : hostRegWrite n v s = s := by
  simp only [List.mem_cons, List.not_mem_nil, or_false, not_or] at hsmall
  simp [hostRegWrite, hsmall, hfreq]

section write
variable {s : State} (v : Word) (hb : s.busy = false)
include hb

theorem hostRegWrite_status : hostRegWrite 0x001 v s = { s with done := s.done && !v.getLsbD 1 } := by
  rw [hostRegWrite, if_neg (by simp [hb]), if_neg (by decide), if_pos rfl]
  cases hv : v.getLsbD 1 <;> simp

theorem hostRegWrite_freq {k : Nat} (hk : k < 128) :
    hostRegWrite (0x080 + k) v s = { s with freq := s.freq.setIfInBounds k v } := by
  rw [hostRegWrite, if_neg (by simp [hb])]
  iterate 8 rw [if_neg (by omega)]
  rw [if_pos (by omega), Nat.add_sub_cancel_left]

end write

/-- Settles O57: each register number meets its own test of `hostRegWrite`, a read-only or unmapped one none. -/
theorem registerWritesFollowTheMap : Obligations.RegisterWritesFollowTheMap := by
  intro s v hb
  have idle : ∀ rest, ¬ ({ s with script := rest } : State).busy = true := by simp [hb]
  refine ⟨?status, ?ctrl, ?srcBase, ?srcLen, ?dstBase, ?dstCap, ?nodeSel, fun k hk => ?freq, fun n hn => ?dropped⟩
  case status => exact writesAs_of (by decide) fun rest => hostRegWrite_status v hb
  case freq =>
    refine ⟨s.freq.setIfInBounds k v, writesAs_of (by omega) ?_, fun j _ => freqAt_set hk v j⟩
    exact fun rest => hostRegWrite_freq (s := { s with script := rest }) v hb hk
  case dropped =>
    have hsmall : n ∉ [0x000, 0x001, 0x002, 0x005, 0x006, 0x007, 0x008, 0x00D] := by
      simp only [List.mem_cons, List.not_mem_nil, or_false]
      omega
    exact writesAs_of (by omega) fun rest => hostRegWrite_unwritable hsmall (by omega) v _
  all_goals exact writesAs_of (by decide) fun rest => if_neg (idle rest)

/-! ### Reads of the port (R20 to R35, R45) -/

/-- Settles O54: with BUSY = 1 a write is dropped, STATUS and CTRL read as themselves, and any other number as a free value. -/
theorem busyDropsWritesAndHidesRegisters : Obligations.BusyDropsWritesAndHidesRegisters := by
  intro s hb
  refine ⟨fun n v hn => writesAs_busy hn v hb, fun rest hs => ?_, fun rest hs => ?_, fun n rest hn h1 h2 hs => ?_⟩
  · rw [readsAs_status s rest hs, if_neg (by simp [hb])]
  · rw [step_regRead hs (by decide), hostRegRead, if_neg (by simp), if_neg (by simp)]
    rfl
  · exact ⟨_, by rw [step_regRead hs hn, hostRegRead, if_pos ⟨hb, h1, h2⟩]⟩

/-- A bit of a word, from the word as a number. -/
theorem getLsbD_of_toNat {w : Word} {k : Nat} {b : Bool} (h : w.toNat / 2 ^ k % 2 = b.toNat) : w.getLsbD k = b := by
  rw [← BitVec.testBit_toNat, Nat.testBit_eq_decide_div_mod_eq, h]
  cases b <;> rfl

/-- A field of a word, from the word as a number. -/
theorem extractLsb'_of_toNat {w : Word} {k n : Nat} {x : BitVec n} (h : w.toNat / 2 ^ k % 2 ^ n = x.toNat) :
    w.extractLsb' k n = x :=
  BitVec.eq_of_toNat_eq (by rw [BitVec.extractLsb'_toNat, Nat.shiftRight_eq_div_pow, h])

/-- Settles O55: STATUS as a number is the sum of its fields, each at its place, and no field reaches the next. -/
theorem statusFieldsStandWhereTheMapSays : Obligations.StatusFieldsStandWhereTheMapSays := by
  intro s
  have hword := statusWord_toNat s
  have hbusy := s.busy.toNat_lt
  have hdone := s.done.toNat_lt
  have herr := s.err.toNat_lt
  have hcodes := s.codesValid.toNat_lt
  have htree := s.treeSrc.number.isLt
  have hstage := s.stage.number.isLt
  have hop := s.op.isLt
  refine ⟨statusWord s, readsAs_status s, getLsbD_of_toNat ?_, getLsbD_of_toNat ?_, getLsbD_of_toNat ?_, getLsbD_of_toNat ?bit3,
    (extractLsb'_of_toNat (x := s.treeSrc.number) ?_).trans ?treeSrc, getLsbD_of_toNat ?_, getLsbD_of_toNat ?bit7,
    (extractLsb'_of_toNat (x := s.stage.number) ?_).trans ?stage, extractLsb'_of_toNat ?bits12, extractLsb'_of_toNat ?_,
    extractLsb'_of_toNat ?bits24⟩
  case treeSrc => cases s.treeSrc <;> rfl
  case stage => cases s.stage <;> rfl
  case bit3 | bit7 | bits12 | bits24 =>
    show _ = 0
    omega
  all_goals omega

theorem ctrlWord_eq (s : State) : ctrlWord s = BitVec.ofNat 32 (s.ieDone.toNat + 2 * s.ieErr.toNat) := by
  unfold ctrlWord
  cases s.ieDone <;> cases s.ieErr <;> rfl

theorem nodeInfoWord_eq (r : Node) : nodeInfoWord r = BitVec.ofNat 32 (r.kind.number.toNat + 2 ^ 8 * r.sym.toNat) := by
  have hkind := r.kind.number.isLt
  have hsym := r.sym.isLt
  apply BitVec.eq_of_toNat_eq
  simp only [nodeInfoWord, toNat_append_add, BitVec.toNat_ofNat]
  omega

theorem regValue_freq (s : State) {k : Nat} (hk : k < 128) : regValue s (0x080 + k) = freqAt s.freq k := by
  unfold regValue
  iterate 17 rw [if_neg (by omega)]
  rw [if_pos (by omega), Nat.add_sub_cancel_left]

theorem regValue_code (s : State) {k j : Nat} (hk : k < 128) (hj : j < 4) :
    regValue s (0x200 + 4 * k + j) = codeWord (codeAt s.code k) j := by
  unfold regValue
  iterate 18 rw [if_neg (by omega)]
  rw [if_pos (by omega), show (0x200 + 4 * k + j - 0x200) / 4 = k by omega, show (0x200 + 4 * k + j - 0x200) % 4 = j by omega]

theorem regValue_unmapped (s : State) {n : Nat} (h : (0x012 ≤ n ∧ n ≤ 0x07F) ∨ (0x100 ≤ n ∧ n ≤ 0x1FF)) : regValue s n = 0 := by
  unfold regValue
  iterate 19 rw [if_neg (by omega)]

/-- A register narrower than a word reads with zeros above it. -/
theorem readsAs_narrow {s : State} (hb : s.busy = false) {n m : Nat} {x : BitVec m} (hn : n < 0x400)
    (h : regValue s n = x.setWidth 32) : readsAs s n (BitVec.ofNat 32 x.toNat) :=
  readsAs_of hb hn (h.trans (BitVec.ofNat_toNat 32 x).symm)

/-- What a read of NODE_INFO, NODE_LEFT, NODE_RIGHT and NODE_FREQ gives, `r` being the record that NODE_SEL names (R34). -/
theorem readsAs_node {s : State} (hb : s.busy = false) {r : Node} (hr : nodeAt s.nodes s.nodeSel = r) :
    readsAs s 0x00E (BitVec.ofNat 32 (r.kind.number.toNat + 2 ^ 8 * r.sym.toNat)) ∧
      readsAs s 0x00F (BitVec.ofNat 32 r.left.toNat) ∧ readsAs s 0x010 (BitVec.ofNat 32 r.right.toNat) ∧
      readsAs s 0x011 r.freq := by
  subst hr
  exact ⟨readsAs_of hb (by decide) (nodeInfoWord_eq _), readsAs_narrow hb (by decide) rfl,
    readsAs_narrow hb (by decide) rfl, readsAs_of hb (by decide) rfl⟩

/-- Settles O56: each register number meets its own test of `regValue`, an unmapped one none. -/
theorem registerReadsFollowTheMap : Obligations.RegisterReadsFollowTheMap := by
  intro s hb
  have reads : ∀ {n : Nat} {v : Word}, n < 0x400 → regValue s n = v → readsAs s n v := readsAs_of hb
  refine ⟨reads (by decide) rfl, reads (by decide) (ctrlWord_eq s), readsAs_narrow hb (by decide) rfl,
    reads (by decide) rfl, reads (by decide) rfl, reads (by decide) rfl, reads (by decide) rfl, reads (by decide) rfl,
    reads (by decide) rfl, readsAs_narrow hb (by decide) rfl, readsAs_narrow hb (by decide) rfl,
    reads (by decide) rfl, readsAs_narrow hb (by decide) rfl, fun _ => ?allocated, fun h => ?free,
    fun k hk => reads (by omega) (regValue_freq s hk), fun k hk j hj => reads (by omega) (regValue_code s hk hj),
    fun n hn => reads (by omega) (regValue_unmapped s hn)⟩
  case allocated =>
    obtain ⟨hinfo, hrest⟩ := readsAs_node hb (nodeNo_toNat s.nodes s.nodeSel).symm
    refine ⟨?_, hrest⟩
    cases hk : (nodeNo s.nodes s.nodeSel.toNat).kind <;> rwa [hk] at hinfo
  case free => exact readsAs_node hb (nodeAt_of_ge h)

end Sys2Proof.Machine
end

section
/-! Memory (spec/20_memory.md): what a step may do to it, said once; the canonical form over a step; what a stage reads of memory
and what it writes; the window tests and the faults of SER; the host's accesses and the windows in flight. -/

namespace Sys2Proof.Machine

/-! ### What a stage step does to memory (R67, R79, R231) -/

theorem spoilsDst_iff {st : Stage} {e : ErrName} :
    spoilsDst st e = true ↔ (st = .ser ∨ st = .dcp) ∧ ¬ (e = .sequenceError ∨ e = .windowError) := by
  simp [spoilsDst]

/-- What fits a destination window that passes its range test lies inside the address space (R64). -/
theorem dstInRange.top {s : State} (h : dstInRange s) {n : Nat} (hn : n ≤ s.dstCap.toNat) : s.dstBase.toNat + n ≤ 2 ^ 32 :=
  (Nat.add_le_add_left hn _).trans h

/-- The three things a stage step can do to memory. -/
inductive MemoryAfter (s t : State) : Prop
  /-- It leaves memory alone. -/
  | kept (hm : t.mem = s.mem)
  /-- SER or DCP has completed: the DST_LEN bytes from DST_BASE are written. -/
  | written (hst : s.stage = .ser ∨ s.stage = .dcp) (hr : dstInRange s) (bs : List Byte)
      (hm : t.mem = putBytes s.mem s.dstBase.toNat bs) (hl : t.dstLen.toNat = bs.length) (hc : bs.length ≤ s.dstCap.toNat)
  /-- A fault of SER or DCP has left the destination window unspecified. -/
  | spoiled (hst : s.stage = .ser ∨ s.stage = .dcp) (he : t.err = true)
      (hm : t.mem = memSpoil s.mem s.dstBase.toNat s.freeCount (dstBytes s))

theorem advance_dstLen (n : Option Stage) (s : State) : (advance n s).dstLen = s.dstLen := by cases n <;> rfl

theorem exec_memoryAfter {i : Instr} {s t : State} (h : exec i s = .next t) : MemoryAfter s t := by
  obtain ⟨-, -, ⟨a, hf, rfl⟩ | ⟨e, v, -, rfl⟩⟩ := exec_next h
  · rcases (stageDone hf).mem_frame with ⟨-, -, hm⟩ | ⟨hst, ⟨-, hr, -⟩, bs, rfl, hc⟩
    · exact .kept ((advance_mem _ a).trans hm)
    · exact .written hst hr bs (advance_mem ..) (by rw [advance_dstLen, emitted_dstLen hc]) hc
  · rcases takeFault_mem s.stage e v s with ⟨-, hm, -⟩ | ⟨hsp, hm, -⟩
    · exact .kept hm
    · exact .spoiled (spoilsDst_iff.mp hsp).1 rfl hm

/-- Outside the destination window memory is as before (R79). -/
theorem MemoryAfter.sameOutside {s t : State} (h : MemoryAfter s t) :
    memSameOutside s.mem t.mem s.dstBase.toNat s.dstCap.toNat := by
  intro x hx
  cases h with
  | kept hm => rw [hm]
  | written _ _ bs hm _ hc => rw [hm, putBytes_sameOutside _ _ _ x (by omega)]
  | spoiled _ _ hm => rw [hm, spoil_sameOutside s _ x hx]

/-- After SER or DCP has completed, memory is as before outside the first DST_LEN bytes of the destination window (R79). -/
theorem MemoryAfter.sameOutside_dstLen {s t : State} (h : MemoryAfter s t) (ht : t.err = false) :
    memSameOutside s.mem t.mem s.dstBase.toNat t.dstLen.toNat := by
  intro x hx
  cases h with
  | kept hm => rw [hm]
  | written _ _ bs hm hl => rw [hm, putBytes_sameOutside _ _ _ x (by omega)]
  | spoiled _ he => rw [ht] at he; simp at he

/-- Settles O51: SER and DCP alone write memory, and only bytes of the destination window. -/
theorem stagesWriteOnlyTheDestinationWindow : Obligations.StagesWriteOnlyTheDestinationWindow := by
  intro i s t h
  have hafter := exec_memoryAfter h
  refine ⟨fun hser hdcp x => ?_, hafter.sameOutside, fun _ ht _ => hafter.sameOutside_dstLen ht⟩
  cases hafter with
  | kept hm => rw [hm]
  | written hst | spoiled hst => exact absurd hst (by simp [hser, hdcp])

/-! ### The canonical form (R60, R63) -/

theorem MemoryAfter.wf {s t : State} (h : MemoryAfter s t) (hw : Memory.wf s.mem) : Memory.wf t.mem := by
  cases h with
  | kept hm => rwa [hm]
  | written _ hr bs hm _ hc => rw [hm]; exact putBytes_wf hw (dstInRange.top hr hc)
  | spoiled _ _ hm => rw [hm]; exact memSpoil_wf hw (dstBytes_top s)

theorem hostRegRead_mem (n : Nat) (s : State) : (hostRegRead n s).mem = s.mem := by
  obtain ⟨r, f, k, h, -⟩ := hostRegRead_cases n s
  rw [h]

/-- A register write leaves memory and the windows in flight alone, but for the windows it adds (R26, R78). -/
theorem hostRegWrite_keeps (n : Nat) (v : Word) (s : State) :
    (hostRegWrite n v s).mem = s.mem ∧ s.inFlight ⊆ (hostRegWrite n v s).inFlight := by
  rcases hostRegWrite_cases n v s with
    h | ⟨-, ⟨i, -, -, -, h⟩ | ⟨-, -, h⟩ | h | ⟨a, b, h⟩ | ⟨a, b, c, d, h⟩ | ⟨a, h⟩ | ⟨f, h⟩⟩
  case inr.inl => rw [h]; exact ⟨rfl, List.subset_cons_self _ _⟩
  all_goals rw [h]; exact ⟨rfl, List.Subset.refl _⟩

theorem resetMachine_wf {s : State} (hw : Memory.wf s.mem) : Memory.wf (resetMachine s).mem := by
  obtain ⟨m, k, h, hkept, hspoiled⟩ := resetMachine_eq s
  rw [h]
  dsimp only
  cases hr : resetSpoils s with
  | false => rwa [hkept hr]
  | true => rw [hspoiled hr]; exact memSpoil_wf hw (dstBytes_top s)

theorem HostDone.mem_wf {s t : State} (h : HostDone s t) (hw : Memory.wf s.mem) : Memory.wf t.mem := by
  cases h with
  | idle | turn | irq | stuck | memRead => exact hw
  | wait | regRead => rwa [hostRegRead_mem]
  | regWrite => rwa [(hostRegWrite_keeps ..).1]
  | memWrite a v => exact memWrite_wf hw a.isLt v
  | reset => exact resetMachine_wf hw

/-- Settles O9: memory changes only by writes and by spoiled bytes, each at an address that exists. -/
theorem stepKeepsMemoryCanonical : Obligations.StepKeepsMemoryCanonical := by
  intro s t hw h
  rcases step_cases h with ⟨i, l, -, -, he⟩ | hd
  · exact (exec_memoryAfter he).wf hw
  · exact hd.mem_wf hw

/-! ### What a stage reads of memory (R66, R72) -/

theorem advance_withMem (n : Option Stage) (s : State) (m : Memory) :
    advance n { s with mem := m } = { advance n s with mem := m } := by cases n <;> rfl

/-- A stage keeps the sequencer and the host's side, so exchanging those of the state it began with exchanges memory alone. -/
theorem StageDone.dressed_eq {s a : State} {st : Stage} (h : StageDone s st a) (m : Memory) :
    dressed a m s.stage s.busy s.done s.op s.script s.replies s.inFlight = { a with mem := m } := by
  obtain ⟨-, -, -, -, hop, hscript, hreplies, hflight, hbusy, hdone, hstage, -⟩ := h.frame
  rw [← hop, ← hscript, ← hreplies, ← hflight, ← hbusy, ← hdone, ← hstage]
  rfl

/-- The bytes that SER or DCP has written are bytes of the address space (R64, R67). -/
theorem StageDone.dstLen_top {s a : State} {st : Stage} (h : StageDone s st a) (hst : st = .ser ∨ st = .dcp) :
    s.dstBase.toNat + a.dstLen.toNat ≤ 2 ^ 32 := by
  rcases h.mem_frame with ⟨hser, hdcp, -⟩ | ⟨-, ⟨-, hr, -⟩, bs, rfl, hc⟩
  · exact absurd hst (by simp [hser, hdcp])
  · rw [emitted_dstLen hc]
    exact dstInRange.top hr hc

theorem bytesGiven_completed (s : State) {a : State} (n : Option Stage) (hb : a.busy = true) :
    bytesGiven s (advance n a) = if s.stage = .ser ∨ s.stage = .dcp then a.dstLen.toNat else 0 := by
  have hon : (advance n a).busy = true ∨ (advance n a).done = true := by
    cases n with
    | none => exact .inr rfl
    | some st => exact .inl hb
  unfold bytesGiven
  by_cases hst : s.stage = .ser ∨ s.stage = .dcp
  · rw [if_neg (by tauto), if_pos hon, if_pos hst, advance_dstLen]
  · rw [if_pos (by tauto), if_neg hst]

theorem code_windowError_or_sequenceError (e : ErrName) :
    e.code = 3 ∨ e.code = 5 ↔ e = .sequenceError ∨ e = .windowError := by
  cases e <;> decide

theorem bytesGiven_fault (s : State) (e : ErrName) (v : Word) :
    bytesGiven s (takeFault s.stage e v s) = if spoilsDst s.stage e then s.dstCap.toNat else 0 := by
  have hoff : ¬ ((takeFault s.stage e v s).busy = true ∨ (takeFault s.stage e v s).done = true) := by simp [takeFault_eq]
  have hcode : (takeFault s.stage e v s).errCode = 3 ∨ (takeFault s.stage e v s).errCode = 5 ↔
      e = .sequenceError ∨ e = .windowError := code_windowError_or_sequenceError e
  have hspoils := spoilsDst_iff (st := s.stage) (e := e)
  unfold bytesGiven
  rw [if_neg hoff]
  by_cases hst : s.stage = .ser ∨ s.stage = .dcp
  · rw [if_neg (by tauto)]
    by_cases he : e = .sequenceError ∨ e = .windowError
    · rw [if_pos (hcode.mpr he), if_neg (by tauto)]
    · rw [if_neg (mt hcode.mp he), if_pos (by tauto)]
  · rw [if_pos (by tauto), if_neg (by tauto)]

/-- The same bytes written to two memories: where they are written the two agree. -/
theorem memRead_putBytes_given (m m' : Memory) {a : Nat} {bs : List Byte} (htop : a + bs.length ≤ 2 ^ 32) (x : Nat) :
    memRead (putBytes m' a bs) x =
      if a ≤ x ∧ x < a + bs.length ∧ x < 2 ^ 32 then memRead (putBytes m a bs) x else memRead m' x := by
  split
  · next h =>
    rw [memRead_putBytes, memRead_putBytes, if_pos h.1, if_pos h.1, List.getD_eq_getElem _ _ (by omega),
      List.getD_eq_getElem _ _ (by omega)]
  · next h => exact putBytes_sameOutside m' a bs x (by omega)

/-- The destination window spoiled in two memories: inside it the two agree. -/
theorem memRead_spoil_given (s : State) (m : Memory) (x : Nat) :
    memRead (memSpoil m s.dstBase.toNat s.freeCount (dstBytes s)) x =
      if s.dstBase.toNat ≤ x ∧ x < s.dstBase.toNat + s.dstCap.toNat ∧ x < 2 ^ 32 then
        memRead (memSpoil s.mem s.dstBase.toNat s.freeCount (dstBytes s)) x
      else memRead m x := by
  have hwindow : s.dstBase.toNat ≤ x ∧ x < s.dstBase.toNat + s.dstCap.toNat ∧ x < 2 ^ 32 ↔
      s.dstBase.toNat ≤ x ∧ x < s.dstBase.toNat + dstBytes s := by
    unfold dstBytes Config.memSpace
    omega
  simp only [memRead_memSpoil, hwindow]
  split <;> rfl

/-- What stands in memory `m'`, after a step of a stage that has found memory `m`, beside a step from `s` to `t`. -/
def givenAs (s t : State) (m m' : Memory) : Prop :=
  ∀ x, memRead m' x =
    if s.dstBase.toNat ≤ x ∧ x < s.dstBase.toNat + bytesGiven s t ∧ x < 2 ^ 32 then memRead t.mem x else memRead m x

theorem givenAs_of_kept {s t : State} (m : Memory) (h : bytesGiven s t = 0) : givenAs s t m m := by
  intro x
  rw [h, if_neg (by omega)]

section otherMemory
variable {i : Instr} {s : State} {m : Memory} (hb : s.busy = true) (hs : s.stage ∈ i.stages) (hagree : agree s m)
include hb hs hagree

/-- A stage that completes, completes with the other memory, in the same registers and with the same bytes written. -/
theorem exec_otherMemory_completed {a : State} (hf : stageOf s.stage s = .ok a) :
    ∃ m', exec i { s with mem := m } = .next { advance (nextStage i.stages s.stage) a with mem := m' } ∧
      givenAs s (advance (nextStage i.stages s.stage) a) m m' := by
  have hdone := stageDone hf
  have hbusy : a.busy = true := by
    obtain ⟨-, -, -, -, -, -, -, -, hbusy, -⟩ := hdone.frame
    exact hbusy.trans hb
  rcases stageOf_view (g := s.stage) (b := s.busy) (d := s.done) (o := s.op) (l := s.script) (r := s.replies) (f := s.inFlight)
    s.stage hagree with ⟨a', m', hx, hy, bs, hm', hmem, hlen⟩ | ⟨e, hx, -⟩
  · obtain rfl : a = a' := Except.ok.inj (hf.symm.trans hx)
    rw [hdone.dressed_eq] at hy
    refine ⟨m', (exec_ok (s := { s with mem := m }) hb hs hy).trans (congrArg _ (advance_withMem ..)), fun x => ?_⟩
    have htop : s.dstBase.toNat + bs.length ≤ 2 ^ 32 := by
      rw [hlen]
      split
      · next hst => exact hdone.dstLen_top hst
      · exact s.dstBase.isLt.le
    rw [bytesGiven_completed s _ hbusy, ← hlen, advance_mem, hmem, hm']
    exact memRead_putBytes_given s.mem m htop x
  · rw [hf] at hx; simp at hx

/-- A stage that faults, takes the same fault with the other memory, and leaves the same bytes unspecified. -/
theorem exec_otherMemory_fault {e : ErrName} {v : Word} (hf : stageOf s.stage s = .error (.raised e v)) :
    ∃ m', exec i { s with mem := m } = .next { takeFault s.stage e v s with mem := m' } ∧
      givenAs s (takeFault s.stage e v s) m m' := by
  rcases stageOf_view (g := s.stage) (b := s.busy) (d := s.done) (o := s.op) (l := s.script) (r := s.replies) (f := s.inFlight)
    s.stage hagree with ⟨a, m', hx, -⟩ | ⟨x, hx, hy⟩
  · rw [hf] at hx; simp at hx
  · obtain rfl : Stop.raised e v = x := Except.error.inj (hf.symm.trans hx)
    have hexec : exec i { s with mem := m } = .next (takeFault s.stage e v { s with mem := m }) :=
      exec_raised (s := { s with mem := m }) hb hs hy
    have hgiven := bytesGiven_fault s e v
    cases hsp : spoilsDst s.stage e with
    | false =>
      rw [hsp] at hgiven
      refine ⟨m, hexec.trans ?_, givenAs_of_kept m hgiven⟩
      rw [takeFault_plain hsp, takeFault_plain hsp]
      rfl
    | true =>
      rw [hsp, if_pos rfl] at hgiven
      refine ⟨memSpoil m s.dstBase.toNat s.freeCount (dstBytes s), hexec.trans ?_, fun x => ?_⟩
      · rw [takeFault_eq, takeFault_eq, hsp]
        rfl
      · rw [hgiven, takeFault_eq, hsp]
        exact memRead_spoil_given s m x

end otherMemory

/-- Settles O52: a stage sees the source window and the registers alone, so with the other memory it ends in the same way and
gives the same bytes. -/
theorem stagesReadOnlyTheSourceWindow : Obligations.StagesReadOnlyTheSourceWindow := by
  intro i s t m h hsource
  have hagree : agree s m := fun k hk => hsource _ (Nat.le_add_right _ _) (by omega)
  obtain ⟨hb, hs, ⟨a, hf, rfl⟩ | ⟨e, v, hf, rfl⟩⟩ := exec_next h
  · exact exec_otherMemory_completed hb hs hagree hf
  · exact exec_otherMemory_fault hb hs hagree hf

/-! ### The window tests and the faults of SER (R64, R67, R165, R226) -/

/-- A window test that fails ends the stage in fault entry; memory stays as it is (R231). -/
theorem exec_windowError {i : Instr} {s : State} (hb : s.busy = true) (hs : s.stage ∈ i.stages) {k : Nat}
    (h : stageOf s.stage s = raise .windowError k) : exec i s = .next (faultEntry .windowError (BitVec.ofNat 32 k) s) :=
  exec_plainFault hb hs h (by simp [spoilsDst])

theorem cntStage_window {s : State} (h : ¬ srcInRange s) : cntStage s = raise .windowError 0 := by
  rw [cntStage, checkSrc_raise h, raise_bind]

theorem rcnStage_window {s : State} (h : ¬ srcInRange s) : rcnStage s = raise .windowError 0 := by
  rw [rcnStage_eq, checkSrc_raise h, raise_bind]

/-- SER and DCP, their prerequisite holding, raise what the test of both windows raises. -/
theorem stageOf_window {s : State}
    (hpre : (s.stage = .ser ∧ s.treeSrc = .built ∧ s.codesValid = true) ∨ (s.stage = .dcp ∧ s.treeSrc = .recon)) {k : Nat}
    (h : checkBoth s = raise .windowError k) : stageOf s.stage s = raise .windowError k := by
  rcases hpre with ⟨hst, hcodes⟩ | ⟨hst, htree⟩
  · rw [hst]; exact serStage_window hcodes h
  · rw [hst]; exact dcpStage_window htree h

/-- Settles O45: CNT and RCN test the source window alone, SER and DCP both windows, in the order of `checkBoth`. -/
theorem windowChecksComeInOrder : Obligations.WindowChecksComeInOrder := by
  refine fun i s hs hb => ⟨fun hst hsrc => ?_, fun hpre => ⟨fun hsrc => ?_, fun hsrc hdst => ?_,
    fun hsrc hdst hsome hroom hbelow habove => ?_⟩⟩
  · apply exec_windowError hb hs
    have hout : ¬ srcInRange s := Nat.not_le.mpr hsrc
    rcases hst with hst | hst
    · rw [hst]; exact cntStage_window hout
    · rw [hst]; exact rcnStage_window hout
  · exact exec_windowError hb hs (stageOf_window hpre (checkBoth_src (Nat.not_le.mpr hsrc)))
  · exact exec_windowError hb hs (stageOf_window hpre (checkBoth_dst hsrc (Nat.not_le.mpr hdst)))
  · exact exec_windowError hb hs (stageOf_window hpre (checkBoth_overlap hsrc hdst ⟨hsome, hroom, hbelow, habove⟩))

/-- Settles O26: the three ways the payload loop and the tail of SER can end early, at the first byte concerned. -/
theorem serFaultsInOrder : Obligations.SerFaultsInOrder := by
  rintro i s hser ⟨hb, hst⟩ htree hcodes hw
  have faults : ∀ {e : ErrName} {k : Nat}, serStage s = raise e k → faultsTo i s e k := fun h =>
    faultsTo_of hb (hst ▸ hser) (by rw [hst]; exact h)
  refine ⟨fun k hk hgood hbad hfits => faults ?_, fun k hk hgood hfull => faults ?_, fun hgood hlong => faults ?_⟩
  · rw [serStage_bad htree hcodes hw hk hgood hbad hfits]
    split <;> rfl
  · exact serStage_overflowAt htree hcodes hw hk hgood hfull
  · exact serStage_overflow htree hcodes hw hgood hlong

/-! ### The host's accesses and the windows in flight (R62, R63, R73, R78, R258) -/

/-- Settles O58: a read or a write outside the windows in flight is one byte read or one byte written. -/
theorem hostMemoryAccess : Obligations.HostMemoryAccess := by
  refine fun s a v rest => ⟨fun h => step_memRead h, fun h => ?_⟩
  rw [step_memWrite h]
  split
  · next hrace => exact if_pos hrace
  · next hfree =>
    exact ⟨memWrite s.mem a.toNat v, if_neg hfree, fun x => memRead_memWrite s.mem a.toNat x v⟩

/-- Settles O59: both events are a read of STATUS that shows BUSY = 0, after which no window is in flight. -/
theorem seeingBusyClearOpensTheWindows : Obligations.SeeingBusyClearOpensTheWindows := by
  intro s e rest hb he hs
  have hread : hostRegRead 0x001 { s with script := rest } =
      { s with script := rest, replies := .reg (statusWord s) :: s.replies, inFlight := [] } := by
    rw [hostRegRead, if_neg (by simp), if_pos ⟨hb, rfl⟩]
    rfl
  refine ⟨_, ?_, rfl, by simp⟩
  rw [← hread]
  rcases he with rfl | rfl
  · exact step_regRead hs (by decide)
  · exact step_wait_idle hs hb

/-- A read that is not a read of STATUS with BUSY = 0 leaves the windows in flight (U3). -/
theorem hostRegRead_inFlight {n : Nat} {s : State} (h : ¬ (s.busy = false ∧ n = 0x001)) :
    (hostRegRead n s).inFlight = s.inFlight := by
  unfold hostRegRead
  split <;> rfl

/-- The windows in flight stay so through every host operation but the three that end the span. -/
theorem HostDone.inFlight {s t : State} (h : HostDone s t) :
    s.inFlight ⊆ t.inFlight ∨ (∃ rest, s.script = .reset :: rest) ∨
      (s.busy = false ∧ ∃ rest, s.script = .regRead 0x001 :: rest ∨ s.script = .wait :: rest) := by
  cases h with
  | idle | turn | irq | stuck | memRead | memWrite => exact .inl (List.Subset.refl _)
  | wait rest hs hb => exact .inr (.inr ⟨hb, rest, .inr hs⟩)
  | regRead n rest hs =>
    by_cases hstatus : s.busy = false ∧ n = 0x001
    · obtain ⟨hb, rfl⟩ := hstatus
      exact .inr (.inr ⟨hb, rest, .inl hs⟩)
    · exact .inl fun w hw => (hostRegRead_inFlight (s := { s with script := rest }) hstatus).symm ▸ hw
  | regWrite n v rest => exact .inl (hostRegWrite_keeps n v { s with script := rest }).2
  | reset rest hs => exact .inr (.inl ⟨rest, hs⟩)

/-- Settles O60: an access to a window in flight is a race, no stage changes the windows in flight, and of the host's operations
only those that show BUSY = 0, and reset. -/
theorem windowsStayClosedUntilBusyReadsZero : Obligations.WindowsStayClosedUntilBusyReadsZero := by
  refine fun s w hw => ⟨fun a rest hs hin => ?_, fun a v rest hs hin => ?_, fun t h => ?_⟩
  · rw [step_memRead hs]
    exact if_pos ⟨w, hw, hin⟩
  · rw [step_memWrite hs]
    exact if_pos (hin.imp (fun hsrc => ⟨w, hw, hsrc⟩) fun hdst => ⟨w, hw, hdst⟩)
  · rcases step_cases h with ⟨i, l, -, -, he⟩ | hd
    · obtain ⟨-, -, -, -, -, -, -, -, -, -, hflight⟩ := htbKeepsTheHostRegisters i _ t he
      exact .inl (hflight ▸ hw)
    · exact hd.inFlight.imp_left fun hsub => hsub hw

end Sys2Proof.Machine
end

section
/-! Command words, the compressed file and the code field (spec/30_encoding.md): the nine words and the illegal ones; the windows
a running command was started with; the parts of the file; the field as it is written and as it is read. -/

namespace Sys2Proof.Machine

/-! ### The opcode map (R81, R82, R84) -/

/-- A word is a command when it is that command's word. -/
theorem decode_eq_ok_iff {w : Word} {i : Instr} : decode w = .ok i ↔ w = encode i :=
  ⟨eq_encode_of_decode, fun h => h ▸ decode_encode i⟩

/-- Settles O1: the table of R82 lists each command with its own word, which is the one word that decodes to it. -/
theorem decodeAcceptsExactlyNineWords : Obligations.DecodeAcceptsExactlyNineWords := by
  refine ⟨fun w i => ?_, fun i _ => decode_encode i⟩
  rw [decode_eq_ok_iff]
  cases i <;> simp [encode, Instr.opcode]

theorem forall_opcode_iff {p : Byte → Prop} :
    (∀ i : Instr, p i.opcode) ↔ p 0x01 ∧ p 0x02 ∧ p 0x03 ∧ p 0x04 ∧ p 0x05 ∧ p 0x06 ∧ p 0x07 ∧ p 0x10 ∧ p 0x11 := by
  refine ⟨fun h => ⟨h .clr, h .cnt, h .bld, h .asg, h .ser, h .rcn, h .dcp, h .enc, h .dec⟩, fun h i => ?_⟩
  obtain ⟨hclr, hcnt, hbld, hasg, hser, hrcn, hdcp, henc, hdec⟩ := h
  cases i <;> assumption

/-- A word is illegal when, as a number, it is no opcode (R84). -/
theorem decode_illegal_iff {w : Word} : (∀ i, decode w ≠ .ok i) ↔ ∀ i : Instr, w.toNat ≠ i.opcode.toNat := by
  simp only [ne_eq, decode_eq_ok_iff, ← BitVec.toNat_inj, encode_toNat]

theorem zeroField_ne_zero_iff {w : Word} : w.extractLsb' 8 24 ≠ 0 ↔ 2 ^ 8 ≤ w.toNat := by
  have hzero : (w.extractLsb' 8 24).toNat = w.toNat / 2 ^ 8 % 2 ^ 24 := by
    rw [BitVec.extractLsb'_toNat, Nat.shiftRight_eq_div_pow]
  have hw := w.isLt
  rw [ne_eq, ← BitVec.toNat_inj, hzero, BitVec.ofNat_eq_ofNat, BitVec.toNat_zero]
  omega

theorem opcodeField_toNat (w : Word) : (w.extractLsb' 0 8).toNat = w.toNat % 2 ^ 8 := BitVec.extractLsb'_toNat ..

/-- Settles O2: the numbers below 2^8 that are no opcode are the gaps of the opcode map, and `cmdWrite_illegal` says what an
illegal word does. -/
theorem illegalWordsRaiseIllegalCommandError : Obligations.IllegalWordsRaiseIllegalCommandError := by
  refine ⟨fun w => ?_, fun w s hill hb he => writesAs_cmd hb fun _ => cmdWrite_illegal (by simp [he]) hill⟩
  rw [decode_illegal_iff, forall_opcode_iff (p := fun o => w.toNat ≠ o.toNat), zeroField_ne_zero_iff, ← BitVec.toNat_inj,
    opcodeField_toNat]
  simp only [BitVec.ofNat_eq_ofNat, BitVec.toNat_ofNat]
  omega

/-- Settles O3: three command words, and a word for each reason of R84. -/
theorem sampleWordsDecode : Obligations.SampleWordsDecode :=
  ⟨decode_encode .clr, decode_encode .ser, decode_encode .dec, rfl, rfl⟩

/-! ### The windows of a running command (R23, R78, R85) -/

/-- With BUSY = 0 the record of the windows is not bound. -/
theorem InFlightLegal.idle {t : State} (hb : t.busy = false) : InFlightLegal t := by simp [InFlightLegal, hb]

theorem InFlightLegal.of_eq {s t : State} (h : InFlightLegal s) (hb : t.busy = s.busy) (hw : windowsOf t = windowsOf s)
    (hf : t.inFlight = s.inFlight) : InFlightLegal t := by
  unfold InFlightLegal
  rw [hb, hw, hf]
  exact h

theorem InFlightLegal.advance {s : State} (h : InFlightLegal s) (n : Option Stage) : InFlightLegal (advance n s) := by
  cases n with
  | none => exact .idle rfl
  | some st => exact h.of_eq rfl rfl rfl

/-- A completed stage keeps the windows and their record; a fault ends the command. -/
theorem exec_inFlightLegal {i : Instr} {s t : State} (hs : InFlightLegal s) (h : exec i s = .next t) : InFlightLegal t := by
  obtain ⟨-, -, ⟨s', hf, rfl⟩ | ⟨e, v, -, rfl⟩⟩ := exec_next h
  · obtain ⟨-, -, hw, -, -, -, -, hflight, hb, -⟩ := (stageDone hf).frame
    exact (hs.of_eq hb hw hflight).advance _
  · exact .idle rfl

/-- From BUSY = 0 a host operation leaves BUSY = 0, or accepts a command, which records its windows. -/
theorem HostEffect.inFlightLegal {s t : State} (h : HostEffect s t) (hb : s.busy = false) : InFlightLegal t := by
  cases h with
  | kept hk => exact .idle (hk.busy.trans hb)
  | accepted => exact fun _ => rfl
  | illegal | reset => exact .idle rfl

/-- With BUSY = 1 a host operation drops the write to a window register (R23), and only a reset ends the command. -/
theorem HostDone.inFlightLegal {s t : State} (h : HostDone s t) (hb : s.busy = true) (hs : InFlightLegal s) :
    InFlightLegal t := by
  cases h with
  | idle | turn | irq | stuck | memRead | memWrite => exact hs.of_eq rfl rfl rfl
  | wait rest _ hidle => simp [hb] at hidle
  | regRead n rest =>
    obtain ⟨r, f, k, hread, hflight⟩ := hostRegRead_cases n { s with script := rest }
    rw [hread]
    exact hs.of_eq rfl rfl (hflight hb)
  | regWrite n v rest =>
    have hdrop : hostRegWrite n v { s with script := rest } = { s with script := rest } := if_pos hb
    rw [hdrop]
    exact hs.of_eq rfl rfl rfl
  | reset => exact .idle rfl

/-- Settles O13: a stage keeps the windows and their record, and so does the host while BUSY = 1; accepting a command makes them
agree. -/
theorem stepKeepsWindowsOfRunningCommand : Obligations.StepKeepsWindowsOfRunningCommand := by
  intro s t hs h
  rcases step_cases h with ⟨i, l, -, -, he⟩ | hd
  · exact exec_inFlightLegal (s := { s with script := l }) (hs.of_eq rfl rfl rfl) he
  · cases hb : s.busy with
    | false => exact hd.effect.inFlightLegal hb
    | true => exact hd.inFlightLegal hb hs

/-! ### The code field (R92, R93) -/

theorem fieldBytes_getD (field : CodeField) {j : Nat} (hj : j < 16) :
    (fieldBytes field).getD j 0 = field.extractLsb' (120 - 8 * j) 8 := by
  rw [List.getD_eq_getElem _ _ (by simpa using hj)]
  simp [fieldBytes, fieldByte]

/-- 16 bytes as a number: each stands 8 bits above the next. -/
theorem fieldOfBytes_toNat {bs : List Byte} (h : bs.length = 16) :
    (fieldOfBytes bs).toNat = ((List.range 16).map fun j => (bs.getD j 0).toNat * 2 ^ (120 - 8 * j)).sum := by
  have hlt : bs.foldl (fun n b => n * 256 + b.toNat) 0 < 2 ^ 128 := by
    have := bytes_lt bs 0 0 (by decide)
    rwa [h] at this
  have hplace : ∀ j ∈ List.range 16,
      (bs.getD j 0).toNat * 256 ^ (16 - 1 - j) = (bs.getD j 0).toNat * 2 ^ (120 - 8 * j) := fun j _ => by
    rw [show 256 = 2 ^ 8 from rfl, ← Nat.pow_mul, show 8 * (16 - 1 - j) = 120 - 8 * j by omega]
  rw [fieldOfBytes, BitVec.toNat_ofNat, Nat.mod_eq_of_lt hlt, bytes_foldl, h, List.map_congr_left hplace, Nat.zero_mul,
    Nat.zero_add]

theorem codeBits_getD (field : CodeField) {j : Nat} (hj : j < codeLen field) :
    (codeBits field).getD j false = field.getLsbD (codeLen field - 1 - j) := by
  rw [List.getD_eq_getElem _ _ (by simpa using hj)]
  simp [codeBits]

/-- The sentinel is the highest bit of a nonzero field, so its position is floor(log2) (R93). -/
theorem codeLen_bounds {field : CodeField} (h : field ≠ 0) :
    2 ^ codeLen field ≤ field.toNat ∧ field.toNat < 2 ^ (codeLen field + 1) := by
  have hfield := toNat_eq_sentinel_add h
  have hval := bitsVal_lt (codeBits field)
  rw [codeBits_length] at hval
  omega

/-- Settles O29: writing and reading, each clause by the law of its own function. -/
theorem codeFieldRoundTrip : Obligations.CodeFieldRoundTrip := by
  refine ⟨fun c hc => ⟨fieldOf_toNat hc, codeBits_of_fieldOf hc⟩, fun field => ?bytes, fun bs h => fieldOfBytes_toNat h,
    fun field h => ?bits⟩
  case bytes => exact ⟨fieldBytes_length field, fun j hj => fieldBytes_getD field hj, fieldOfBytes_of_fieldBytes field⟩
  case bits =>
    obtain ⟨hlow, hhigh⟩ := codeLen_bounds h
    exact ⟨hlow, hhigh, codeBits_length field, fun j hj => codeBits_getD field hj, fieldOf_of_codeBits h⟩

/-! ### The compressed file (R90, R94, R95, R96) -/

/-- Settles O28: the file's length, and each of its parts at its offset. -/
theorem compressedFileLayout : Obligations.CompressedFileLayout := by
  intro s file count bits bytes
  refine ⟨?length, rfl, fun e he => ⟨file_entry s he (j := 0) (by decide), fun j hj => ?code⟩, fun b hb => ?payload, ?pad⟩
  case length =>
    show (compressedFile s).length = 17 * s.nsym.toNat + ((sourceBits s).length + 7) / 8 + 2
    rw [compressedFile_length]
    omega
  case code =>
    rw [show 2 + 17 * e + j = 1 + 17 * e + (j + 1) by omega, file_entry s he (Nat.succ_lt_succ hj)]
    exact fieldBytes_getD _ hj
  case payload =>
    rw [file_payload s (Nat.div_lt_of_lt_mul hb), payloadByte_bit _ _ (Nat.mod_lt b (by decide)), Nat.div_add_mod]
  case pad =>
    obtain ⟨hle, hsum⟩ := padCount_le bits.length
    have hpad : (BitVec.ofNat 8 (padCount bits.length)).toNat = padCount bits.length := by
      rw [BitVec.toNat_ofNat, Nat.mod_eq_of_lt (by omega)]
    exact ⟨_, file_pad s, hpad.trans_le hle, by rw [hpad, hsum]⟩

end Sys2Proof.Machine
end

section
/-! Session control (spec/40_session_control.md): the CLR stage completes from every state, and what it leaves. -/

namespace Sys2Proof.Machine

/-- The CLR stage looks at nothing before it completes: it cannot fault (R110). -/
theorem clrStage_ok (s : State) : stageOf .clr s = .ok (leaveFault (sessionClear s)) := rfl

/-- Settles O16: the stage completes with the session cleared and the fault state left, and CLR has no stage after it. -/
theorem clrClearsSessionAndFault : Obligations.ClrClearsSessionAndFault := by
  intro s h
  have hend : exec .clr s = .next (advance none (leaveFault (sessionClear s))) :=
    exec_at h (by simp [Instr.stages]) (clrStage_ok s)
  rw [hend, advance_none]
  rfl

end Sys2Proof.Machine
end

section
/-! The frequency count (spec/41_frequency_count.md): the CNT stage over a source window of symbols, and over one with a byte of
128 or more. -/

namespace Sys2Proof.Machine

/-- Settles O17: the stage completes with the occurrences counted (`cntStage_ok`), which sum to the number of bytes (R123), and
CNT has no stage after it. -/
theorem cntCountsTheSourceWindow : Obligations.CntCountsTheSourceWindow := by
  intro s h hw hsym
  obtain ⟨f, hf, hocc⟩ := cntStage_ok hw hsym
  have hend : exec .cnt s = .next (advance none { s with freq := f }) := exec_at h (by simp [Instr.stages]) hf
  exact ⟨f, hend.trans (congrArg _ (advance_none _)), hocc, freqTotal_of_occurrences hsym hocc⟩

/-- What the CNT stage does at the first source byte that is no symbol (R122). -/
theorem cntStage_bad {s : State} (hw : srcInRange s) {k : Nat} (hk : k < s.srcLen.toNat)
    (hgood : ∀ j < k, (srcByte s j).toNat < 128) (hbad : 128 ≤ (srcByte s k).toNat) :
    cntStage s = raise .unsupportedSymbolError k := by
  have hcount : countFrom s s.srcLen.toNat 0 freqZero = raise .unsupportedSymbolError k := by
    have h := countFrom_bad (s := s) (n := k) (more := s.srcLen.toNat - (k + 1)) (i := 0) (f := freqZero)
      (by simpa using hgood) (by simpa using hbad)
    rwa [Nat.add_sub_cancel' hk, Nat.zero_add] at h
  rw [cntStage, checkSrc_ok hw, ok_bind, hcount, raise_bind]

/-- Settles O18: what the stage raises is a fault that leaves the destination window as it was, since CNT does not write it. -/
theorem cntStopsAtTheFirstUnsupportedByte : Obligations.CntStopsAtTheFirstUnsupportedByte := by
  rintro i s k hcnt ⟨hb, hst⟩ hw hk hgood hbad
  have hraise : stageOf s.stage s = raise .unsupportedSymbolError k := by
    rw [hst]
    exact cntStage_bad hw hk hgood hbad
  exact exec_plainFault hb (hst ▸ hcnt) hraise (by simp [hst, spoilsDst])

end Sys2Proof.Machine
end

section
/-! The tree builder (spec/42_tree_build.md): the BLD stage over frequencies whose sum does not fit, and the records and the root it
leaves over frequencies whose sum does. -/

namespace Sys2Proof.Machine

/-- The records and the root that BLD leaves are those of `buildTree` (R130). -/
theorem execBld_tree {s t : State} (hat : atStage .bld s) (ht : freqTotal s.freq < 2 ^ 32) (h : exec .bld s = .next t) :
    t.nodes = (buildTree s.freq).1 ∧ t.root = (buildTree s.freq).2 := by
  rw [exec_at (i := .bld) hat (by simp [Instr.stages]) (bldStage_ok ht), Host.Outcome.next.injEq] at h
  subst h
  exact ⟨rfl, rfl⟩

/-- Settles O22: the greedy choice is part of the invariant of the merge, which `buildTree_merged` reads off the last round. -/
theorem bldMergesTheTwoLeast : Obligations.BldMergesTheTwoLeast := by
  intro s t hat ht hcount h
  obtain ⟨hnodes, hroot⟩ := execBld_tree hat ht h
  obtain ⟨hlength, hlast, -, hgreedy, hfreq, -⟩ := buildTree_merged ht hcount
  rw [hnodes, hroot]
  exact ⟨hgreedy, hlength, hlast, by omega, hfreq⟩

/-- Settles O19: the stage raises before it builds anything, and BLD does not write the destination window, so the fault leaves
it as it was. -/
theorem bldRefusesFrequencyOverflow : Obligations.BldRefusesFrequencyOverflow := by
  rintro i s hbld ⟨hb, hst⟩ ht
  have hraise : stageOf s.stage s = raise .freqOverflowError 0 := by
    rw [hst]
    exact bldStage_overflow ht
  exact exec_plainFault hb (hst ▸ hbld) hraise (by simp [hst, spoilsDst])

/-- What is allocated after the leaves, the root of one symbol or the records of the merge, leaves them as they are (R132). -/
theorem buildTree_leaf {f : Vector Word 128} (ht : freqTotal f < 2 ^ 32) {j : Nat} (hj : j < symCount f) :
    nodeNo (buildTree f).1 j =
      mkLeaf (BitVec.ofNat 7 ((presentSyms f 128).getD j 0)) (freqAt f ((presentSyms f 128).getD j 0)) := by
  obtain hone | hmany : symCount f = 1 ∨ 2 ≤ symCount f := by omega
  · have hlen := leaves_nodes_length f
    rw [buildTree_one hone, nodeNo_alloc_lt (by omega) (by omega), leaves_node hj]
  · exact (buildTree_merged ht hmany).leaf j hj

/-- Settles O21: the leaves are those of `buildTree_leaf`, and the trees of no and of one symbol are in the shape of R43. -/
theorem bldMakesTheLeaves : Obligations.BldMakesTheLeaves := by
  intro s t hat ht h
  obtain ⟨hnodes, hroot⟩ := execBld_tree hat ht h
  have hshape := buildTree_shape ht
  rw [hnodes, hroot]
  refine ⟨fun j hj => buildTree_leaf ht hj, hshape.empty, fun hone => ?_⟩
  obtain ⟨sym, f, htree, hr⟩ := hshape.single hone
  rw [htree]
  exact ⟨rfl, hr⟩

end Sys2Proof.Machine
end

section
/-! The code assigner (spec/43_code_assign.md): the ASG stage on a built tree completes with the path of each leaf, and no path to
a leaf begins another. -/

namespace Sys2Proof.Machine

theorem TreeLegal.builtShape {s : State} (h : TreeLegal s) (hsrc : s.treeSrc = .built) :
    BuiltShape s.nodes s.root s.nsym.toNat := by
  rw [TreeLegal, hsrc] at h
  exact h.1

/-- ASG on a built tree completes (R154: its walk is never too long) with the CODE table of the tree (R152). -/
theorem execAsg_built {s : State} (hat : atStage .asg s) (hsrc : s.treeSrc = .built)
    (h : BuiltShape s.nodes s.root s.nsym.toNat) :
    ∃ c, exec .asg s = .next (finished { s with code := c, codesValid := true }) ∧ CodesOfTree s.nodes s.root c := by
  obtain ⟨c, hstage, -, hcodes⟩ := asgStage_ok hsrc h
  exact ⟨c, exec_at (i := .asg) hat (by simp [Instr.stages]) hstage, hcodes⟩

section
variable {nodes : List Node} {root : NodeIdx} {n : Nat}

/-- The LEAF records of a built tree are its first `n` (R43). -/
theorem BuiltShape.leaf_index_lt (h : BuiltShape nodes root n) {m : NodeIdx} (hk : (nodeAt nodes m).kind = .leaf) :
    m.toNat < n := by
  have hm : m.toNat < nodes.length := by
    by_contra hge
    rw [nodeAt_of_ge (by omega)] at hk
    simp [Node.freeRecord] at hk
  rcases h.cases hm with ⟨hlt, -⟩ | ⟨-, l, r, f, hnode, -⟩
  · exact hlt
  · rw [← nodeNo_toNat, hnode] at hk
    simp at hk

/-- The symbols at which a leaf hangs are those of the first `n` records. -/
theorem BuiltShape.exists_leafAt_iff (h : BuiltShape nodes root n) {k : Nat} :
    (∃ p, leafAt nodes root p k) ↔ ∃ j < n, (nodeNo nodes j).sym.toNat = k := by
  constructor
  · rintro ⟨p, m, -, hk, rfl⟩
    exact ⟨m.toNat, h.leaf_index_lt hk, by rw [nodeNo_toNat]⟩
  · rintro ⟨j, hj, rfl⟩
    exact h.leaf_reachable hj

theorem BuiltShape.walkable_of_leafAt (h : BuiltShape nodes root n) {p : List Bool} {k : Nat} (hp : leafAt nodes root p k) :
    Walkable nodes root := by
  obtain ⟨j, hj, -⟩ := h.exists_leafAt_iff.mp ⟨p, hp⟩
  exact h.walkable (by omega)

/-- The one leaf of a tree of one symbol hangs on the LEFT edge of the root (R153). -/
theorem BuiltShape.single_path (h : BuiltShape nodes root 1) {p : List Bool} {k : Nat} (hp : leafAt nodes root p k) :
    p = [false] := by
  have hne := h.leaf_path_ne_nil hp
  obtain ⟨m, hm, -, -⟩ := hp
  obtain ⟨sym, f, rfl, rfl⟩ := h.single rfl
  have hlen : p.length ≤ 1 := by
    rcases h.walk_length hm with rfl | hle
    · simp
    · simpa using hle
  obtain ⟨b, rfl⟩ := List.length_eq_one_iff.mp (hlen.antisymm (List.length_pos_iff.mpr hne))
  cases b with
  | false => rfl
  | true => simp [follow, nodeAt] at hm

/-- In a built tree the path to one symbol never begins the path to another, since no leaf hangs below another (R155). -/
theorem BuiltShape.not_isPrefix_of_leafAt (h : BuiltShape nodes root n) {p q : List Bool} {k l : Nat} (hkl : k ≠ l)
    (hp : leafAt nodes root p k) (hq : leafAt nodes root q l) : ¬ p <+: q := by
  intro hpq
  have heq : p = q := (h.walkable_of_leafAt hp).leaf_not_below hp hq hpq
  exact hkl (Walkable.leaf_sym_unique hp (heq ▸ hq))

/-- Exactly the symbols with a leaf have a code (R155). -/
theorem CodesOfTree.ne_zero_iff {c : Vector CodeField 128} (hc : CodesOfTree nodes root c) (h : BuiltShape nodes root n)
    {k : Nat} : codeAt c k ≠ 0 ↔ ∃ p, leafAt nodes root p k := by
  constructor
  · exact hc.leaf_of_ne_zero
  · rintro ⟨p, hp⟩
    obtain ⟨-, hne, -⟩ := hc.bits h hp
    exact hne

end

/-- Settles O23: the CODE table is that of the tree, and the shape of R43 bounds the paths. -/
theorem asgWritesThePathOfEachLeaf : Obligations.AsgWritesThePathOfEachLeaf := by
  intro s hat hsrc hlegal
  have hshape := hlegal.builtShape hsrc
  obtain ⟨c, hend, hcodes⟩ := execAsg_built hat hsrc hshape
  refine ⟨c, hend, fun path k hp => ?_, hcodes.no_leaf, fun j hj => hshape.leaf_reachable hj⟩
  obtain ⟨-, -, hpos, hle⟩ := hcodes.bits hshape hp
  refine ⟨hcodes.code_of_leaf path k hp, hpos, hle, fun hone => ?_⟩
  rw [hone] at hshape
  exact hshape.single_path hp

/-- Settles O24: a nonzero CODE is the path to a leaf of its symbol, and no such path begins another. -/
theorem asgCodesArePrefixFree : Obligations.AsgCodesArePrefixFree := by
  intro s t hat hsrc hlegal hend
  have hshape := hlegal.builtShape hsrc
  obtain ⟨c, hc, hcodes⟩ := execAsg_built hat hsrc hshape
  rw [hc, Host.Outcome.next.injEq] at hend
  subst hend
  refine ⟨fun k _ => (hcodes.ne_zero_iff hshape).trans hshape.exists_leafAt_iff, fun k l hkl hk hl => ?_⟩
  obtain ⟨p, hp⟩ := hcodes.leaf_of_ne_zero hk
  obtain ⟨q, hq⟩ := hcodes.leaf_of_ne_zero hl
  obtain ⟨hkbits, -⟩ := hcodes.bits hshape hp
  obtain ⟨hlbits, -⟩ := hcodes.bits hshape hq
  show prefixFree (codeBits (codeAt c k)) (codeBits (codeAt c l))
  rw [hkbits, hlbits]
  exact ⟨hshape.not_isPrefix_of_leafAt hkl hp hq, hshape.not_isPrefix_of_leafAt hkl.symm hq hp⟩

end Sys2Proof.Machine
end

section
/-! The order of the entries (spec/44_serialize.md R163). -/

namespace Sys2Proof.Machine

theorem entryLe_total (nodes : List Node) : Std.Total (entryLe nodes) :=
  ⟨fun i j => by unfold entryLe; omega⟩

theorem entryLe_trans (nodes : List Node) : IsTrans Nat (entryLe nodes) :=
  ⟨fun i j k hij hjk => by unfold entryLe at *; omega⟩

/-- Of two entries, the earlier has the smaller frequency, or the same frequency and the smaller index. -/
theorem entryOrder_sorted (nodes : List Node) (count : Nat) : (entryOrder nodes count).Pairwise (keyLt nodes) := by
  have := entryLe_total nodes
  have := entryLe_trans nodes
  have hsorted : (entryOrder nodes count).Pairwise (entryLe nodes) := List.pairwise_insertionSort _ _
  refine (hsorted.and (entryOrder_nodup nodes count)).imp fun {i j} ⟨hle, hne⟩ => ?_
  rcases hle with hlt | ⟨heq, hij⟩
  · exact .inl hlt
  · exact .inr ⟨heq, hij.lt_of_ne hne⟩

/-- Settles O27: an insertion sort permutes and sorts, and the leaves of a built tree ascend by symbol (R43). -/
theorem entriesComeInPriorityOrder : Obligations.EntriesComeInPriorityOrder := by
  intro nodes root count h
  refine ⟨List.perm_insertionSort _ _, (entryOrder_sorted nodes count).imp_of_mem fun {j k} _ hk hkey => ?_⟩
  rcases hkey with hlt | ⟨heq, hjk⟩
  · exact .inl hlt
  · exact .inr ⟨BitVec.eq_of_toNat_eq heq, hjk, h.ascending j k hjk (mem_entryOrder.mp hk)⟩

end Sys2Proof.Machine
end

section
/-! The compressed file in memory (spec/44_serialize.md R160, R167, R168), and ENC stage by stage (R170). -/

namespace Sys2Proof.Machine

/-- The SER stage, when every source byte has a code and the file fits: it changes memory and DST_LEN alone. -/
theorem serStage_writes {s : State} (hbuilt : s.treeSrc = .built) (hvalid : s.codesValid = true) (hw : windowsLegal s)
    (hgood : ∀ k < s.srcLen.toNat, encodable s k) (hfits : (compressedFile s).length ≤ s.dstCap.toNat) :
    ∃ m, stageOf .ser s = .ok { s with mem := m, dstLen := BitVec.ofNat 32 (compressedFile s).length } ∧
      memHolds m s.dstBase.toNat (compressedFile s) ∧
      memSameOutside s.mem m s.dstBase.toNat (compressedFile s).length :=
  ⟨_, serStage_ok hbuilt hvalid hw hgood hfits, memHolds_putBytes _ _ _, putBytes_sameOutside _ _ _⟩

/-- Settles O25: the stage completes with the file in memory, and SER has no stage after it. -/
theorem serWritesTheCompressedFile : Obligations.SerWritesTheCompressedFile := by
  intro s hat hbuilt hvalid hw hgood hfits
  obtain ⟨m, hstage, hholds, hsame⟩ := serStage_writes hbuilt hvalid hw hgood hfits
  exact ⟨m, exec_at (i := .ser) hat (by decide) hstage, hholds, hsame, compressedFile_length s⟩

/-- The BLD stage on frequencies whose sum fits, with NSYM as the number of symbols (R132). -/
theorem bldStage_symCount {s : State} (ht : freqTotal s.freq < 2 ^ 32) :
    stageOf .bld s = .ok
      { s with
        nodes := (buildTree s.freq).1, root := (buildTree s.freq).2, nsym := BitVec.ofNat 8 (symCount s.freq), treeSrc := .built
        code := Vector.replicate 128 0, codesValid := false } := by
  rw [← leaves_seq]
  exact bldStage_ok ht

/-- A stage that completes ends its single command and hands on in ENC: only what the sequencer does next differs (R27, R170). -/
theorem exec_single_and_enc {i : Instr} {st : Stage} {s s' : State} (hat : atStage st s) (hi : i.stages = [st])
    (henc : st ∈ Instr.enc.stages) (hf : stageOf st s = .ok s') :
    exec i s = .next (finished s') ∧ exec .enc s = .next (advance (nextStage Instr.enc.stages st) s') := by
  have hsingle := exec_at (i := i) hat (by simp [hi]) hf
  rw [hi] at hsingle
  exact ⟨hsingle, exec_at hat henc hf⟩

/-- Settles O38: each stage completes as it does in its single command, and ENC's list names the next one. -/
theorem encCompletesStageByStage : Obligations.EncCompletesStageByStage := by
  refine fun s => ⟨fun hat => ?clr, fun hat hw hsym => ?cnt, fun hat ht => ?bld, fun hat hbuilt hlegal => ?asg,
    fun hat hbuilt hvalid hw hgood hfits => ?ser⟩
  case clr => exact exec_at hat (by decide) (clrStage_ok s)
  case cnt =>
    obtain ⟨f, hstage, hocc⟩ := cntStage_ok hw hsym
    obtain ⟨hcnt, henc⟩ := exec_single_and_enc (i := .cnt) hat rfl (by decide) hstage
    exact ⟨f, hcnt, henc, hocc, freqTotal_of_occurrences hsym hocc⟩
  case bld =>
    obtain ⟨hbld, henc⟩ := exec_single_and_enc (i := .bld) hat rfl (by decide) (bldStage_symCount ht)
    exact ⟨_, _, hbld, henc, buildTree_shape ht⟩
  case asg =>
    obtain ⟨c, hstage, -, hcodes⟩ := asgStage_ok hbuilt (hlegal.builtShape hbuilt)
    obtain ⟨hasg, henc⟩ := exec_single_and_enc (i := .asg) hat rfl (by decide) hstage
    exact ⟨c, hasg, henc, hcodes⟩
  case ser =>
    obtain ⟨m, hstage, hholds, hsame⟩ := serStage_writes hbuilt hvalid hw hgood hfits
    obtain ⟨hser, henc⟩ := exec_single_and_enc (i := .ser) hat rfl (by decide) hstage
    exact ⟨m, henc, hser.trans henc.symm, hholds, hsame⟩

end Sys2Proof.Machine
end

section
/-! A command of several stages against the single commands of its stages (spec/44_serialize.md R171, spec/46_decode.md R211): the
two runs go through the same stages, and what differs between them is OP and the host's side. -/

namespace Sys2Proof.Machine

/-- `t` is `s` but for OP and the host's side. -/
def sameButHost (s t : State) : Prop :=
  ∃ o l r f, t = { s with op := o, script := l, replies := r, inFlight := f }

theorem sameButHost.refl (s : State) : sameButHost s s := ⟨s.op, s.script, s.replies, s.inFlight, rfl⟩

theorem sameButHost.trans {s t u : State} (h : sameButHost s t) (h' : sameButHost t u) : sameButHost s u := by
  obtain ⟨_, _, _, _, rfl⟩ := h
  obtain ⟨_, _, _, _, rfl⟩ := h'
  exact ⟨_, _, _, _, rfl⟩

theorem sameButHost_seen (s : State) (l : List Event) : sameButHost s (seen s l) := ⟨_, _, _, _, rfl⟩

theorem sameButHost.busy_err {s t : State} (h : sameButHost s t) : t.busy = s.busy ∧ t.err = s.err := by
  obtain ⟨_, _, _, _, rfl⟩ := h
  exact ⟨rfl, rfl⟩

/-- The end of a command looks like the state that its last stage has left. -/
theorem sameButHost.looks {s t : State} (h : sameButHost (finished s) t) : looks s t := by
  obtain ⟨_, _, _, _, rfl⟩ := h
  exact ⟨_, _, _, _, _, _, _, rfl⟩

theorem looks.sameButHost_finished {s t : State} (h : Machine.looks s t) : sameButHost (finished s) (finished t) := by
  obtain ⟨_, _, _, _, _, _, _, rfl⟩ := h
  exact ⟨_, _, _, _, rfl⟩

theorem looks.sameButHost_takeFault {s t : State} (h : Machine.looks s t) (st : Stage) (e : ErrName) (v : Word) :
    sameButHost (Machine.takeFault st e v s) (Machine.takeFault st e v t) := by
  obtain ⟨_, _, _, _, _, _, _, rfl⟩ := h
  rw [takeFault_eq, takeFault_eq]
  exact ⟨_, _, _, _, rfl⟩

theorem looks_script (s : State) (l : List Event) : looks s { s with script := l } := ⟨_, _, _, _, _, _, _, rfl⟩

theorem looks.movedOn {s t : State} (h : Machine.looks s t) (st : Stage) : Machine.looks (movedOn st s) (movedOn st t) :=
  (looks_movedOn st s).symm.trans (h.trans (looks_movedOn st t))

/-- The stages of a list end alike from states that look alike. -/
theorem looks.stagesFrom {l : List Stage} {s t e : State} (h : Machine.looks s t) (hs : stagesFrom l s = some e) :
    ∃ e', stagesFrom l t = some e' ∧ sameButHost e e' := by
  induction l generalizing s t with
  | nil =>
    obtain rfl := Option.some.inj hs
    exact ⟨_, rfl, h.sameButHost_finished⟩
  | cons st l ih =>
    rw [Machine.stagesFrom] at hs
    rcases (h.movedOn st).stage st with ⟨a, c, ha, hc, hac⟩ | ⟨x, ha, hc⟩
    · rw [ha] at hs
      rw [stagesFrom_ok hc]
      exact ih hac hs
    · rw [ha] at hs
      cases x with
      | raised n v =>
        obtain rfl := Option.some.inj hs
        exact ⟨_, stagesFrom_raise hc, (h.movedOn st).sameButHost_takeFault st n v⟩
      | stuck r => simp at hs

/-- `cmd I; wait` from a state that looks like `s`: the run ends as the stages of `I` from `s` do. -/
theorem looks.runsTo_command {i : Instr} {s t e : State} {more : List Event} (h : Machine.looks s t)
    (hscript : t.script = cmd i :: .wait :: more) (hb : t.busy = false) (herr : t.err = false)
    (hs : Machine.stagesFrom i.stages s = some e) :
    ∃ u, runsTo t u ∧ sameButHost e u ∧ u.script = more ∧ u.inFlight = [] := by
  obtain ⟨e', he', hsame⟩ := (h.trans (looks_accept i t (.wait :: more))).stagesFrom hs
  exact ⟨seen e' more, Machine.runsTo_command hscript hb (by simp [herr]) he', hsame.trans (sameButHost_seen e' more), rfl, rfl⟩

/-- The host issues the commands one after the other, with a `wait` after each (R87). -/
def eachInTurn (l : List Instr) : List Event := l.flatMap fun i => [cmd i, .wait]

/-- After a fault the commands other than CLR are dropped (R232). -/
theorem runsTo_eachInTurn_dropped {l : List Instr} (hclr : .clr ∉ l) {t : State} (hscript : t.script = eachInTurn l)
    (hb : t.busy = false) (herr : t.err = true) (hseen : t.inFlight = []) :
    ∃ u, runsTo t u ∧ sameButHost t u ∧ u.script = [] ∧ u.inFlight = [] := by
  induction l generalizing t with
  | nil => exact ⟨t, runsTo_refl t, .refl t, hscript, hseen⟩
  | cons i l ih =>
    obtain ⟨hi, hl⟩ := List.ne_and_not_mem_of_not_mem_cons hclr
    obtain ⟨u, hrun, hsame, hend⟩ := ih hl (t := seen t (eachInTurn l)) rfl hb herr rfl
    exact ⟨u, (runsTo_dropped hscript hb herr hi.symm).trans hrun, (sameButHost_seen t _).trans hsame, hend⟩

/-- A completed stage sets no ERR (R29). -/
theorem StageDone.err_false {s t : State} {st : Stage} (h : StageDone s st t) (herr : s.err = false) : t.err = false := by
  rcases h.fault_frame with ⟨-, hcleared, -⟩ | ⟨-, hkept, -⟩
  · exact hcleared
  · exact hkept.trans herr

/-- Single commands in turn, from the end `t` of a command that left `s`: the run ends as their stages from `s` do. -/
theorem runsTo_eachInTurn {l : List Instr} (hclr : .clr ∉ l) (hsingle : ∀ i ∈ l, i.stages = [i.firstStage]) {s t e : State}
    (hs : stagesFrom (l.map Instr.firstStage) s = some e) (hst : sameButHost (finished s) t) (herr : s.err = false)
    (hscript : t.script = eachInTurn l) (hseen : t.inFlight = []) :
    ∃ u, runsTo t u ∧ sameButHost e u ∧ u.script = [] ∧ u.inFlight = [] := by
  induction l generalizing s t with
  | nil =>
    obtain rfl := Option.some.inj hs
    exact ⟨t, runsTo_refl t, hst, hscript, hseen⟩
  | cons i l ih =>
    obtain ⟨-, hl⟩ := List.ne_and_not_mem_of_not_mem_cons hclr
    obtain ⟨hi, hsingle⟩ := List.forall_mem_cons.mp hsingle
    obtain ⟨htb, hte⟩ := hst.busy_err
    have hrun {e' : State} (h : stagesFrom [i.firstStage] s = some e') :=
      hst.looks.runsTo_command hscript htb (hte.trans herr) (hi ▸ h)
    rw [List.map_cons, stagesFrom] at hs
    cases hf : stageOf i.firstStage (movedOn i.firstStage s) with
    | ok a =>
      rw [hf] at hs
      obtain ⟨u, htu, hau, huscript, huseen⟩ := hrun (stagesFrom_ok hf)
      obtain ⟨v, huv, hev, hend⟩ := ih hl hsingle hs hau ((stageDone hf).err_false herr) huscript huseen
      exact ⟨v, htu.trans huv, hev, hend⟩
    | error x =>
      rw [hf] at hs
      cases x with
      | stuck r => simp at hs
      | raised n v =>
        obtain rfl := Option.some.inj hs
        obtain ⟨hfb, -, hferr, -⟩ := takeFault_ends i.firstStage n v (movedOn i.firstStage s)
        obtain ⟨u, htu, heu, huscript, huseen⟩ := hrun (stagesFrom_raise hf)
        obtain ⟨hub, hue⟩ := heu.busy_err
        obtain ⟨w, huw, huw', hend⟩ := runsTo_eachInTurn_dropped hl huscript (hub.trans hfb) (hue.trans hferr) huseen
        exact ⟨w, htu.trans huw, heu.trans huw', hend⟩

theorem stagesFrom_not_busy {l : List Stage} {s e : State} (h : stagesFrom l s = some e) : e.busy = false := by
  induction l generalizing s with
  | nil =>
    obtain rfl := Option.some.inj h
    rfl
  | cons st l ih =>
    rw [stagesFrom] at h
    split at h
    · exact ih h
    · obtain rfl := Option.some.inj h
      exact (takeFault_ends ..).1
    · simp at h

/-- Two runs of the host that ended alike and have been seen to end are equal but for OP and what the host has read. -/
theorem sameButHost.eq {e t u : State} (ht : sameButHost e t) (hu : sameButHost e u) (hscript : u.script = t.script)
    (hflight : u.inFlight = t.inFlight) : { u with op := t.op, replies := t.replies } = t := by
  obtain ⟨_, _, _, _, rfl⟩ := ht
  obtain ⟨_, _, _, _, rfl⟩ := hu
  dsimp only at hscript hflight
  subst hscript hflight
  rfl

/-- A command whose stages are CLR and those of the single commands `l` leaves what CLR and the commands `l` in turn leave. -/
theorem command_equals_parts {i : Instr} {l : List Instr} (hi : i.stages = .clr :: l.map Instr.firstStage) (hclr : .clr ∉ l)
    (hsingle : ∀ j ∈ l, j.stages = [j.firstStage]) {s : State} (hb : s.busy = false) (herr : s.err = false) :
    ∃ t u, runsTo { s with script := [cmd i, .wait] } t ∧ t.script = [] ∧ t.busy = false ∧
      runsTo { s with script := eachInTurn (.clr :: l) } u ∧ u.script = [] ∧
      { u with op := t.op, replies := t.replies } = t := by
  obtain ⟨e, he⟩ := stagesFrom_some (idle_not_mem i) (s := s) (.inr (by simp [hi]))
  obtain ⟨t, hst, het, htscript, htseen⟩ := (looks_script s [cmd i, .wait]).runsTo_command rfl hb herr he
  have hfirst : stagesFrom Instr.clr.stages s = some (finished (leaveFault (sessionClear (movedOn .clr s)))) := rfl
  obtain ⟨c, hsc, hclear, hcscript, hcseen⟩ := (looks_script s (eachInTurn (.clr :: l))).runsTo_command rfl hb herr hfirst
  rw [hi] at he
  obtain ⟨u, hcu, heu, huscript, huseen⟩ := runsTo_eachInTurn hclr hsingle he hclear rfl hcscript hcseen
  exact ⟨t, u, hst, htscript, het.busy_err.1.trans (stagesFrom_not_busy he), hsc.trans hcu, huscript,
    het.eq heu (huscript.trans htscript.symm) (huseen.trans htseen.symm)⟩

/-- Settles O40: the stages of ENC are CLR and those of the four other single commands. -/
theorem encEqualsItsParts : Obligations.EncEqualsItsParts := fun _ hb herr =>
  command_equals_parts (i := .enc) (l := [.cnt, .bld, .asg, .ser]) rfl (by decide) (by decide) hb herr

end Sys2Proof.Machine
end

section
/-! ENC in a window that is large enough (spec/44_serialize.md R172). -/

namespace Sys2Proof.Machine

/-- No file is longer than the bound of R172: at most 128 entries, and at most 127 bits a source byte (R154). -/
theorem compressedFile_length_le {s : State} (h : s.nsym.toNat ≤ 128) :
    (compressedFile s).length ≤ 2178 + (127 * s.srcLen.toNat + 7) / 8 := by
  have hbits := sourceBits_length_le s
  have hlen := compressedFile_length s
  omega

/-- What has been emitted lies outside the source window, so the file that the state stands for stays the same (R64). -/
theorem compressedFile_emitted {s : State} (hw : ¬ windowsOverlap s) {bs : List Byte} (hfits : bs.length ≤ s.dstCap.toNat) :
    compressedFile (emitted s bs) = compressedFile s :=
  compressedFile_view (s := { s with dstLen := BitVec.ofNat 32 bs.length }) fun _ hi => srcByte_emitted hw hfits hi

theorem windowsLegal_of_windowsOf {s t : State} (h : windowsOf t = windowsOf s) (hw : windowsLegal s) : windowsLegal t := by
  simp only [windowsOf, Windows.mk.injEq] at h
  obtain ⟨hsrc, hlen, hdst, hcap⟩ := h
  unfold windowsLegal srcInRange dstInRange windowsOverlap
  rw [hsrc, hlen, hdst, hcap]
  exact hw

/-- Settles O42: the stages before SER leave a tree, its codes and a code for each source byte; the file then fits. -/
theorem encCompletesWithEnoughRoom : Obligations.EncCompletesWithEnoughRoom := by
  intro s hb herr hscript hw hsym hroom
  obtain ⟨q, hstages, hready, hmem, hwin, hqerr, -⟩ := enc_before_ser (s := accept .enc { s with script := [.wait] }) hw.1 hsym
  have hwq : windowsLegal q := windowsLegal_of_windowsOf hwin hw
  simp only [windowsOf, Windows.mk.injEq] at hwin
  obtain ⟨-, hlen, hdst, hcap⟩ := hwin
  have hfits : (compressedFile q).length ≤ q.dstCap.toNat := by
    have hle := compressedFile_length_le hready.shape.count_le
    rw [hlen] at hle
    rw [hcap]
    exact hle.trans hroom
  have hrun := runsTo_command hscript hb (by simp [herr]) (hstages.trans (ser_end hready hwq hfits))
  have hlength : (emitted q (compressedFile q)).dstLen.toNat = (compressedFile q).length := emitted_dstLen hfits
  have hfile : compressedFile (seen (finished (emitted (movedOn .ser q) (compressedFile q))) []) = compressedFile q :=
    compressedFile_emitted hwq.2.2 hfits
  refine ⟨_, hrun, rfl, rfl, rfl, hqerr, hready.built, hready.valid, ?_⟩
  rw [hfile, show s.dstBase = q.dstBase from hdst.symm, show s.mem = q.mem from hmem.symm]
  exact ⟨hlength, memHolds_putBytes _ _ _, hlength ▸ putBytes_sameOutside _ _ _⟩

end Sys2Proof.Machine
end

section
/-! The tree reconstructor (spec/45_reconstruct.md): its tests on the header and on the first entry that does not pass, and that
the order of the entries does not matter to what it builds. -/

namespace Sys2Proof.Machine

/-! ### The tests (R181, R184, R187) -/

/-- RCN does not write the destination window, so what its stage raises is fault entry and nothing else (R230). -/
theorem exec_rcn_formatError {i : Instr} {s : State} {k : Nat} (hrcn : .rcn ∈ i.stages) (hat : atStage .rcn s)
    (h : rcnStage s = raise .formatError k) : exec i s = .next (faultEntry .formatError (BitVec.ofNat 32 k) s) := by
  obtain ⟨hb, hst⟩ := hat
  exact exec_plainFault hb (hst ▸ hrcn) (by rw [hst]; exact h) (by simp [hst, spoilsDst])

section header
variable {s : State} (hsrc : srcInRange s)
include hsrc

theorem rcnStage_short (h : ¬ 2 ≤ s.srcLen.toNat) : rcnStage s = raise .formatError s.srcLen.toNat := by
  rw [rcnStage_eq, checkSrc_ok hsrc, ok_bind, require_false h, raise_bind]

theorem rcnStage_badCount (h2 : 2 ≤ s.srcLen.toNat) (h : ¬ fileCount s ≤ 128) : rcnStage s = raise .formatError 0 := by
  rw [rcnStage_eq, checkSrc_ok hsrc, ok_bind, require_true h2, ok_bind, require_false h, raise_bind]

theorem rcnStage_truncated (h2 : 2 ≤ s.srcLen.toNat) (hcount : fileCount s ≤ 128)
    (h : ¬ 17 * fileCount s + 2 ≤ s.srcLen.toNat) : rcnStage s = raise .formatError s.srcLen.toNat := by
  rw [rcnStage_eq, checkSrc_ok hsrc, ok_bind, require_true h2, ok_bind, require_true hcount, ok_bind, require_false h, raise_bind]

end header

/-- Settles O32: each clause is the stage's test of that name, those before it passed. -/
theorem rcnChecksTheHeader : Obligations.RcnChecksTheHeader := by
  intro i s hrcn hat hsrc
  have hlen : BitVec.ofNat 32 s.srcLen.toNat = s.srcLen := by rw [BitVec.ofNat_toNat, BitVec.setWidth_eq]
  refine ⟨fun hshort => ?_, fun h2 hcount => ?_, fun h2 hcount hshort => ?_⟩
  · rw [exec_rcn_formatError hrcn hat (rcnStage_short hsrc (Nat.not_le.mpr hshort)), hlen]
  · exact exec_rcn_formatError hrcn hat (rcnStage_badCount hsrc h2 (Nat.not_le.mpr hcount))
  · rw [exec_rcn_formatError hrcn hat (rcnStage_truncated hsrc h2 hcount (Nat.not_le.mpr hshort)), hlen]

section entry
variable {s : State} {e : Nat}

theorem entryFault_badSym (h : ¬ entrySym s e < 128) : entryFault s e = entryOff e := if_pos h

theorem entryFault_badField (hsym : entrySym s e < 128) (h : ¬ entryReadable s e) : entryFault s e = entryOff e + 1 := by
  rw [entryFault, if_neg (not_not.mpr hsym), if_pos h]

theorem entryFault_repeated (hread : entryReadable s e) (h : ∃ e' < e, entrySym s e' = entrySym s e) :
    entryFault s e = entryOff e := by
  rw [entryFault, if_neg (not_not.mpr hread.1), if_neg (not_not.mpr hread), if_pos h]

theorem entryFault_conflict (hread : entryReadable s e) (hsym : ∀ e' < e, entrySym s e' ≠ entrySym s e) :
    entryFault s e = entryOff e + 1 := by
  rw [entryFault, if_neg (not_not.mpr hread.1), if_neg (not_not.mpr hread), if_neg]
  rintro ⟨e', he', hsame⟩
  exact hsym e' he' hsame

end entry

/-- Settles O33: in each clause the entry is not good, and the tests before the clause's own have passed. -/
theorem rcnChecksEachEntry : Obligations.RcnChecksEachEntry := by
  intro i s e hrcn hat hfits he hgood
  have faults : ∀ {k}, entryFault s e = k → ¬ (entryReadable s e ∧ entryNew s e) →
      exec i s = .next (faultEntry .formatError (BitVec.ofNat 32 k) s) := by
    rintro k rfl hbad
    exact exec_rcn_formatError hrcn hat (rcnStage_entryFault hfits he hgood hbad)
  have badField : entrySym s e < 128 → ¬ entryReadable s e →
      exec i s = .next (faultEntry .formatError (BitVec.ofNat 32 (entryOff e + 1)) s) := fun hsym hread =>
    faults (entryFault_badField hsym hread) fun hok => hread hok.1
  refine ⟨fun hsym => ?_, fun hsym hzero => ?_, fun hsym hone => ?_, fun hread hsame => ?_, fun hread hsym hconf => ?_⟩
  · exact faults (entryFault_badSym (Nat.not_lt.mpr hsym)) fun hok => Nat.not_lt.mpr hsym hok.1.1
  · exact badField hsym fun hread => hread.2.1 hzero
  · exact badField hsym fun hread => hread.2.2 (by rw [hone]; decide)
  · refine faults (entryFault_repeated hread hsame) fun hok => ?_
    obtain ⟨e', he', hs⟩ := hsame
    exact (hok.2 e' he').1 hs
  · refine faults (entryFault_conflict hread hsym) fun hok => ?_
    obtain ⟨e', he', hpre⟩ := hconf
    obtain ⟨-, hfree, hfree'⟩ := hok.2 e' he'
    exact hpre.elim hfree hfree'

/-! ### The order of the entries (R191) -/

/-- The first `n` entries of the file in the source window, as symbols with their fields (R191). -/
abbrev entryPairs (s : State) (n : Nat) : List (Nat × CodeField) :=
  (List.range n).map fun e => (entrySym s e, entryField s e)

/-- The tests on the entries are tests on each entry and on each two entries, in either order (R184, R187). -/
theorem entriesGood_perm {s s' : State} {n n' : Nat} (h : (entryPairs s n).Perm (entryPairs s' n')) (hgood : entriesGood s n) :
    entriesGood s' n' := by
  rw [entriesGood_iff] at hgood ⊢
  obtain ⟨hread, hnew⟩ := hgood
  exact ⟨fun x hx => hread x (h.mem_iff.mpr hx), (h.pairwise_iff fun hxy => ⟨hxy.1.symm, hxy.2.symm⟩).mp hnew⟩

/-- The leaves are read off the entries, whatever their order (R188). -/
theorem ReconInv.leafAt_iff {s : State} {n : Nat} (hgood : entriesGood s n) {r : Recon} (h : ReconInv (fileEntries s n) r)
    (path : List Bool) (k : Nat) :
    leafAt r.nodes 0 path k ↔ ∃ x ∈ entryPairs s n, x.1 = k ∧ codeBits x.2 = path := by
  rw [(h.entries hgood).1]
  simp [entryPairs, entryCode]

/-- A CODE table is fixed by the tree seen as a tree: which symbol hangs at which path (R45). -/
theorem CodesOfTree.unique {nodes nodes' : List Node} {root root' : NodeIdx} {c c' : Vector CodeField 128}
    (h : CodesOfTree nodes root c) (h' : CodesOfTree nodes' root' c')
    (hleaf : ∀ path k, leafAt nodes' root' path k ↔ leafAt nodes root path k) : c' = c := by
  refine code_ext fun k _ => ?_
  by_cases hk : ∃ path, leafAt nodes root path k
  · obtain ⟨path, hp⟩ := hk
    rw [h.code_of_leaf path k hp, h'.code_of_leaf path k ((hleaf path k).mpr hp)]
  · rw [not_exists] at hk
    rw [h.no_leaf k hk, h'.no_leaf k fun path hp => hk path ((hleaf path k).mp hp)]

theorem exec_rcn_ok {s : State} (hat : atStage .rcn s) {r : Recon} (h : rcnStage s = .ok (reconstructed s r)) :
    exec .rcn s = .next (finished (reconstructed s r)) :=
  exec_at (i := .rcn) hat (by simp [Instr.stages]) h

/-- RCN completes only on a file whose entries pass its tests. -/
theorem exec_rcn_done {s t : State} (hat : atStage .rcn s) (h : exec .rcn s = .next t) (hdone : t.done = true) :
    entriesGood s (fileCount s) ∧ ∃ r, t = finished (reconstructed s r) ∧ ReconInv (fileEntries s (fileCount s)) r := by
  obtain ⟨-, hgood, r, hstage, hinv⟩ | ⟨-, e, v, hstage, -⟩ := rcnStage_cases s
  · rw [exec_rcn_ok hat hstage, Host.Outcome.next.injEq] at h
    exact ⟨hgood, r, h.symm, hinv⟩
  · obtain ⟨hb, hst⟩ := hat
    rw [exec_raised hb (by simp [hst, Instr.stages]) (by rw [hst]; exact hstage), Host.Outcome.next.injEq] at h
    subst h
    exact absurd hdone (by simp [takeFault_eq])

/-- Settles O34: the entries of the second file pass the tests because those of the first do; the leaves are the entries, and the
CODE table follows the leaves. -/
theorem rcnIgnoresEntryOrder : Obligations.RcnIgnoresEntryOrder := by
  intro s s' hat hat' _ hfits' _ hperm t hexec hdone
  obtain ⟨hgood, r, rfl, hinv⟩ := exec_rcn_done hat hexec hdone
  have hgood' := entriesGood_perm hperm hgood
  obtain ⟨r', hstage', hinv'⟩ := rcnStage_ok hfits' hgood'
  have hleaf : ∀ path k, leafAt r'.nodes 0 path k ↔ leafAt r.nodes 0 path k := fun path k => by
    rw [hinv.leafAt_iff hgood, hinv'.leafAt_iff hgood']
    simp only [hperm.mem_iff]
  exact ⟨_, exec_rcn_ok hat' hstage', rfl, hinv.codesOfTree.unique hinv'.codesOfTree hleaf, hleaf⟩

end Sys2Proof.Machine
end

section
/-! The bitstream decoder (spec/46_decode.md): the DCP stage on whole codes, its tests, and the ends of its walk that are faults;
DEC stage by stage (R210), and DEC against the single commands (R211). -/

namespace Sys2Proof.Machine

/-! ### The walk over a reconstructed tree (R204, R206, R207) -/

theorem ReconShape.root_not_leaf {nodes : List Node} {root : NodeIdx} {n : Nat} (h : ReconShape nodes root n) :
    (nodeAt nodes root).kind ≠ .leaf := by
  obtain rfl := h.root_zero
  exact fun hleaf => absurd (h.root_internal.symm.trans hleaf) (by decide)

/-- A walk that ends on a record other than a LEAF gives out nothing (R204). -/
theorem runBits_internal {nodes : List Node} {root cur n : NodeIdx}
    (hlc : ∀ m, (nodeAt nodes m).kind = .leaf → ∀ b, childOf (nodeAt nodes m) b = Config.nil) {cap k : Nat} {q : List Bool}
    {out : List Byte} (hf : follow nodes q cur = some n) (hn : (nodeAt nodes n).kind = .internal) :
    runBits nodes root cap q k cur out = .ended n out := by
  rcases eq_or_ne q [] with rfl | hq
  · obtain rfl := Option.some.inj hf
    rfl
  · rw [runBits_path hlc hq hf, if_neg (by simp [hn])]

/-- A bit that leads to a missing child ends the walk (R206). -/
theorem runBits_missing {nodes : List Node} {root cur : NodeIdx} {bit : Bool} (h : childOf (nodeAt nodes cur) bit = Config.nil)
    (cap : Nat) (more : List Bool) (k : Nat) (out : List Byte) :
    runBits nodes root cap (bit :: more) k cur out = .missing k := if_pos h

section walk
variable {s : State} (hshape : ReconShape s.nodes s.root s.nsym.toNat) {read rest : List Bool} {out : List Byte}
  (hbits : walkedBits s = read ++ rest) (hcodes : codesOf s.nodes s.root read out)
include hshape hbits hcodes

/-- After the codes of the symbols `out` the walk stands at the root again, `out` given out (R204, R208). -/
theorem dcpRun_after_codes (hfits : out.length ≤ s.dstCap.toNat) :
    dcpRun s = runBits s.nodes s.root s.dstCap.toNat rest read.length s.root out := by
  rw [dcpRun, hbits, runBits_append,
    runBits_codes hshape.walkable.leaf_childless_at hshape.root_not_leaf hcodes (by simpa using hfits)]
  simp

/-- The symbols `out` do not fit, whatever bits come after their codes (R208). -/
theorem dcpRun_full (hfull : s.dstCap.toNat < out.length) : dcpRun s = .full := by
  rw [dcpRun, hbits]
  exact runBits_codes_full hshape.walkable.leaf_childless_at hshape.root_not_leaf hcodes (Nat.zero_le _) (by simpa using hfull)

/-- After the codes of `out` the bits `q` lead to an INTERNAL record `n`, and `more` is still to walk. -/
theorem dcpRun_inside {q more : List Bool} {n : NodeIdx} (hfits : out.length ≤ s.dstCap.toNat) (hrest : rest = q ++ more)
    (hf : follow s.nodes q s.root = some n) (hn : (nodeAt s.nodes n).kind = .internal) :
    dcpRun s = runBits s.nodes s.root s.dstCap.toNat more (read.length + q.length) n out := by
  rw [dcpRun_after_codes hshape hbits hcodes hfits, hrest, runBits_append,
    runBits_internal hshape.walkable.leaf_childless_at hf hn]

end walk

/-! ### The stage (R203 to R208) -/

/-- The DCP stage on whole codes of symbols that fit: it changes memory and DST_LEN alone. -/
theorem dcpStage_writes {s : State} {out : List Byte} (hshape : ReconShape s.nodes s.root s.nsym.toNat) (htree : s.treeSrc = .recon)
    (hw : windowsLegal s) (hpay : payloadFits s) (hcodes : codesOf s.nodes s.root (walkedBits s) out)
    (hfits : out.length ≤ s.dstCap.toNat) :
    ∃ m, stageOf .dcp s = .ok { s with mem := m, dstLen := BitVec.ofNat 32 out.length } ∧
      memHolds m s.dstBase.toNat out ∧ memSameOutside s.mem m s.dstBase.toNat out.length := by
  have hrun : dcpRun s = .ended s.root out := dcpRun_after_codes hshape (List.append_nil _).symm hcodes hfits
  have hstage : dcpStage s = .ok (emitted s out) := by
    rw [dcpStage_of_fits htree hw hpay, hrun]
    exact if_pos rfl
  exact ⟨_, hstage, memHolds_putBytes _ _ _, putBytes_sameOutside _ _ _⟩

/-- Settles O35: the stage completes with the symbols in memory, and DCP has no stage after it. -/
theorem dcpDecodesThePayload : Obligations.DcpDecodesThePayload := by
  intro s out hat hshape htree hw hpay hcodes hfits
  obtain ⟨m, hstage, hwritten⟩ := dcpStage_writes hshape htree hw hpay hcodes hfits
  exact ⟨m, exec_at (i := .dcp) hat (by decide) hstage, hwritten⟩

/-- What the DCP stage raises is the fault of the command. -/
theorem faultsTo_of_dcpStage {i : Instr} {s : State} {e : ErrName} {k : Nat} (hdcp : .dcp ∈ i.stages) (hat : atStage .dcp s)
    (h : dcpStage s = raise e k) : faultsTo i s e k := by
  obtain ⟨hb, hst⟩ := hat
  exact faultsTo_of hb (hst ▸ hdcp) (by rw [hst]; exact h)

/-- Settles O36: the length is tested first; a file of good length that fails a test on its pad count does not pass as a payload. -/
theorem dcpChecksLengthAndPadCount : Obligations.DcpChecksLengthAndPadCount := by
  intro i s hdcp hat htree hw
  refine ⟨fun hshort => ?_, fun hlen hpad => ?_, fun hlen hpad => ?_⟩
  · exact faultsTo_of_dcpStage hdcp hat (dcpStage_short htree hw (Nat.not_le.mpr hshort))
  · exact faultsTo_of_dcpStage hdcp hat (dcpStage_badPad htree hw hlen fun ⟨_, hok, _⟩ => Nat.not_le.mpr hpad hok)
  · have hempty : payloadOff s = s.srcLen.toNat - 1 := by unfold payloadOff; omega
    exact faultsTo_of_dcpStage hdcp hat (dcpStage_badPad htree hw hlen.le fun ⟨_, _, hok⟩ => hok ⟨hempty, hpad⟩)

/-- Settles O37: after the codes of `out` the walk meets the missing child, stops below the root, or has met a symbol that does not
fit before. -/
theorem dcpFindsTheFaultOfThePayload : Obligations.DcpFindsTheFaultOfThePayload := by
  intro i s read rest out hdcp hat hshape htree hw hpay hbits hcodes
  have hstage := dcpStage_of_fits htree hw hpay
  refine ⟨fun q bit more n hfits hrest hf hn hmissing => ?_, fun n hfits hne hf hn => ?_, fun hfull => ?_⟩
  · rw [dcpRun_inside hshape hbits hcodes hfits hrest hf hn, runBits_missing hmissing] at hstage
    exact faultsTo_of_dcpStage hdcp hat hstage
  · have hroot : n ≠ s.root := by
      rintro rfl
      exact hne (hshape.walkable.path_unique hf rfl)
    rw [dcpRun_inside hshape hbits hcodes hfits (List.append_nil rest).symm hf hn] at hstage
    exact faultsTo_of_dcpStage hdcp hat (hstage.trans (if_neg hroot))
  · rw [dcpRun_full hshape hbits hcodes hfull] at hstage
    exact faultsTo_of_dcpStage hdcp hat hstage

/-! ### DEC (R210, R211) -/

/-- The RCN stage on entries that pass the tests, with what RCN leaves in the tree and in CODE (R44, R188). -/
theorem rcnStage_rebuilds {s : State} (hfits : headerFits s) (hgood : entriesGood s (fileCount s)) :
    ∃ nodes c,
      stageOf .rcn s = .ok
        { s with
          nodes := nodes, root := 0, code := c, nsym := BitVec.ofNat 8 (fileCount s), treeSrc := .recon, codesValid := true } ∧
      ReconShape nodes 0 (fileCount s) ∧
      (∀ path k, leafAt nodes 0 path k ↔ ∃ e < fileCount s, entrySym s e = k ∧ entryCode s e = path) ∧
      (∀ e < fileCount s, codeAt c (entrySym s e) = entryField s e) ∧
      ∀ k, (∀ e < fileCount s, entrySym s e ≠ k) → codeAt c k = 0 := by
  obtain ⟨r, hstage, hinv⟩ := rcnStage_ok hfits hgood
  obtain ⟨-, -, hcount, -⟩ := hfits
  have hshape := hinv.shape (by simpa using hcount)
  rw [fileEntries_length] at hshape
  exact ⟨r.nodes, r.code, hstage, hshape, hinv.entries hgood⟩

/-- Settles O39: each stage completes as it does in its single command, and DEC's list names the next one. -/
theorem decCompletesStageByStage : Obligations.DecCompletesStageByStage := by
  refine fun s => ⟨fun hat => ?clr, fun hat hfits hgood => ?rcn, fun out hat hshape htree hw hpay hcodes hfits => ?dcp⟩
  case clr => exact exec_at hat (by decide) (clrStage_ok s)
  case rcn =>
    obtain ⟨nodes, c, hstage, hbuilt⟩ := rcnStage_rebuilds hfits hgood
    exact ⟨nodes, c, exec_at (i := .rcn) hat (by decide) hstage, exec_at (i := .dec) hat (by decide) hstage, hbuilt⟩
  case dcp =>
    obtain ⟨m, hstage, hwritten⟩ := dcpStage_writes hshape htree hw hpay hcodes hfits
    have hdec := exec_at (i := .dec) hat (by decide) hstage
    exact ⟨m, hdec, (exec_at (i := .dcp) hat (by decide) hstage).trans hdec.symm, hwritten⟩

/-- Settles O41: the stages of DEC are CLR and those of the two other single commands. -/
theorem decEqualsItsParts : Obligations.DecEqualsItsParts := fun _ hb herr =>
  command_equals_parts (i := .dec) (l := [.rcn, .dcp]) rfl (by decide) (by decide) hb herr

end Sys2Proof.Machine
end

section
/-! The round trip (spec/46_decode.md R212): what an ENC that completed has written, and the stages of DEC on a source window that
holds it. -/

namespace Sys2Proof.Machine

/-! ### An ENC that completed -/

/-- A command that has ended with DONE = 1 has completed each of its stages (R220). -/
theorem stagesFrom_done {st : Stage} {l : List Stage} {s e : State} (h : stagesFrom (st :: l) s = some e) (hdone : e.done = true) :
    ∃ s', stageOf st (movedOn st s) = .ok s' ∧ stagesFrom l s' = some e := by
  rw [stagesFrom] at h
  split at h
  · next s' hf => exact ⟨s', hf, h⟩
  · next n v _ =>
    obtain rfl := Option.some.inj h
    obtain ⟨-, hnot, -⟩ := takeFault_ends st n v (movedOn st s)
    simp [hnot] at hdone
  · simp at h

theorem cntStage_ok_srcInRange {s t : State} (h : cntStage s = .ok t) : srcInRange s := by
  by_contra hout
  exact raise_ne_ok ((cntStage_window hout).symm.trans h)

/-- The CNT stage of an ENC that completed has found the source window legal, and its SER stage has written the file (R170). -/
theorem enc_done {s e : State} (hsym : allSymbols s) (h : stagesFrom Instr.enc.stages s = some e) (hdone : e.done = true) :
    ∃ q, ReadyToWrite q ∧ q.mem = s.mem ∧ windowsOf q = windowsOf s ∧ e.dstLen.toNat = (compressedFile q).length ∧
      memHolds e.mem e.dstBase.toNat (compressedFile q) := by
  have hsrc : srcInRange s := by
    obtain ⟨s₁, hclr, hrest⟩ := stagesFrom_done (st := .clr) h hdone
    obtain rfl := Except.ok.inj hclr
    obtain ⟨s₂, hcnt, -⟩ := stagesFrom_done (st := .cnt) hrest hdone
    have hlegal := cntStage_ok_srcInRange hcnt
    exact hlegal
  obtain ⟨q, hstages, hready, hmem, hwin, -⟩ := enc_before_ser hsrc hsym
  obtain ⟨q', hser, hend⟩ := stagesFrom_done (hstages.symm.trans h) hdone
  obtain rfl := Option.some.inj hend
  cases stageDone hser with
  | ser _ _ _ hfits => exact ⟨q, hready, hmem, hwin, emitted_dstLen hfits, memHolds_putBytes _ _ _⟩

/-! ### The payload of a file read back -/

/-- The bytes of the source window. -/
def sourceBytes (s : State) : List Byte := (List.range s.srcLen.toNat).map (srcByte s)

@[simp] theorem sourceBytes_length (s : State) : (sourceBytes s).length = s.srcLen.toNat := by simp [sourceBytes]

theorem sourceBytes_getElem {s : State} {j : Nat} (h : j < (sourceBytes s).length) : (sourceBytes s)[j] = srcByte s j := by
  simp [sourceBytes]

/-- The payload is the codes of the source bytes, in any tree with the leaves of the tree that gave the codes (R95). -/
theorem codesOf_sourceBits {q : State} (hq : ReadyToWrite q) {nodes : List Node} {root : NodeIdx}
    (hleaf : ∀ path k, leafAt q.nodes q.root path k → leafAt nodes root path k) :
    codesOf nodes root (sourceBits q) (sourceBytes q) := by
  refine ⟨_, List.flatMap_def, ?_⟩
  rw [sourceBytes, List.forall₂_map_left_iff, List.forall₂_map_right_iff, List.forall₂_same]
  intro i hi
  obtain ⟨-, hcode⟩ := hq.bytes i (List.mem_range.mp hi)
  obtain ⟨path, hp⟩ := hq.codes.leaf_of_ne_zero hcode
  obtain ⟨hpath, -⟩ := hq.codes.bits hq.shape hp
  rw [hpath]
  exact hleaf _ _ hp

section payload
variable {w q : State} (hfile : holdsFile w q)
include hfile

theorem filePad_of_holdsFile : filePad w = padCount (sourceBits q).length := by
  have hlen := compressedFile_length q
  obtain ⟨hsize, hbytes⟩ := hfile
  obtain ⟨hpad, -⟩ := padCount_le (sourceBits q).length
  rw [filePad, hbytes _ (by omega), hsize, file_pad, BitVec.toNat_ofNat, Nat.mod_eq_of_lt (by omega)]

variable (hsym : w.nsym = q.nsym)
include hsym

theorem payloadFits_of_holdsFile : payloadFits w := by
  have hlen := compressedFile_length q
  have hsize := hfile.1
  obtain ⟨hpad, hround⟩ := padCount_le (sourceBits q).length
  unfold payloadFits payloadOff
  rw [filePad_of_holdsFile hfile, hsym]
  refine ⟨by omega, hpad, fun ⟨hempty, hne⟩ => hne (by omega)⟩

/-- The bits that DCP walks are those that SER has packed (R95, R96, R205). -/
theorem walkedBits_of_holdsFile : walkedBits w = sourceBits q := by
  have hlen := compressedFile_length q
  obtain ⟨hsize, hbytes⟩ := hfile
  have hbytesOut : w.srcLen.toNat - 1 - payloadOff w = ((sourceBits q).length + 7) / 8 := by
    rw [payloadOff, hsym]; omega
  conv_rhs => rw [← unpack_bits (sourceBits q)]
  rw [walkedBits, hbytesOut, filePad_of_holdsFile ⟨hsize, hbytes⟩]
  refine List.flatMap_congr fun m hm => ?_
  rw [List.mem_range] at hm
  have hlast : payloadOff w + m + 1 = w.srcLen.toNat - 1 ↔ m + 1 = ((sourceBits q).length + 7) / 8 := by omega
  rw [usedBits, hbytes _ (by omega), payloadOff, hsym, file_payload q hm, ← hsym, ← payloadOff]
  simp only [hlast]

end payload

/-! ### DEC of a file -/

/-- The file of `q` in the source window, and a reconstructed tree with the leaves of the tree of `q`. -/
structure ReadyToRead (w q : State) : Prop where
  file : holdsFile w q
  recon : w.treeSrc = .recon
  shape : ReconShape w.nodes w.root w.nsym.toNat
  count : w.nsym = q.nsym
  leaves : ∀ path k, leafAt q.nodes q.root path k → leafAt w.nodes w.root path k

theorem ReadyToRead.movedOn {w q : State} (h : ReadyToRead w q) (st : Stage) : ReadyToRead (movedOn st w) q :=
  ⟨h.file, h.recon, h.shape, h.count, h.leaves⟩

section stages
variable {u q : State} (hq : ReadyToWrite q)
include hq

/-- The RCN stage rebuilds the tree from the entries of the file (R184, R188). -/
theorem rcnStage_readyToRead (hw : srcInRange u) (hfile : holdsFile u q) :
    ∃ w, stageOf .rcn u = .ok w ∧ ReadyToRead w q ∧ windowsOf w = windowsOf u ∧ w.err = u.err := by
  have hcount : fileCount u = q.nsym.toNat := holds_count hfile
  have hnsym : BitVec.ofNat 8 (fileCount u) = q.nsym := by rw [hcount, BitVec.ofNat_toNat, BitVec.setWidth_eq]
  obtain ⟨nodes, c, hrcn, hshape, hleaves, -⟩ := rcnStage_rebuilds (holds_header hfile hq hw) (hcount ▸ holds_good hfile hq)
  rw [hnsym] at hrcn
  rw [hcount] at hshape hleaves
  exact ⟨_, hrcn, ⟨hfile, rfl, hshape, rfl, fun path k hp => (hleaves path k).mpr (leaf_is_entry hfile hq hp)⟩, rfl, rfl⟩

/-- The DCP stage reads the payload back to the bytes that it was made of (R204, R212). -/
theorem dcpStage_of_readyToRead (h : ReadyToRead u q) (hw : windowsLegal u) (hroom : q.srcLen.toNat ≤ u.dstCap.toNat) :
    ∃ v, stageOf .dcp u = .ok v ∧ v.err = u.err ∧ v.dstLen = q.srcLen ∧ memHolds v.mem u.dstBase.toNat (sourceBytes q) := by
  have hcodes : codesOf u.nodes u.root (walkedBits u) (sourceBytes q) :=
    walkedBits_of_holdsFile h.file h.count ▸ codesOf_sourceBits hq h.leaves
  obtain ⟨m, hdcp, hholds, -⟩ := dcpStage_writes h.shape h.recon hw (payloadFits_of_holdsFile h.file h.count) hcodes
    (by simpa using hroom)
  exact ⟨_, hdcp, rfl, by simp, hholds⟩

/-- The stages of DEC complete on a source window that holds a file, and give back the bytes that the file was made of. -/
theorem dec_of_holdsFile (hw : windowsLegal u) (hfile : holdsFile u q) (hroom : q.srcLen.toNat ≤ u.dstCap.toNat) :
    ∃ v, stagesFrom Instr.dec.stages u = some (finished v) ∧ v.err = false ∧ v.dstLen = q.srcLen ∧
      memHolds v.mem u.dstBase.toNat (sourceBytes q) := by
  obtain ⟨w, hrcn, hready, hwin, herr⟩ :=
    rcnStage_readyToRead (u := movedOn .rcn (leaveFault (sessionClear (movedOn .clr u)))) hq hw.1 hfile
  have hww : windowsLegal w := windowsLegal_of_windowsOf hwin hw
  simp only [windowsOf, Windows.mk.injEq] at hwin
  obtain ⟨-, -, hbase, hcap⟩ := hwin
  obtain ⟨v, hdcp, hverr, hlen, hholds⟩ := dcpStage_of_readyToRead hq (hready.movedOn .dcp) hww (hcap ▸ hroom)
  have hend : stagesFrom Instr.dec.stages u = some (finished v) :=
    (stagesFrom_ok (st := .clr) (clrStage_ok _)).trans ((stagesFrom_ok (st := .rcn) hrcn).trans (stagesFrom_ok (st := .dcp) hdcp))
  exact ⟨v, hend, hverr.trans herr, hlen, hbase ▸ hholds⟩

end stages

/-- Settles O43: ENC has left a file (`enc_done`), the source window of DEC holds it, and its stages read it back. -/
theorem decodeOfEncodeIsTheInput : Obligations.DecodeOfEncodeIsTheInput := by
  intro s t u hsb hserr hsscript hsym hst htscript htb htdone hub huerr huscript hw hlen hbytes hroom
  obtain ⟨e, he⟩ := stagesFrom_some (idle_not_mem .enc) (s := accept .enc { s with script := [.wait] }) (.inr rfl)
  obtain rfl : t = seen e [] := runsTo_unique hst (runsTo_command hsscript hsb (by simp [hserr]) he) ⟨htscript, htb⟩
    ⟨rfl, (stagesFrom_not_busy he : e.busy = false)⟩
  obtain ⟨q, hq, hmem, hwin, hlength, hholds⟩ :=
    enc_done (s := accept .enc { s with script := [.wait] }) hsym he htdone
  simp only [windowsOf, Windows.mk.injEq] at hwin
  obtain ⟨hbase, hsize, -, -⟩ := hwin
  replace hsize : q.srcLen = s.srcLen := hsize
  have hsrc : ∀ j, srcByte q j = srcByte s j := fun j => by rw [srcByte, hmem, hbase]; rfl
  replace hlen : u.srcLen = e.dstLen := hlen
  have hfile : holdsFile (accept .dec { u with script := [.wait] }) q := by
    refine ⟨(congrArg BitVec.toNat hlen).trans hlength, fun j hj => ?_⟩
    replace hj : j < e.dstLen.toNat := hlen ▸ hj
    rw [List.getD_eq_getElem _ _ (hlength ▸ hj), ← hholds j (hlength ▸ hj)]
    exact hbytes j hj
  obtain ⟨v, hdec, hverr, hvlen, hvmem⟩ := dec_of_holdsFile (u := accept .dec { u with script := [.wait] }) hq hw hfile
    (hsize ▸ hroom)
  refine ⟨_, runsTo_command huscript hub (by simp [huerr]) hdec, rfl, rfl, rfl, hverr, hvlen.trans hsize, fun j hj => ?_⟩
  replace hj : j < (sourceBytes q).length := by simpa [hsize] using hj
  rw [← hsrc, ← sourceBytes_getElem hj]
  exact hvmem j hj

end Sys2Proof.Machine
end

section
/-! Faults and progress (spec/60_exceptions.md): how a stage step ends a command, and with which faults; what leaves the fault
state; that no step from a legal state gets stuck, and that a command ends. -/

namespace Sys2Proof.Machine

/-! ### How a stage step ends (R220, R227, R230) -/

/-- ERR is set by a stage step only in fault entry, with a fault of the stage (R221). -/
theorem exec_faulted {i : Instr} {s t : State} (h : exec i s = .next t) (hs : s.err = false) (ht : t.err = true) :
    ∃ e v, e ∈ faultsOf s.stage ∧ t = takeFault s.stage e v s := by
  obtain ⟨-, -, ⟨s', hf, rfl⟩ | ⟨e, v, hf, rfl⟩⟩ := exec_next h
  · have hkept : (advance (nextStage i.stages s.stage) s').err = false := by
      cases nextStage i.stages s.stage <;> exact (stageDone hf).err_false hs
    simp [hkept] at ht
  · exact ⟨e, v, (stage_raises hf).1, rfl⟩

/-- A stage step hands on to the next stage of the list, or ends the command in success or in a fault (R27, R220). -/
theorem exec_hands_on_or_ends {i : Instr} {s t : State} (h : exec i s = .next t) (hs : s.err = false) :
    (nextStage i.stages s.stage = some t.stage ∧ t.busy = true ∧ t.err = false) ∨
      (t.busy = false ∧ ((t.done = true ∧ t.err = false) ∨ (t.done = false ∧ t.err = true))) := by
  obtain ⟨hb, -, ⟨s', hf, rfl⟩ | ⟨e, v, -, rfl⟩⟩ := exec_next h
  · have herr := (stageDone hf).err_false hs
    obtain ⟨-, -, -, -, -, -, -, -, hbusy, -⟩ := (stageDone hf).frame
    cases nextStage i.stages s.stage with
    | none => exact .inr ⟨rfl, .inl ⟨rfl, herr⟩⟩
    | some st => exact .inl ⟨rfl, hbusy.trans hb, herr⟩
  · exact .inr ⟨rfl, .inr ⟨rfl, rfl⟩⟩

theorem code_sequenceError_iff (e : ErrName) : e.code = ErrName.sequenceError.code ↔ e = .sequenceError := by
  cases e <;> decide

/-! ### Progress (R20, R78, R220, R243) -/

/-- A host's read of memory is done, or is refused as a race (R78). -/
theorem hostMemRead_answers (a : Word) (s : State) :
    (∃ t, hostMemRead a s = .next t) ∨ hostMemRead a s = .refused .hostWindowRace := by
  unfold hostMemRead
  split
  · exact .inr rfl
  · exact .inl ⟨_, rfl⟩

/-- A host's write of memory is done, or is refused as a race (R78). -/
theorem hostMemWrite_answers (a : Word) (v : Byte) (s : State) :
    (∃ t, hostMemWrite a v s = .next t) ∨ hostMemWrite a v s = .refused .hostWindowRace := by
  unfold hostMemWrite
  split
  · exact .inr rfl
  · exact .inl ⟨_, rfl⟩

/-- Everything a host operation can come out as: a next state, a race, or a register number that the port does not have. -/
theorem host_answers {s : State} {o : Host.Outcome State Fault Refusal} (h : nextMove s = .host o) :
    (∃ t, o = .next t) ∨
      (o = .refused .hostWindowRace ∧ ∃ a rest, s.script = .memRead a :: rest ∨ ∃ v, s.script = .memWrite a v :: rest) ∨
      (o = .refused .noSuchRegister ∧
        ∃ n rest, 0x400 ≤ n ∧ (s.script = .regRead n :: rest ∨ ∃ v, s.script = .regWrite n v :: rest)) := by
  unfold nextMove at h
  split at h
  · split at h
    · simp at h
    · exact .inl ⟨s, (Move.host.inj h).symm⟩
  · next e rest hs =>
    split at h
    · next hwf =>
      obtain rfl := Move.host.inj h
      refine .inr (.inr ⟨rfl, ?_⟩)
      cases e with
      | regRead n => exact ⟨n, rest, Nat.not_lt.mp (of_decide_eq_false hwf), .inl hs⟩
      | regWrite n v => exact ⟨n, rest, Nat.not_lt.mp (of_decide_eq_false hwf), .inr ⟨v, hs⟩⟩
      | _ => simp [Event.wf] at hwf
    · cases e with
      | turn | wait =>
        dsimp only at h
        split at h
        · simp at h
        · exact .inl ⟨_, (Move.host.inj h).symm⟩
      | waitIrq =>
        dsimp only at h
        split at h
        · exact .inl ⟨_, (Move.host.inj h).symm⟩
        · split at h
          · simp at h
          · exact .inl ⟨_, (Move.host.inj h).symm⟩
      | regRead | regWrite | reset => exact .inl ⟨_, (Move.host.inj h).symm⟩
      | memRead a =>
        obtain rfl := Move.host.inj h
        exact (hostMemRead_answers ..).imp_right fun hrace => .inl ⟨hrace, a, rest, .inl hs⟩
      | memWrite a v =>
        obtain rfl := Move.host.inj h
        exact (hostMemWrite_answers ..).imp_right fun hrace => .inl ⟨hrace, a, rest, .inr ⟨v, hs⟩⟩

/-- A stage of a command answers a next state: only ASG could stop the model, and a legal tree keeps it from that (R154). -/
theorem exec_of_treeLegal {i : Instr} {s : State} (hb : s.busy = true) (hs : s.stage ∈ i.stages) (ht : TreeLegal s) :
    ∃ t, exec i s = .next t :=
  exec_legal hb hs fun hbuilt => ⟨_, ht.builtShape hbuilt⟩

/-- Settles O14: a stage step answers a next state since the sequencer names a stage of the command in OP and the tree is legal; a
host operation answers one, or is refused in one of the two ways of `host_answers`. -/
theorem legalStatesNeverGetStuck : Obligations.LegalStatesNeverGetStuck := by
  intro s hs
  cases hm : nextMove s with
  | stage s' =>
    obtain ⟨hb, l, rfl⟩ := stageMove hm
    obtain ⟨-, hrunning, -⟩ := hs.sequencer
    obtain ⟨i, ho, hst⟩ := hrunning hb
    obtain ⟨t, ht⟩ := exec_of_treeLegal (s := { s with script := l }) hb hst (hs.tree.of_eq rfl rfl rfl rfl rfl rfl)
    exact .inl ⟨t, (step_of_stage hm ho).trans ht⟩
  | host o =>
    rw [step_of_host hm]
    exact host_answers hm

/-- From the stage that `rest` follows in the list, with no host operation pending, the command ends after at most one step for
that stage and one for each stage of `rest`. -/
theorem command_ends {i : Instr} {before rest : List Stage} {s : State} (hi : i.stages = before ++ s.stage :: rest)
    (ht : TreeLegal s) (hb : s.busy = true) (he : s.err = false) (ho : s.op = i.opcode) (hscript : s.script = []) :
    ∃ n t, n ≤ rest.length + 1 ∧ runSteps n s = .next t ∧ t.busy = false ∧
      ((t.done = true ∧ t.err = false) ∨ (t.done = false ∧ t.err = true)) := by
  obtain ⟨t, hexec⟩ := exec_of_treeLegal (i := i) hb (by simp [hi]) ht
  have hstep : step s = .next t := ((stepRunsTheCommandInOp s i hb (ho ▸ fetch_opcode i)).1 hscript).trans hexec
  rcases exec_hands_on_or_ends hexec he with ⟨hnext, htb, hte⟩ | hend
  · rw [nextStage_of hi] at hnext
    obtain ⟨rest', rfl⟩ := List.head?_eq_some_iff.mp hnext
    obtain ⟨-, -, -, -, -, -, -, hop, htscript, -⟩ := htbKeepsTheHostRegisters i s t hexec
    obtain ⟨n, u, hn, hrun, hu⟩ := command_ends (before := before ++ [s.stage]) (rest := rest') (hi.trans (by simp))
      (exec_treeLegal ht hexec) htb hte (hop.trans ho) (htscript.trans hscript)
    exact ⟨n + 1, u, Nat.succ_le_succ hn, (runSteps_succ hstep).trans hrun, hu⟩
  · exact ⟨1, t, by omega, (runSteps_succ hstep).trans (runSteps_zero t), hend⟩
termination_by rest.length

/-- Settles O15: the stage named by STAGE stands in the list of the command in OP, and at most that many steps are left. -/
theorem commandEndsWithinItsStages : Obligations.CommandEndsWithinItsStages := by
  intro s i hs hb he ho hscript
  obtain ⟨-, hrunning, -⟩ := hs.sequencer
  obtain ⟨j, hoj, hst⟩ := hrunning hb
  obtain rfl := opcode_injective (ho.symm.trans hoj)
  obtain ⟨before, rest, hi⟩ := List.append_of_mem hst
  obtain ⟨n, t, hn, hend⟩ := command_ends hi hs.tree hb he ho hscript
  refine ⟨n, t, hn.trans ?_, hend⟩
  rw [hi, List.length_append, List.length_cons]
  omega

/-! ### Prerequisites (R227) -/

/-- A prerequisite that does not hold ends the stage in fault entry; memory stays as it is (R231). -/
theorem exec_sequenceError {i : Instr} {s : State} (hb : s.busy = true) (hs : s.stage ∈ i.stages) {k : Nat}
    (h : stageOf s.stage s = raise .sequenceError k) :
    exec i s = .next (faultEntry .sequenceError (BitVec.ofNat 32 k) s) :=
  exec_plainFault hb hs h (by simp [spoilsDst])

/-- Settles O44: ASG, SER and DCP test their prerequisite first; the faults of the other stages are of another name. -/
theorem prerequisitesComeFirst : Obligations.PrerequisitesComeFirst := by
  refine fun i s hs hb => ⟨fun hst htree => ?_, fun hst hcodes => ?_, fun hst htree => ?_, fun hst he t h ht hcode => ?_⟩
  · exact exec_sequenceError hb hs (by rw [hst]; exact asgStage_notBuilt htree)
  · exact exec_sequenceError hb hs (by rw [hst]; exact serStage_noCodes hcodes)
  · exact exec_sequenceError hb hs (by rw [hst]; exact dcpStage_notRecon htree)
  · obtain ⟨e, v, hmem, rfl⟩ := exec_faulted h he ht
    obtain rfl := (code_sequenceError_iff e).mp hcode
    simp only [List.mem_cons, List.not_mem_nil, or_false] at hst
    rcases hst with hst | hst | hst | hst <;> simp [hst, faultsOf] at hmem

/-! ### Fault entry (R221, R230, R231, R234) -/

/-- Settles O46: a stage faults with `takeFault`, which is fault entry but for the destination window; an illegal word is fault
entry alone; the codes are read off their definition. -/
theorem faultEntryIsPrecise : Obligations.FaultEntryIsPrecise := by
  refine ⟨fun i s t h hs ht => ?_, fun s w hb he hill => ?_, fun e n => ?_⟩
  · obtain ⟨e, v, hmem, rfl⟩ := exec_faulted h hs ht
    refine ⟨e, v, hmem, takeFault_registers .., takeFault_sameOutside _ e v s, fun hspared => ?_⟩
    have hplain : spoilsDst s.stage e = false := by
      rw [← Bool.not_eq_true, spoilsDst_iff]
      tauto
    rw [takeFault_plain hplain, faultEntry_mem]
  · exact writesAs_cmd hb fun rest => cmdWrite_illegal (s := { s with script := rest }) (by simp [he]) hill
  · cases e <;> simp [ErrName.code, eq_comm]

/-! ### The fault state (R232, R233) -/

/-- With ERR = 1 a register write leaves the fault registers alone: only the CLR word is accepted, and accepting it does not clear
them (R26, R232). -/
theorem hostRegWrite_keepsFault (n : Nat) (v : Word) {s : State} (he : s.err = true) :
    (hostRegWrite n v s).err = true ∧ (hostRegWrite n v s).errCode = s.errCode ∧ (hostRegWrite n v s).errInfo = s.errInfo := by
  rcases hostRegWrite_cases n v s with
    h | ⟨-, ⟨i, -, -, -, h⟩ | ⟨-, h0, -⟩ | h | ⟨a, b, h⟩ | ⟨a, b, c, d, h⟩ | ⟨a, h⟩ | ⟨f, h⟩⟩
  case inr.inr.inl => simp [he] at h0
  all_goals rw [h]; exact ⟨he, rfl, rfl⟩

theorem HostKeeps.keepsFault {s t : State} (h : HostKeeps s t) (he : s.err = true) :
    t.err = true ∧ t.errCode = s.errCode ∧ t.errInfo = s.errInfo :=
  ⟨h.err.trans he, h.errCode, h.errInfo⟩

/-- Of the host's operations only reset leaves the fault state at once (R232, R250). -/
theorem HostDone.keepsFault {s t : State} (h : HostDone s t) (he : s.err = true) :
    (t.err = true ∧ t.errCode = s.errCode ∧ t.errInfo = s.errInfo) ∨ ∃ rest, s.script = .reset :: rest := by
  cases h with
  | idle | turn | irq | stuck | memRead | memWrite => exact .inl ⟨he, rfl, rfl⟩
  | wait rest | regRead n rest => exact .inl ((HostKeeps.regRead _ s rest).keepsFault he)
  | regWrite n v rest => exact .inl (hostRegWrite_keepsFault n v (s := { s with script := rest }) he)
  | reset rest hs => exact .inr ⟨rest, hs⟩

/-- A step of the CLR command leaves the fault state: its one stage cannot fault (R110, R111). -/
theorem execClr_leavesFault {s t : State} (h : exec .clr s = .next t) : t.err = false ∧ t.errCode = 0 ∧ t.errInfo = 0 := by
  obtain ⟨hb, hst, -⟩ := exec_next h
  have hat : atStage .clr s := ⟨hb, by simpa [Instr.stages] using hst⟩
  rw [clrClearsSessionAndFault s hat, Host.Outcome.next.injEq] at h
  subst h
  exact ⟨rfl, rfl, rfl⟩

/-- Settles O47: with ERR = 1 the only command that can be running is CLR, and of the host's operations only reset touches the
fault registers. -/
theorem onlyClrOrResetLeavesTheFaultState : Obligations.OnlyClrOrResetLeavesTheFaultState := by
  rintro s t ⟨-, -, -, hclr, -⟩ he h
  rcases step_cases h with ⟨i, l, hb, ho, hexec⟩ | hd
  · have hop := hclr he hb
    obtain rfl := opcode_injective (ho.symm.trans hop)
    exact .inr (.inl ⟨hb, hop, execClr_leavesFault hexec⟩)
  · exact (hd.keepsFault he).imp_right .inr

/-! ### The interrupt line, and HTB between commands (R224, R225, R245) -/

/-- Settles O48: a command ends with one of DONE and ERR set (`exec_hands_on_or_ends`), and no stage changes the enable bits. -/
theorem interruptLineAtTheEndOfACommand : Obligations.InterruptLineAtTheEndOfACommand := by
  intro i s t h hs htb
  obtain ⟨hieDone, hieErr, -⟩ := htbKeepsTheHostRegisters i s t h
  rcases exec_hands_on_or_ends h hs with ⟨-, hbusy, -⟩ | ⟨-, ⟨hdone, herr⟩ | ⟨hdone, herr⟩⟩
  · simp [htb] at hbusy
  all_goals simp [irq, hdone, herr, hieDone, hieErr]

/-- Settles O5: a state with BUSY = 0 and no host operation pending is the end of a run (R263). -/
theorem idleKeepsState : Obligations.IdleKeepsState := fun _ hb hs => step_over ⟨hs, hb⟩

end Sys2Proof.Machine
end
